-- ==== Sys2Proof/Word.lean ====
section
/-! DEFINITION. The data the block moves: words, bytes, register slots (spec/00_scope.md R6, spec/10_state.md R21), the four
tags (spec/30_encoding.md R87, R88), element records and streams as values, and regions of the address space. -/

namespace Sys2Proof

/-- A word: a list element, a delta, the common value, the accumulator (R6, R7). -/
abbrev Word := BitVec 32

/-- One byte of memory (R6). -/
abbrev Byte := BitVec 8

/-- The 8-byte slot of a register; a narrower register occupies the low bits (R21). -/
abbrev Slot := BitVec 64

/-- The 2-bit classifier of an element: "exactly four values" (R88, R96). -/
inductive Tag where
  | com   -- 00: the delta equals the common value
  | s8    -- 01: the delta fits in signed 8 bits
  | s16   -- 10: the delta fits in signed 16 bits
  | s32   -- 11: the delta requires full signed 32 bits
deriving DecidableEq, Repr

/-- An element record: one tag and the payload it calls for (R88). -/
structure Rec where
  tag     : Tag
  payload : List Byte
deriving DecidableEq, Repr

/-- A pre-coded stream as a value: the common value, "omitted iff N == 0" (R84), and the records in element order (R83). -/
structure Stream where
  header : Option Word
  recs   : List Rec
deriving DecidableEq, Repr

/-- The addresses `base, …, base + size - 1`. -/
structure Region where
  base : Nat
  size : Nat
deriving DecidableEq, Repr

/-- The address lies in the region. -/
def Region.has (r : Region) (a : Nat) : Bool := decide (r.base ≤ a) && decide (a < r.base + r.size)

/-- The two regions have an address in common. -/
def Region.meets (r q : Region) : Bool := decide (max r.base q.base < min (r.base + r.size) (q.base + q.size))

end Sys2Proof
end

