-- ==== Sys2Proof/Config.lean ====
section
/-! DEFINITION. What an implementation fixes (spec/00_scope.md R5, spec/93_implementation_defined.md U13) and the free
values. The parameters are plain data, held by the state (log 1), so that a statement about every state holds for every
choice of them. The opaque constants have no body: nothing can be proved of their values. -/

namespace Sys2Proof

/-- The parameter TIE (R5, R135). `lowest` is the reference rule; `other k` is any other deterministic rule, its choice
among the tied modes given by `Config.tieIndex k` (log 6). -/
inductive TieRule where
  | lowest
  | other (k : Nat)
deriving DecidableEq, Repr

/-- The parameters of the block and of the platform around it (R5, R38, R51, R56, R60), and the host's declaration of its
streams (93 U1). -/
structure Platform where
  /-- AW: width in bits of an address and of SRC, DST, COUNT, RESULT, FADDR. -/
  aw      : Nat
  /-- NMAX: the largest element count a command may be given. -/
  nmax    : Nat
  /-- TIE: the choice among tied modes. -/
  tie     : TieRule
  /-- `admits(a)`: the union of these regions (R56; log 18). -/
  admits  : List Region
  /-- Device memory: not ordinary memory in the sense of R60. -/
  devices : List Region
  /-- The buffers the host has declared as holding streams, one region each (93 U1, R269; log 20). -/
  streams : List Region
deriving DecidableEq, Repr

/-- The platform at reset: AW and TIE at their reference values (D6, D8).
DESIGN CHOICE: NMAX = 2^60 (log 1), every address admitted and no device memory (log 3), the whole memory declared as the one
buffer of streams (log 20). -/
def Config.reference : Platform :=
  { aw := 64, nmax := 2 ^ 60, tie := .lowest, admits := [⟨0, 2 ^ 64⟩], devices := [],
    streams := [⟨0, 2 ^ 64⟩] }

/-- DESIGN CHOICE: IDP_BASE of the one instance present at reset (log 2). -/
def Config.referenceBase : Nat := 0xF0000000

/-- The choice of rule `k` among the tied modes: a function of the histogram alone (R135), taken modulo the number of tied
modes. A free value. -/
opaque Config.tieIndex : Nat → List (Word × Nat) → Nat

/-- The unspecified byte number `k`: in an output range (R237, R262, U3, U6), in a workspace after a failed decompression
(R218; log 25), or the answer of a device (log 15). A free value. -/
opaque Config.freeByte : Nat → Byte

/-- What DEC finds at an address outside its stream's buffer, in its command number `view` (93 U1). A free value. -/
opaque Config.foreignByte : Nat → Nat → Byte

/-- The unspecified choice number `k`: the outcome of a command whose ranges overlap (U6). A free value. -/
opaque Config.freeNat : Nat → Nat

end Sys2Proof
end

