-- ==== Sys2Proof/Machine/State.lean ====
section
/-! DEFINITION. The state: the registers of each instance of the block (spec/10_state.md R20 to R28, R39), the working values of
a running command (R31, R33, R35), the memory shared with the host (spec/20_memory.md R50), the parameters (R38), and the
host's pending actions. Plain data throughout. -/

namespace Sys2Proof.Machine

/-- The codes of STATUS.ERR other than OK (R232). REPR_FATAL is never produced (R239). -/
inductive Err where
  | illegalCmd
  | accessFault
  | reprFatal
  | badCount
  | badRange
deriving DecidableEq, Repr

/-- Which part of its work a running command is in (R33): the header read and the element pass of DEC, the histogram pass
and the emission pass of ENC. -/
inductive Pass where
  | hist
  | emit
  | header
  | dec
deriving DecidableEq, Repr

/-- The working values of a running command (R31). -/
structure Work where
  pass    : Pass
  /-- The operands, copied from COUNT, SRC and DST at the start (R30). -/
  n       : Nat
  src     : Nat
  dst     : Nat
  prev    : Word
  acc     : Word
  common  : Word
  delta   : Word
  tag     : Tag
  i       : Nat
  tagByte : Byte
  resCur  : Nat
  /-- `H` (R35): the words with a non-zero count and their counts, in rising signed order of the words. -/
  hist    : List (Word × Nat)
  /-- The model's own: which free values stand for the bytes outside the buffer of the command's stream (93 U1;
log 20). -/
  view    : Nat
deriving DecidableEq, Repr

/-- One instance of the block (R20, R39). SRC, DST, COUNT, RESULT and FADDR are AW bits wide and occupy the low bits of
their slots (R21; log 4). -/
structure Inst where
  /-- IDP_BASE (R21, R51). -/
  base   : Nat
  cmd    : BitVec 32
  src    : Slot
  dst    : Slot
  count  : Slot
  result : Slot
  status : BitVec 32
  faddr  : Slot
  /-- The working values; `none` when no command runs (R31, R40). -/
  work   : Option Work
deriving DecidableEq, Repr

/-- What the host, or the world outside, does next (log 10). -/
inductive HostAction where
  /-- A write of a whole register by its address (R21, R22, R61); a write to CMD runs the command to its end (R231). -/
  | regWrite (addr : Nat) (v : BitVec 64)
  /-- As `regWrite`, but a command is left to run element by element, as an agent other than its host may watch it
  (R231, R262; log 11). -/
  | regWriteStepped (addr : Nat) (v : BitVec 64)
  /-- Lets the running command do one element (log 11). -/
  | tick
  /-- A read of a whole register by its address (R21, R61). -/
  | regRead (addr : Nat)
  /-- A write of one byte of memory. -/
  | store (addr : Nat) (b : Byte)
  /-- A read of one byte of memory. -/
  | load (addr : Nat)
  /-- The external reset of the instance at `base` (R260). -/
  | reset (base : Nat)
  /-- The platform changes `admits` between commands (R56). -/
  | setAdmits (rs : List Region)
  /-- The host declares the buffers that hold its streams, between commands (93 U1; log 20). -/
  | declare (rs : List Region)
deriving DecidableEq, Repr

/-- Memory: the bytes that differ from what an unlisted address reads as, in rising order of address. -/
abbrev Memory := List Host.Cell

/-- DESIGN CHOICE (log 5): what a byte of memory that nothing has written reads as. -/
def Memory.unlisted : Byte := 0#8

structure State where
  /-- The instance the host is driving. -/
  inst     : Inst
  /-- The other instances (R39, R247; log 12). -/
  others   : List Inst
  /-- The one address space (R50). -/
  mem      : Memory
  /-- The parameters (R5, R38). -/
  plat     : Platform
  /-- The model's own: the host's pending actions, the next one first. -/
  queue    : List HostAction
  /-- The model's own: what the host's last register read or load returned. -/
  hostIn   : BitVec 64
  /-- The model's own: how many free values have been drawn. -/
  draws    : Nat
  /-- The model's own: the ghost record of every fault, the latest first (R27, R241). -/
  faultLog : List Err
deriving DecidableEq, Repr

/-- Why the machine stops. A command's own faults are NOT here: they end the command and the machine goes on (R236). -/
inductive Fault where
  /-- Raised by a `store` or `load` action at an address of 2^AW or above, which does not exist (R50). Safe. -/
  | noSuchAddress (addr : Nat)
deriving DecidableEq, Repr

/-- What the model refuses, by name. -/
inductive Refusal where
  /-- Raised by an instruction with no meaning in the model; no instruction raises it. Safe. -/
  | notModelled (mnemonic : String)
  /-- Raised by ENC and DEC when a range of the command meets device memory or the register block of an instance: the spec
  says `refuse` (R267, 93 U8; log 9). Safe. -/
  | deviceRange
  /-- Raised by an element record when no command is in a pass that has an element left to pack or execute: the working
  values it acts on do not exist then (R31, R160; log 13). The sequencer never reaches it. Safe. -/
  | recordOutsidePass
  /-- Raised by a register access at an address that is in the register block of no instance (R21; log 15). Safe. -/
  | notARegister (addr : Nat)
  /-- Raised by a register access inside a register but not at its address, and by a `store` or `load` action of one byte of
  a register: "each access whole", "there is no partial write" (R21, R61; log 15). Safe. -/
  | partialAccess (addr : Nat)
deriving DecidableEq, Repr

/-- Every register at its reset value (R40), at address `base`. -/
def Inst.atReset (base : Nat) : Inst :=
  { base := base, cmd := 0, src := 0, dst := 0, count := 0, result := 0, status := 0, faddr := 0, work := none }

/-- The machine right after reset: every register 0 and no command running (R40). The fields that are not the block's own
hold the values of logs 1, 2, 3, 5, 10 and 15. -/
def State.reset : State :=
  { inst := Inst.atReset Config.referenceBase, others := [], mem := [], plat := Config.reference, queue := [], hostIn := 0,
    draws := 0, faultLog := [] }

end Sys2Proof.Machine
end

