-- ==== Sys2Proof/Machine/Flags.lean ====
section
/-! DEFINITION. STATUS (spec/10_state.md R27): its fields and what the end of a command writes there. The block has no
condition codes and no arithmetic flags (R34): these are all its status bits. -/

namespace Sys2Proof.Machine

/-- The code of a fault in STATUS.ERR (R232). -/
def Err.code : Err → BitVec 4
  | .illegalCmd => 1
  | .accessFault => 2
  | .reprFatal => 3
  | .badCount => 4
  | .badRange => 5

/-- STATUS.DONE, bit 0 (R27). -/
def statusDone (s : BitVec 32) : Bool := s.getLsbD 0

/-- STATUS.ERR, bits 7:4 (R27). -/
def statusErr (s : BitVec 32) : BitVec 4 := s.extractLsb' 4 4

/-- STATUS after a command that ended with the given code: ERR is the code, DONE is 1, the reserved bits read as 0 (R27,
R236; log 17). -/
def statusWord (code : BitVec 4) : BitVec 32 := (code.setWidth 32 <<< 4) ||| 1#32

/-- ERR of a successful command (R232). -/
def codeOK : BitVec 4 := 0

/-- The values STATUS can hold: 0 after reset, or DONE with one of the codes that are produced (R27, R239). -/
def statusLegal (s : BitVec 32) : Bool :=
  decide (s = 0) || decide (s = statusWord codeOK) || decide (s = statusWord Err.illegalCmd.code) ||
    decide (s = statusWord Err.accessFault.code) || decide (s = statusWord Err.badCount.code) ||
    decide (s = statusWord Err.badRange.code)

end Sys2Proof.Machine
end

