-- ==== Sys2Proof/Syntax.lean ====
section
/-! DEFINITION. The instructions: the six host commands (spec/30_encoding.md R80) and the four element records selected by
the 2-bit tag (R88), one constructor per row of spec/opcode_table.json. A command's operands are the registers SRC, DST and
COUNT, a record's payload stands in memory at the residual cursor (R91), so no constructor carries an operand. -/

namespace Sys2Proof

inductive Instr where
  | encS   -- ENC.S  0x00000001
  | encU   -- ENC.U  0x00000011
  | decS   -- DEC.S  0x00000002
  | decU   -- DEC.U  0x00000012
  | szp    -- SZP    0x00000003
  | szw    -- SZW    0x00000004
  | tCom   -- T.COM  tag 0
  | tS8    -- T.S8   tag 1
  | tS16   -- T.S16  tag 2
  | tS32   -- T.S32  tag 3
deriving DecidableEq, Repr

end Sys2Proof
end

