-- ==== Sys2Proof/Decode.lean ====
section
/-! DEFINITION. The encodings of spec/30_encoding.md: command words (R80, R81), tag bytes (R86, R87), element records and the
pre-coded stream (R83 to R93). First the decoders, total on any bytes and refusing by name, then the encoders. -/

namespace Sys2Proof

/-- Why bytes are not an instruction or not a stream. -/
inductive DecodeError where
  | illegalCommand (w : Word)   -- the word is not one of the six (R81)
  | tooShort                    -- fewer bytes than the encoding has
deriving DecidableEq, Repr

/-! ## Byte sequences (R8) -/

/-- `le(n, v)`: the `n` low bytes of `v`, least significant first (R8). -/
def leBytes : Nat → Nat → List Byte
  | 0, _ => []
  | n + 1, v => BitVec.ofNat 8 v :: leBytes n (v / 256)

/-- `unle(b0, b1, …)` = b0 + 256*b1 + … (R8). -/
def unle : List Byte → Nat
  | [] => 0
  | b :: bs => b.toNat + 256 * unle bs

/-! ## Tags (R86 to R88) -/

/-- The number of a tag: the numeral's left digit is the more significant bit (R87, D35). -/
def Tag.code : Tag → BitVec 2
  | .com => 0b00#2
  | .s8 => 0b01#2
  | .s16 => 0b10#2
  | .s32 => 0b11#2

/-- Every 2-bit number is a tag (R96). -/
def Tag.ofCode (c : BitVec 2) : Tag :=
  if c = 0b00#2 then .com
  else if c = 0b01#2 then .s8
  else if c = 0b10#2 then .s16
  else .s32

/-- `resLen(t)`: the number of payload bytes (R10, R90). -/
def resLen : Tag → Nat
  | .com => 0
  | .s8 => 1
  | .s16 => 2
  | .s32 => 4

/-- The tag in lane `j` of a tag byte: `(tagByte >> 2j) & 3` (R86, R169). -/
def tagLane (b : Byte) (j : Nat) : BitVec 2 := (b >>> (2 * j)).setWidth 2

/-- Insertion of a tag into lane `j`: `tagByte | (tag << 2j)` (R163). -/
def insertTag (b : Byte) (t : Tag) (j : Nat) : Byte := b ||| (t.code.setWidth 8 <<< (2 * j))

/-- The instruction a tag selects (R88). -/
def Instr.ofTag : Tag → Instr
  | .com => .tCom
  | .s8 => .tS8
  | .s16 => .tS16
  | .s32 => .tS32

/-! ## Instructions -/

/-- Where an instruction is found: a command word written to CMD, or lane `j` of a tag byte of the stream. -/
inductive Place where
  | command
  | lane (j : Nat)
deriving DecidableEq, Repr

/-- A command word is compared on all 32 bits with the six legal words (R80, R81). -/
def decodeCommand (w : Word) : Except DecodeError Instr :=
  if w = 0x00000001#32 then .ok .encS
  else if w = 0x00000011#32 then .ok .encU
  else if w = 0x00000002#32 then .ok .decS
  else if w = 0x00000012#32 then .ok .decU
  else if w = 0x00000003#32 then .ok .szp
  else if w = 0x00000004#32 then .ok .szw
  else .error (.illegalCommand w)

/-- The instruction at the head of a byte sequence, and the bytes after it: four bytes of a command word, least significant
first, or one tag byte, of which one lane is read and the others are ignored (R97). -/
def decodeBytes : Place → List Byte → Except DecodeError (Instr × List Byte)
  | .command, b0 :: b1 :: b2 :: b3 :: rest =>
      match decodeCommand (BitVec.ofNat 32 (unle [b0, b1, b2, b3])) with
      | .ok i => .ok (i, rest)
      | .error e => .error e
  | .lane j, b :: rest => .ok (Instr.ofTag (Tag.ofCode (tagLane b j)), rest)
  | _, _ => .error .tooShort

/-! ## The stream (R83 to R93, R190) -/

/-- The record with tag `t` at the head of the residual bytes, and the bytes after it (R90, R91). -/
def takeRec (t : Tag) (res : List Byte) : Option (Rec × List Byte) :=
  if resLen t ≤ res.length then some (⟨t, res.take (resLen t)⟩, res.drop (resLen t)) else none

/-- The records of a list of tags, their payloads one after the other (R91). -/
def takeRecs : List Tag → List Byte → Option (List Rec × List Byte)
  | [], res => some ([], res)
  | t :: ts, res =>
      match takeRec t res with
      | none => none
      | some (r, res') =>
          match takeRecs ts res' with
          | none => none
          | some (rs, rest) => some (r :: rs, rest)

/-- `ceil(N/4)` (R6): the length of the tag region. -/
def tagBytes (n : Nat) : Nat := (n + 3) / 4

/-- The tag of element `i` is lane `i mod 4` of tag byte `i div 4` (R86; 90_conflicts.md C3). -/
def tagAt (region : List Byte) (i : Nat) : Tag := Tag.ofCode (tagLane (region.getD (i / 4) 0#8) (i % 4))

/-- The tags of elements 0 to n-1; lanes of elements that do not exist are not looked at (R86, R97). -/
def unpackTags (n : Nat) (region : List Byte) : List Tag := (List.range n).map (tagAt region)

/-- A stream of `n` elements at the head of a byte sequence, and the bytes after it, which are not looked at (R83, R84,
R91, R97, R190). It is defined when there are as many bytes as the tags dictate. -/
def parseStream (n : Nat) (s : List Byte) : Except DecodeError (Stream × List Byte) :=
  if n = 0 then .ok (⟨none, []⟩, s)
  else if s.length < 4 + tagBytes n then .error .tooShort
  else
    match takeRecs (unpackTags n ((s.drop 4).take (tagBytes n))) (s.drop (4 + tagBytes n)) with
    | none => .error .tooShort
    | some (rs, rest) => .ok (⟨some (BitVec.ofNat 32 (unle (s.take 4))), rs⟩, rest)

/-! ## Encoders -/

/-- The number an instruction has in the opcode table: a command's word, a record's tag. -/
def Instr.code : Instr → Nat
  | .encS => 0x00000001
  | .encU => 0x00000011
  | .decS => 0x00000002
  | .decU => 0x00000012
  | .szp => 0x00000003
  | .szw => 0x00000004
  | .tCom => 0
  | .tS8 => 1
  | .tS16 => 2
  | .tS32 => 3

/-- How many bits the opcode table gives the instruction: CMD32, or the two bits of a tag. -/
def Instr.bits : Instr → Nat
  | .encS | .encU | .decS | .decU | .szp | .szw => 32
  | .tCom | .tS8 | .tS16 | .tS32 => 2

/-- Where the instruction stands when its tag, if it has one, is put into lane `j`. -/
def Instr.place (i : Instr) (j : Nat) : Place := if i.bits = 32 then .command else .lane j

/-- The bytes of an instruction: the command word little-endian, or a tag byte with the tag in lane `j` and the other lanes
0 (R86). -/
def encodeBytes (i : Instr) (j : Nat) : List Byte :=
  if i.bits = 32 then leBytes 4 i.code else [BitVec.ofNat 8 (i.code * 4 ^ j)]

/-- The tag byte of a group of at most four tags, lane 0 first (R86, R163). -/
def tagByteOf : List Tag → Byte
  | [] => 0#8
  | t :: ts => t.code.setWidth 8 ||| (tagByteOf ts <<< 2)

/-- The tag region: four tags a byte, the unused lanes of the last byte 0 (R86, R168). -/
def packTags : List Tag → List Byte
  | a :: b :: c :: d :: ts => tagByteOf [a, b, c, d] :: packTags ts
  | [] => []
  | ts => [tagByteOf ts]

/-- The bytes of a stream: header, tag region, residual region, nothing between or after them (R83, R84, R85). -/
def emitStream (st : Stream) : List Byte :=
  (match st.header with
   | none => []
   | some c => leBytes 4 c.toNat) ++ packTags (st.recs.map Rec.tag) ++ st.recs.flatMap Rec.payload

/-! ## The opcode table's numbering -/

/-- The instruction the decoder reads from the bits `w`, numbered as the opcode table numbers them: a row of up to one
byte is a tag, in lane 0 of a tag byte; a wider row is a command word. -/
def decodeTableWord (nbits w : Nat) : Option Instr :=
  match (if nbits ≤ 8 then decodeBytes (.lane 0) (leBytes 1 w) else
         if nbits ≤ 32 then decodeBytes .command (leBytes 4 w) else .error .tooShort) with
  | .ok (i, _) => some i
  | .error _ => none

end Sys2Proof
end

