-- ==== Sys2Proof/Machine/Operands.lean ====
section
/-! DEFINITION. The operand forms and the arithmetic on element data: BitCast (spec/40_bitcast_sizing.md R110, R111), the
two wrapping operations (R113), the range tests (R114), the size function (R115), classification and payload
(spec/42_tag_payload_packer.md R161, R162) and the delta a record carries (spec/30_encoding.md R89). -/

namespace Sys2Proof.Machine

/-- R110: the signed reading of a word. -/
def toSigned (u : Word) : Int := if u.toNat < 2 ^ 31 then (u.toNat : Int) else (u.toNat : Int) - 2 ^ 32

/-- R111: the word of a signed value. -/
def toUnsigned (z : Int) : Word := BitVec.ofInt 32 z

/-- R113: the encoder's subtraction, wrapping modulo 2^32. -/
def deltaOf (prev cur : Word) : Word := cur - prev

/-- R113: the decoder's addition, wrapping modulo 2^32. -/
def accumulated (acc delta : Word) : Word := acc + delta

/-- R10: the deltas of a list whose predecessor is `prev` (0, the phantom predecessor, for a whole list). -/
def deltasFrom (prev : Word) : List Word → List Word
  | [] => []
  | x :: xs => deltaOf prev x :: deltasFrom x xs

/-- R10: `delta(xs, i)` for every element. -/
def deltas (xs : List Word) : List Word := deltasFrom 0#32 xs

/-- R190: `out(i) = wrap32(out(i-1) + delta(i))`, with `out(-1) = acc`. -/
def sumsFrom (acc : Word) : List Word → List Word
  | [] => []
  | d :: ds => accumulated acc d :: sumsFrom (accumulated acc d) ds

/-- R114. -/
def fits8 (d : Word) : Bool := decide (-128 ≤ toSigned d) && decide (toSigned d ≤ 127)

/-- R114. -/
def fits16 (d : Word) : Bool := decide (-32768 ≤ toSigned d) && decide (toSigned d ≤ 32767)

/-- R161: the first test that holds; equality with the common value comes first. -/
def classify (common d : Word) : Tag :=
  if d = common then .com
  else if fits8 d then .s8
  else if fits16 d then .s16
  else .s32

/-- R162: the low bytes of the delta, as many as the tag calls for. -/
def payload (t : Tag) (d : Word) : List Byte := leBytes (resLen t) d.toNat

/-- R7: `sext_8`. -/
def sext8 (v : Nat) : Word := (BitVec.ofNat 8 v).signExtend 32

/-- R7: `sext_16`. -/
def sext16 (v : Nat) : Word := (BitVec.ofNat 16 v).signExtend 32

/-- R89: the delta of a T.COM, T.S8, T.S16 or T.S32 record, from the number `v` its payload bytes spell. -/
def deltaOfPayload (common : Word) (v : Nat) : Tag → Word
  | .com => common
  | .s8 => sext8 v
  | .s16 => sext16 v
  | .s32 => BitVec.ofNat 32 v

/-- R89: the delta an element record carries under a common value. -/
def recDelta (common : Word) (r : Rec) : Word := deltaOfPayload common (unle r.payload) r.tag

/-- R10, R115: the worst-case stream length, 0 for N = 0. -/
def maxPrecodedSize (n : Nat) : Nat := if n = 0 then 0 else 4 + tagBytes n + 4 * n

/-- R115: `decompressionWorkspaceSize(N) = maxPrecodedSize(N)`. -/
def decompressionWorkspaceSize (n : Nat) : Nat := maxPrecodedSize n

end Sys2Proof.Machine
end

