-- ==== Sys2Proof/Machine/Ops.lean ====
section
/-! DEFINITION. The named operations over memory and registers: bytes of memory in canonical form, admission and the accesses
MemRead and MemWrite (spec/00_scope.md R9, spec/20_memory.md R56), unspecified bytes (spec/60_exceptions.md R237), the end
of a command with success or with a fault (R236) and reset (spec/70_reset_and_hazards.md R261, R262). There is no return
from a fault (R241): the next command simply runs. -/

namespace Sys2Proof.Machine

/-! ## Memory -/

/-- The byte at an address. -/
def Memory.read : Memory → Nat → Byte
  | [], _ => Memory.unlisted
  | (a', b) :: m, a => if a' = a then b else Memory.read m a

/-- Writes a byte, keeping the canonical form: a byte equal to what an unlisted address reads as is not listed. -/
def Memory.write : Memory → Nat → Byte → Memory
  | [], a, b => if b = Memory.unlisted then [] else [(a, b)]
  | (a', b') :: m, a, b =>
      if a = a' then (if b = Memory.unlisted then m else (a, b) :: m)
      else if a < a' then (if b = Memory.unlisted then (a', b') :: m else (a, b) :: (a', b') :: m)
      else (a', b') :: Memory.write m a b

/-- The addresses are strictly rising from `lo` and no listed byte is what an unlisted address reads as. -/
def Memory.wfFrom : Nat → Memory → Bool
  | _, [] => true
  | lo, (a, b) :: m => decide (lo ≤ a) && decide (b ≠ Memory.unlisted) && Memory.wfFrom (a + 1) m

/-- The canonical form. -/
def Memory.wf (m : Memory) : Bool := Memory.wfFrom 0 m

/-- The `n` bytes at `a, a+1, …`. -/
def Memory.readBytes (m : Memory) : Nat → Nat → List Byte
  | _, 0 => []
  | a, n + 1 => Memory.read m a :: Memory.readBytes m (a + 1) n

/-- Writes bytes at `a, a+1, …`, the first one first. -/
def Memory.writeBytes : Memory → Nat → List Byte → Memory
  | m, _, [] => m
  | m, a, b :: bs => Memory.writeBytes (Memory.write m a b) (a + 1) bs

/-- Element `i` of the word array at `base`, a little-endian word at `base + 4*i` (R55, R94). -/
def Memory.word (m : Memory) (base i : Nat) : Word := BitVec.ofNat 32 (unle (m.readBytes (base + 4 * i) 4))

/-- The `n` words of the word array at `base` (R94). -/
def Memory.words (m : Memory) (base n : Nat) : List Word := (List.range n).map (m.word base)

/-- Every byte of `a, …, a+n-1` takes an unspecified value, drawn from counter `k` on (R237, R262, U3). -/
def Memory.havoc : Memory → Nat → Nat → Nat → Memory
  | m, _, 0, _ => m
  | m, a, n + 1, k => Memory.havoc (Memory.write m a (Config.freeByte k)) (a + 1) n (k + 1)

/-! ## Admission and accesses -/

/-- `admits(a)` (R56). -/
def admits (p : Platform) (a : Nat) : Bool := p.admits.any (fun r => r.has a)

/-- The lowest address of `a, …, a+n-1` that the platform does not admit (R56). -/
def firstRefused (p : Platform) : Nat → Nat → Option Nat
  | _, 0 => none
  | a, n + 1 => if admits p a then firstRefused p (a + 1) n else some a

/-- `MemRead(addr, n)` (R9): the number the bytes spell, or the address of the AccessFault. -/
def memRead (p : Platform) (m : Memory) (addr n : Nat) : Except Nat Nat :=
  match firstRefused p addr n with
  | some a => .error a
  | none => .ok (unle (m.readBytes addr n))

/-- The buffer the host has declared as holding the stream at `src` (93 U1).
DESIGN CHOICE: it is the first region of the declaration that holds SRC; the declaration's other regions are buffers of other
streams (log 20). -/
def streamBuffer (p : Platform) (src : Nat) : Option Region := p.streams.find? (fun r => r.has src)

/-- Whether a byte belongs to the buffer the host has declared as holding the stream at `src` (93 U1). -/
def declared (p : Platform) (src a : Nat) : Bool :=
  match streamBuffer p src with
  | none => false
  | some r => r.has a

/-- The byte a DEC with its stream at `src` finds at an address: what memory holds in the stream's own buffer, any value
elsewhere (R198, 93 U1). -/
def seenByte (p : Platform) (m : Memory) (view src a : Nat) : Byte :=
  if declared p src a then m.read a else Config.foreignByte view a

/-- The `n` bytes such a DEC finds at `a, a+1, …`. -/
def seenBytes (p : Platform) (m : Memory) (view src : Nat) : Nat → Nat → List Byte
  | _, 0 => []
  | a, n + 1 => seenByte p m view src a :: seenBytes p m view src (a + 1) n

/-- `MemRead(addr, n)` of DEC: admission as for any access, the bytes as DEC finds them (R9, R198). -/
def streamRead (p : Platform) (m : Memory) (view src addr n : Nat) : Except Nat Nat :=
  match firstRefused p addr n with
  | some a => .error a
  | none => .ok (unle (seenBytes p m view src addr n))

/-- `MemWrite(addr, n, v)` (R9), the bytes given: the new memory, or the address of the AccessFault, and then no byte is
moved (R237). -/
def memWrite (p : Platform) (m : Memory) (addr : Nat) (bs : List Byte) : Except Nat Memory :=
  match firstRefused p addr bs.length with
  | some a => .error a
  | none => .ok (m.writeBytes addr bs)

/-! ## Registers -/

/-- A value as a register of AW bits holds it: the upper bits of the slot are ignored on write and read as zero (R21). -/
def truncAW (p : Platform) (v : Nat) : Slot := BitVec.ofNat 64 (v % 2 ^ p.aw)

/-- The register block of an instance: 64 bytes from its IDP_BASE (R21, R51). -/
def Inst.block (x : Inst) : Region := ⟨x.base, 64⟩

/-- The working values of the focused instance. -/
def State.setWork (s : State) (w : Work) : State := { s with inst := { s.inst with work := some w } }

/-! ## The end of a command -/

/-- A command ends with success: RESULT is its value, ERR is OK, DONE is 1, and the working values cease to exist (R26,
R27, R31). -/
def endOK (s : State) (m : Memory) (result : Nat) : State :=
  { s with mem := m, inst := { s.inst with result := BitVec.ofNat 64 result, status := statusWord codeOK, work := none } }

/-- The fault entry, the one operation that every fault of the block takes (R236): RESULT is 0, ERR is the code, DONE is 1,
CMD, SRC, DST and COUNT keep their values. -/
def endFault (s : State) (e : Err) : State :=
  { s with
    inst := { s.inst with result := 0, status := statusWord e.code, work := none }
    faultLog := e :: s.faultLog }

/-- The fault entry of ACCESS_FAULT (R236, R237): FADDR is the refused address, and the bytes of the output range
`[out, out + len)` hold unspecified values. -/
def endAccessFault (s : State) (addr out len : Nat) : State :=
  let t := endFault s .accessFault
  { t with
    inst := { t.inst with faddr := BitVec.ofNat 64 addr }
    mem := s.mem.havoc out len s.draws
    draws := s.draws + len }

/-! ## Reset -/

/-- The length of the output range of a running command (R237, R262). -/
def Work.outLen (w : Work) : Nat :=
  match w.pass with
  | .hist | .emit => maxPrecodedSize w.n
  | .header | .dec => 4 * w.n

/-- The registers of an instance after reset (R40). -/
def Inst.cleared (x : Inst) : Inst := Inst.atReset x.base

/-- Reset of the focused instance: the registers take their reset values and memory is unchanged (R261); a command that was
running is cut off, and the bytes of its output range hold unspecified values (R262). -/
def resetFocused (s : State) : State :=
  match s.inst.work with
  | none => { s with inst := s.inst.cleared }
  | some w =>
      { s with
        inst := s.inst.cleared
        mem := s.mem.havoc w.dst w.outLen s.draws
        draws := s.draws + w.outLen }

/-- Reset of an instance that is not the focused one: nothing else changes. -/
def resetOther (s : State) (base : Nat) : State :=
  { s with others := s.others.map (fun x => if x.base = base then x.cleared else x) }

end Sys2Proof.Machine
end

