-- ==== Sys2Proof/Machine/Command.lean ====
section
/-! DEFINITION. How ENC and DEC start: the ranges of a command (spec/20_memory.md R52), the checks in their order
(spec/60_exceptions.md R234, R235, R240), the refused ranges (spec/93_implementation_defined.md U8) and overlapping ranges
(U6), and the initial working values (spec/10_state.md R31). -/

namespace Sys2Proof.Machine

/-- The worst-case ranges of a command, the parts of them that every run touches, and the bounds of RESULT (R52, R141,
R267). -/
structure Ranges where
  inLen   : Nat
  outLen  : Nat
  sureIn  : Nat
  sureOut : Nat
  lo      : Nat
  hi      : Nat
deriving DecidableEq, Repr

/-- ENC reads `[S, S+4N)` and writes at least the header and the tag region of `[D, D+maxPrecodedSize(N))`. -/
def encRanges (n : Nat) : Ranges :=
  { inLen := 4 * n, outLen := maxPrecodedSize n, sureIn := 4 * n, sureOut := 4 + tagBytes n
    lo := 4 + tagBytes n, hi := maxPrecodedSize n }

/-- DEC reads at least the header and the tag region of `[S, S+maxPrecodedSize(N))` and writes `[D, D+4N)`; RESULT is N. -/
def decRanges (n : Nat) : Ranges :=
  { inLen := maxPrecodedSize n, outLen := 4 * n, sureIn := 4 + tagBytes n, sureOut := 4 * n, lo := n, hi := n }

/-- The regions no range of a command may meet: the register block of every instance and device memory (R60, R267). -/
def deviceRegions (s : State) : List Region := s.inst.block :: (s.others.map Inst.block ++ s.plat.devices)

/-- The region meets device memory or a register block. -/
def touchesDevice (s : State) (r : Region) : Bool := (deviceRegions s).any r.meets

/-- A refused address of `[base, base+len)`, searched from offset `j mod len` on and then from the start. -/
def someRefused (p : Platform) (base len j : Nat) : Option Nat :=
  (firstRefused p (base + j % len) (len - j % len)).or (firstRefused p base len)

/-- The address an overlapping command reports when it ends in ACCESS_FAULT: any refused address of its ranges, chosen by
the free values `j` and `k`. -/
def overlapFaddr (s : State) (r : Ranges) (j k : Nat) : Nat :=
  let inner := someRefused s.plat s.inst.src.toNat r.inLen k
  let outer := someRefused s.plat s.inst.dst.toNat r.outLen k
  (if j % 2 = 0 then inner.or outer else outer.or inner).getD 0

/-- U6: a command whose input and output ranges overlap. Every byte of the output range takes any value; RESULT is any
value the command can return; the command ends in ACCESS_FAULT if a byte it surely touches is refused, and may end in it if
another byte of its ranges is (log 8). -/
def overlapEnd (s : State) (r : Ranges) : State :=
  let k := s.draws
  let sure := (firstRefused s.plat s.inst.src.toNat r.sureIn).isSome || (firstRefused s.plat s.inst.dst.toNat r.sureOut).isSome
  let may := (firstRefused s.plat s.inst.src.toNat r.inLen).isSome || (firstRefused s.plat s.inst.dst.toNat r.outLen).isSome
  let t := { s with draws := k + 3 }
  if sure || (may && decide (Config.freeNat k % 2 = 1)) then
    endAccessFault t (overlapFaddr s r (Config.freeNat (k + 1)) (Config.freeNat (k + 2))) s.inst.dst.toNat r.outLen
  else
    endOK { t with draws := k + 3 + r.outLen } (s.mem.havoc s.inst.dst.toNat r.outLen (k + 3))
      (r.lo + Config.freeNat (k + 1) % (r.hi - r.lo + 1))

/-- The working values at the start of a command (R30, R31; log 14), `base` being the stream's address. -/
def Work.start (pass : Pass) (n src dst base view : Nat) : Work :=
  { pass := pass, n := n, src := src, dst := dst, prev := 0#32, acc := 0#32, common := 0#32, delta := 0#32, tag := .com,
    i := 0, tagByte := 0#8, resCur := base + 4 + tagBytes n, hist := [], view := view }

/-- A command has ended at its checks, or it runs. -/
inductive Start where
  | ended (o : Host.Outcome State Fault Refusal)
  | running (w : Work)

/-- The checks of ENC and DEC in the order of R240. N = 0 succeeds at once, SRC and DST not examined (R133, R193). -/
def startCodec (s : State) (r : Ranges) (w : Work) : Start :=
  if s.inst.count.toNat > s.plat.nmax then .ended (.next (endFault s .badCount))
  else if s.inst.count.toNat = 0 then .ended (.next (endOK s s.mem 0))
  else if s.inst.src.toNat + r.inLen > 2 ^ s.plat.aw ∨ s.inst.dst.toNat + r.outLen > 2 ^ s.plat.aw then
    .ended (.next (endFault s .badRange))
  else if touchesDevice s ⟨s.inst.src.toNat, r.inLen⟩ || touchesDevice s ⟨s.inst.dst.toNat, r.outLen⟩ then
    .ended (.refused .deviceRange)
  else if (Region.mk s.inst.src.toNat r.inLen).meets ⟨s.inst.dst.toNat, r.outLen⟩ then .ended (.next (overlapEnd s r))
  else .running w

/-- The start of ENC.S and ENC.U (R131). -/
def startEnc (s : State) : Start :=
  startCodec s (encRanges s.inst.count.toNat)
    (Work.start .hist s.inst.count.toNat s.inst.src.toNat s.inst.dst.toNat s.inst.dst.toNat s.draws)

/-- The start of DEC.S and DEC.U (R191). -/
def startDec (s : State) : Start :=
  startCodec s (decRanges s.inst.count.toNat)
    (Work.start .header s.inst.count.toNat s.inst.src.toNat s.inst.dst.toNat s.inst.src.toNat s.draws)

end Sys2Proof.Machine
end

