-- ==== Sys2Proof/Machine/Packer.lean ====
section
/-! DEFINITION. The residual tag and payload packer and the four element records T.COM, T.S8, T.S16, T.S32
(spec/42_tag_payload_packer.md): packing (R163 to R168), tag extraction (R169), execution (R170 to R173), and the
accumulation and store that end an element of DEC (spec/43_decode.md R196). A record is packed when the command is in the
emission pass and executed when it is in the decode pass. -/

namespace Sys2Proof.Machine

/-! ## Encode side -/

/-- R163: the tag goes into the lane of the current element. -/
def Work.addTag (w : Work) (t : Tag) : Work :=
  { w with tag := t, tagByte := insertTag w.tagByte t (w.i % 4) }

/-- R165 to R167: the payload bytes are stored at `resCur`, which moves past them. -/
def writePayload (p : Platform) (m : Memory) (w : Work) (bs : List Byte) : Except Nat (Memory × Work) :=
  match memWrite p m w.resCur bs with
  | .error a => .error a
  | .ok m' => .ok (m', { w with resCur := w.resCur + bs.length })

/-- R164: pack T.COM; nothing is written and `resCur` does not move. -/
def packCom (_p : Platform) (m : Memory) (w : Work) : Except Nat (Memory × Work) :=
  .ok (m, w.addTag .com)

/-- R165: pack T.S8; one byte, `delta[7:0]`. -/
def packS8 (p : Platform) (m : Memory) (w : Work) : Except Nat (Memory × Work) :=
  writePayload p m (w.addTag .s8) (payload .s8 w.delta)

/-- R166: pack T.S16; two bytes, `delta[15:0]`. -/
def packS16 (p : Platform) (m : Memory) (w : Work) : Except Nat (Memory × Work) :=
  writePayload p m (w.addTag .s16) (payload .s16 w.delta)

/-- R167: pack T.S32; four bytes, all of `delta`. -/
def packS32 (p : Platform) (m : Memory) (w : Work) : Except Nat (Memory × Work) :=
  writePayload p m (w.addTag .s32) (payload .s32 w.delta)

/-- The packing arm of a tag (R177: there is no fifth). -/
def packOf : Tag → Platform → Memory → Work → Except Nat (Memory × Work)
  | .com => packCom
  | .s8 => packS8
  | .s16 => packS16
  | .s32 => packS32

/-- R168: after the fourth element of a group, and after the last element, the tag byte is stored and cleared. Then the
element index moves on (R33). -/
def flushTag (p : Platform) (m : Memory) (w : Work) : Except Nat (Memory × Work) :=
  if w.i % 4 = 3 ∨ w.i + 1 = w.n then
    match memWrite p m (w.dst + 4 + w.i / 4) [w.tagByte] with
    | .error a => .error a
    | .ok m' => .ok (m', { w with tagByte := 0#8, i := w.i + 1 })
  else .ok (m, { w with i := w.i + 1 })

/-- What the emission pass does with an element once its tag is known (R131, R137). -/
def emitRecord (pack : Platform → Memory → Work → Except Nat (Memory × Work)) (p : Platform) (m : Memory) (w : Work) :
    Except Nat (Memory × Work) :=
  match pack p m w with
  | .error a => .error a
  | .ok (m', w') => flushTag p m' w'

/-! ## Decode side -/

/-- R169: the tag of the current element, from lane `i mod 4` of tag byte `i div 4`. -/
def fetchTag (p : Platform) (m : Memory) (w : Work) : Except Nat Work :=
  match streamRead p m w.view w.src (w.src + 4 + w.i / 4) 1 with
  | .error a => .error a
  | .ok v => .ok { w with tagByte := BitVec.ofNat 8 v, tag := Tag.ofCode (tagLane (BitVec.ofNat 8 v) (w.i % 4)) }

/-- R171 to R173: the payload of `k` bytes at `resCur`, which moves past it; `f` gives the delta. -/
def readPayload (p : Platform) (m : Memory) (w : Work) (k : Nat) (f : Nat → Word) : Except Nat Work :=
  match streamRead p m w.view w.src w.resCur k with
  | .error a => .error a
  | .ok v => .ok { w with delta := f v, resCur := w.resCur + k }

/-- R170: execute T.COM; no memory is read and `resCur` does not move. -/
def unpackCom (_p : Platform) (_m : Memory) (w : Work) : Except Nat Work :=
  .ok { w with tag := .com, delta := w.common }

/-- R171: execute T.S8. -/
def unpackS8 (p : Platform) (m : Memory) (w : Work) : Except Nat Work :=
  readPayload p m { w with tag := .s8 } 1 sext8

/-- R172: execute T.S16. -/
def unpackS16 (p : Platform) (m : Memory) (w : Work) : Except Nat Work :=
  readPayload p m { w with tag := .s16 } 2 sext16

/-- R173: execute T.S32; no extension is needed. -/
def unpackS32 (p : Platform) (m : Memory) (w : Work) : Except Nat Work :=
  readPayload p m { w with tag := .s32 } 4 (BitVec.ofNat 32)

/-- The executing arm of a tag (R177: there is no fifth). -/
def unpackOf : Tag → Platform → Memory → Work → Except Nat Work
  | .com => unpackCom
  | .s8 => unpackS8
  | .s16 => unpackS16
  | .s32 => unpackS32

/-- R196: the delta is added to the accumulator, which is stored as the element; then the element index moves on. -/
def accumulate (p : Platform) (m : Memory) (w : Work) : Except Nat (Memory × Work) :=
  match memWrite p m (w.dst + 4 * w.i) (leBytes 4 (accumulated w.acc w.delta).toNat) with
  | .error a => .error a
  | .ok m' => .ok (m', { w with acc := accumulated w.acc w.delta, i := w.i + 1 })

/-- What the decode pass does with an element once its tag is known (R191, R196). -/
def decRecord (unpack : Platform → Memory → Work → Except Nat Work) (p : Platform) (m : Memory) (w : Work) :
    Except Nat (Memory × Work) :=
  match unpack p m w with
  | .error a => .error a
  | .ok w' => accumulate p m w'

/-! ## The records as instructions -/

/-- An element of the running command has been handled, or one of its accesses was refused and the command ends in
ACCESS_FAULT (R237). -/
def afterRecord (s : State) (w : Work) : Except Nat (Memory × Work) → State
  | .error a => endAccessFault s a w.dst w.outLen
  | .ok (m', w') => ({ s with mem := m' }).setWork w'

/-- A record acts on the working values of the running command (R160): it is packed in the emission pass and executed in
the decode pass, while elements are left. -/
def execRecord (unpack : Platform → Memory → Work → Except Nat Work)
    (pack : Platform → Memory → Work → Except Nat (Memory × Work)) (s : State) : Host.Outcome State Fault Refusal :=
  match s.inst.work with
  | none => .refused .recordOutsidePass
  | some w =>
      if w.i < w.n then
        match w.pass with
        | .dec => .next (afterRecord s w (decRecord unpack s.plat s.mem w))
        | .emit => .next (afterRecord s w (emitRecord pack s.plat s.mem w))
        | .hist | .header => .refused .recordOutsidePass
      else .refused .recordOutsidePass

/-- T.COM (R164, R170). -/
def execTCom (s : State) : Host.Outcome State Fault Refusal := execRecord unpackCom packCom s

/-- T.S8 (R165, R171). -/
def execTS8 (s : State) : Host.Outcome State Fault Refusal := execRecord unpackS8 packS8 s

/-- T.S16 (R166, R172). -/
def execTS16 (s : State) : Host.Outcome State Fault Refusal := execRecord unpackS16 packS16 s

/-- T.S32 (R167, R173). -/
def execTS32 (s : State) : Host.Outcome State Fault Refusal := execRecord unpackS32 packS32 s

end Sys2Proof.Machine
end

