-- ==== Sys2Proof/Machine/DecodeCommand.lean ====
section
/-! DEFINITION. Pre-coder Decode: the commands DEC.S and DEC.U, in the reference order of accesses (spec/43_decode.md R191,
R192, spec/20_memory.md R67). -/

namespace Sys2Proof.Machine

/-- The header is read, the residual cursor and the accumulator are set (R194, R195). -/
def readHeader (p : Platform) (m : Memory) (w : Work) : Except Nat Work :=
  match streamRead p m w.view w.src w.src 4 with
  | .error a => .error a
  | .ok v =>
      .ok { w with
            pass := .dec
            common := BitVec.ofNat 32 v
            resCur := w.src + 4 + tagBytes w.n
            acc := 0#32
            i := 0 }

/-- One element of the decode pass (R196). -/
def decElem (p : Platform) (m : Memory) (w : Work) : Except Nat (Memory × Work) :=
  match fetchTag p m w with
  | .error a => .error a
  | .ok w' => decRecord (unpackOf w'.tag) p m w'

/-- `k` elements of the decode pass. -/
def decLoop (p : Platform) : Nat → Memory → Work → Except Nat (Memory × Work)
  | 0, m, w => .ok (m, w)
  | k + 1, m, w =>
      match decElem p m w with
      | .error a => .error a
      | .ok (m', w') => decLoop p k m' w'

/-- DEC ends with success: RESULT is N (R197). The next command finds other free values outside its stream's buffer. -/
def endDec (s : State) (m : Memory) (n : Nat) : State := endOK { s with draws := s.draws + 1 } m n

/-- The end of DEC: success, or ACCESS_FAULT with the output range unspecified (R237, R243; log 7). -/
def decEnd (s : State) (w : Work) : Except Nat (Memory × Work) → State
  | .error a => endAccessFault s a w.dst w.outLen
  | .ok (m', w') => endDec s m' w'.n

/-- DEC from its start to its end. -/
def decodeCommandRun (s : State) : Host.Outcome State Fault Refusal :=
  match startDec s with
  | .ended o => o
  | .running w =>
      match readHeader s.plat s.mem w with
      | .error a => .next (endAccessFault s a w.dst w.outLen)
      | .ok w' => .next (decEnd s w' (decLoop s.plat w'.n s.mem w'))

/-- DEC.S (R191). -/
def execDecS (s : State) : Host.Outcome State Fault Refusal := decodeCommandRun s

/-- DEC.U (R192): "everything else is rule R191 word for word"; the two stores are the same 32 bits (R112). -/
def execDecU (s : State) : Host.Outcome State Fault Refusal := decodeCommandRun s

end Sys2Proof.Machine
end

