-- ==== Sys2Proof/Machine/Histogram.lean ====
section
/-! DEFINITION. The histogram `H` (spec/10_state.md R35), its modes, and the choice of the common value by the parameter TIE
(spec/41_encode.md R134, R135). `H` is held as the list of its non-zero counts in rising signed order of the words, one
list for each map, so that a function of the list is a function of `H` alone. -/

namespace Sys2Proof.Machine

/-- `H[d] <- H[d] + 1` (R134). -/
def histBump : List (Word × Nat) → Word → List (Word × Nat)
  | [], d => [(d, 1)]
  | (v, c) :: h, d =>
      if d = v then (v, c + 1) :: h
      else if toSigned d < toSigned v then (d, 1) :: (v, c) :: h
      else (v, c) :: histBump h d

/-- `H[d]`, 0 for a word that is not listed (R35). -/
def histCount : List (Word × Nat) → Word → Nat
  | [], _ => 0
  | (v, c) :: h, d => if d = v then c else histCount h d

/-- The histogram of a list of deltas (R134). -/
def histOf (ds : List Word) : List (Word × Nat) := ds.foldl histBump []

/-- The largest count (R135). -/
def histTop (h : List (Word × Nat)) : Nat := h.foldr (fun e t => max e.2 t) 0

/-- The words that have the largest count: the modes (R135). -/
def histModes (h : List (Word × Nat)) : List Word := (h.filter (fun e => e.2 == histTop h)).map Prod.fst

/-- The word of a list whose signed reading is smallest (R5, R135: LOWEST). -/
def lowestSigned : List Word → Word
  | [] => 0#32
  | [v] => v
  | v :: vs => if toSigned v ≤ toSigned (lowestSigned vs) then v else lowestSigned vs

/-- `TIE(H)`: one of the modes, chosen by the parameter (R135, U2; log 6). -/
def tieChoice : TieRule → List (Word × Nat) → Word
  | .lowest, h => lowestSigned (histModes h)
  | .other k, h => (histModes h).getD (Config.tieIndex k h % (histModes h).length) 0#32

end Sys2Proof.Machine
end

