-- ==== Sys2Proof/Machine/Encode.lean ====
section
/-! DEFINITION. Pre-coder Encode: the commands ENC.S and ENC.U, in the reference order of accesses (spec/41_encode.md R131,
R132, spec/20_memory.md R67). -/

namespace Sys2Proof.Machine

/-- Element `i` of the input word array (R55, R131). -/
def readInput (p : Platform) (m : Memory) (w : Work) : Except Nat Word :=
  match memRead p m (w.src + 4 * w.i) 4 with
  | .error a => .error a
  | .ok v => .ok (BitVec.ofNat 32 v)

/-- One element of the histogram pass (R134). -/
def histElem (p : Platform) (m : Memory) (w : Work) : Except Nat Work :=
  match readInput p m w with
  | .error a => .error a
  | .ok cur =>
      .ok { w with
            delta := deltaOf w.prev cur
            hist := histBump w.hist (deltaOf w.prev cur)
            prev := cur
            i := w.i + 1 }

/-- The common value is chosen and written as the header, the residual cursor is set, and the emission pass begins (R135,
R136, R137). `H` is dead afterwards (R35). -/
def layout (p : Platform) (m : Memory) (w : Work) : Except Nat (Memory × Work) :=
  match memWrite p m w.dst (leBytes 4 (tieChoice p.tie w.hist).toNat) with
  | .error a => .error a
  | .ok m' =>
      .ok (m', { w with
                 pass := .emit
                 common := tieChoice p.tie w.hist
                 hist := []
                 resCur := w.dst + 4 + tagBytes w.n
                 prev := 0#32
                 tagByte := 0#8
                 i := 0 })

/-- The emission pass reads an element again and classifies its delta (R137, R161). -/
def fetchDelta (p : Platform) (m : Memory) (w : Work) : Except Nat Work :=
  match readInput p m w with
  | .error a => .error a
  | .ok cur =>
      .ok { w with
            delta := deltaOf w.prev cur
            prev := cur
            tag := classify w.common (deltaOf w.prev cur) }

/-- One element of the emission pass (R137). -/
def emitElem (p : Platform) (m : Memory) (w : Work) : Except Nat (Memory × Work) :=
  match fetchDelta p m w with
  | .error a => .error a
  | .ok w' => emitRecord (packOf w'.tag) p m w'

/-- `k` elements of the histogram pass. -/
def histLoop (p : Platform) (m : Memory) : Nat → Work → Except Nat Work
  | 0, w => .ok w
  | k + 1, w =>
      match histElem p m w with
      | .error a => .error a
      | .ok w' => histLoop p m k w'

/-- `k` elements of the emission pass. -/
def emitLoop (p : Platform) : Nat → Memory → Work → Except Nat (Memory × Work)
  | 0, m, w => .ok (m, w)
  | k + 1, m, w =>
      match emitElem p m w with
      | .error a => .error a
      | .ok (m', w') => emitLoop p k m' w'

/-- ENC after its checks: pass 1, the header, pass 2 (R131). -/
def encPasses (p : Platform) (m : Memory) (w : Work) : Except Nat (Memory × Work) :=
  match histLoop p m w.n w with
  | .error a => .error a
  | .ok w₁ =>
      match layout p m w₁ with
      | .error a => .error a
      | .ok (m₂, w₂) => emitLoop p w₂.n m₂ w₂

/-- The end of ENC: RESULT is `resCur - D` (R138), or ACCESS_FAULT (R146). -/
def encEnd (s : State) (w : Work) : Except Nat (Memory × Work) → State
  | .error a => endAccessFault s a w.dst w.outLen
  | .ok (m', w') => endOK s m' (w'.resCur - w'.dst)

/-- ENC from its start to its end. -/
def encodeCommand (s : State) : Host.Outcome State Fault Refusal :=
  match startEnc s with
  | .ended o => o
  | .running w => .next (encEnd s w (encPasses s.plat s.mem w))

/-- ENC.S (R131). -/
def execEncS (s : State) : Host.Outcome State Fault Refusal := encodeCommand s

/-- ENC.U (R132): "everything else is rule R131 word for word"; the U bit changes nothing (R82). -/
def execEncU (s : State) : Host.Outcome State Fault Refusal := encodeCommand s

end Sys2Proof.Machine
end

