-- ==== Sys2Proof/Machine/Sizing.lean ====
section
/-! DEFINITION. The sizing commands SZP and SZW (spec/40_bitcast_sizing.md R115 to R117). -/

namespace Sys2Proof.Machine

/-- R116, R117: a query of a size that depends on COUNT alone; BAD_COUNT above NMAX (R234). -/
def sizeQuery (size : Nat → Nat) (s : State) : Host.Outcome State Fault Refusal :=
  if s.inst.count.toNat > s.plat.nmax then .next (endFault s .badCount)
  else .next (endOK s s.mem (size s.inst.count.toNat))

/-- SZP (R116). -/
def execSzp (s : State) : Host.Outcome State Fault Refusal := sizeQuery maxPrecodedSize s

/-- SZW (R117). -/
def execSzw (s : State) : Host.Outcome State Fault Refusal := sizeQuery decompressionWorkspaceSize s

end Sys2Proof.Machine
end

