-- ==== Sys2Proof/Machine/Dispatch.lean ====
section
/-! DEFINITION. One arm per instruction, each one call of its meaning. -/

namespace Sys2Proof.Machine

def exec (i : Instr) (s : State) : Host.Outcome State Fault Refusal :=
  match i with
  | .encS => Sys2Proof.Machine.execEncS s
  | .encU => Sys2Proof.Machine.execEncU s
  | .decS => Sys2Proof.Machine.execDecS s
  | .decU => Sys2Proof.Machine.execDecU s
  | .szp => Sys2Proof.Machine.execSzp s
  | .szw => Sys2Proof.Machine.execSzw s
  | .tCom => Sys2Proof.Machine.execTCom s
  | .tS8 => Sys2Proof.Machine.execTS8 s
  | .tS16 => Sys2Proof.Machine.execTS16 s
  | .tS32 => Sys2Proof.Machine.execTS32 s

end Sys2Proof.Machine
end

