-- ==== Sys2Proof/Machine/Registers.lean ====
section
/-! DEFINITION. The host's accesses: registers by address (spec/10_state.md R21 to R29, spec/20_memory.md R61), which
instance an address belongs to (R39), and bytes of memory (R50). -/

namespace Sys2Proof.Machine

/-! ## Registers of one instance -/

/-- The number of the CMD register (R21). -/
def cmdSlot : Nat := 0

/-- What a host read of slot `k` returns; the slot the table does not name reads 0 (R21, R29). -/
def Inst.regRead (x : Inst) (k : Nat) : Slot :=
  if k = 0 then x.cmd.setWidth 64
  else if k = 1 then x.src
  else if k = 2 then x.dst
  else if k = 3 then x.count
  else if k = 4 then x.result
  else if k = 5 then x.status.setWidth 64
  else if k = 6 then x.faddr
  else 0#64

/-- What a host write of slot `k` stores; a write to RESULT, STATUS, FADDR or the unnamed slot is ignored, and so are the
bits above a register's width (R21, R22 to R25, R29). -/
def Inst.regWrite (p : Platform) (x : Inst) (k : Nat) (v : BitVec 64) : Inst :=
  if k = 0 then { x with cmd := v.setWidth 32 }
  else if k = 1 then { x with src := truncAW p v.toNat }
  else if k = 2 then { x with dst := truncAW p v.toNat }
  else if k = 3 then { x with count := truncAW p v.toNat }
  else x

/-! ## The instance an address belongs to -/

/-- Brings the first instance whose register block holds the address out of a list, `cur` taking its place. -/
def swapIn (cur : Inst) (addr : Nat) : List Inst → Option (Inst × List Inst)
  | [] => none
  | x :: xs =>
      if x.block.has addr then some (x, cur :: xs)
      else
        match swapIn cur addr xs with
        | none => none
        | some (y, ys) => some (y, x :: ys)

/-- The state with the instance in focus whose register block holds the address (R21, R39; log 12). -/
def focusOn (s : State) (addr : Nat) : Option State :=
  if s.inst.block.has addr then some s
  else
    match swapIn s.inst addr s.others with
    | none => none
    | some (x, xs) => some { s with inst := x, others := xs }

/-- The slot an offset in the register block names: register `k` stands at offset 8*k and each access is whole; the last
slot, which the table does not name, answers at every offset (R21, R29, R61). -/
def slotOf (off : Nat) : Option Nat :=
  if off % 8 = 0 then some (off / 8) else if 56 ≤ off then some 7 else none

/-- The instance and the slot of a register address, or why there is none. -/
def locate (s : State) (addr : Nat) : Except Refusal (State × Nat) :=
  match focusOn s addr with
  | none => .error (.notARegister addr)
  | some t =>
      match slotOf (addr - t.inst.base) with
      | none => .error (.partialAccess addr)
      | some k => .ok (t, k)

/-! ## Bytes, as the host accesses them -/

/-- What a byte address is to the host. -/
inductive ByteAt where
  | absent          -- at 2^AW or above (R50)
  | register        -- in a register, which is accessed whole (R21, R61)
  | unnamed         -- in the slot of a register block that has no register (R29)
  | device          -- in device memory (R60)
  | ordinary
deriving DecidableEq, Repr

/-- The kind of a byte address; a register block, which the block itself decodes, comes before device memory (R51). -/
def byteAt (s : State) (addr : Nat) : ByteAt :=
  if 2 ^ s.plat.aw ≤ addr then .absent
  else
    match (s.inst :: s.others).find? (fun x => x.block.has addr) with
    | some x => if 56 ≤ addr - x.base then .unnamed else .register
    | none => if s.plat.devices.any (fun r => r.has addr) then .device else .ordinary

/-- The host stores one byte. In the unnamed slot the write is ignored (R29); a store to a device leaves the machine as it is
(log 15). -/
def hostStore (s : State) (addr : Nat) (b : Byte) : Host.Outcome State Fault Refusal :=
  match byteAt s addr with
  | .absent => .fault (.noSuchAddress addr)
  | .register => .refused (.partialAccess addr)
  | .unnamed | .device => .next s
  | .ordinary => .next { s with mem := s.mem.write addr b }

/-- The host loads one byte. The unnamed slot reads 0 (R29); a device answers with any value (log 15). -/
def hostLoad (s : State) (addr : Nat) : Host.Outcome State Fault Refusal :=
  match byteAt s addr with
  | .absent => .fault (.noSuchAddress addr)
  | .register => .refused (.partialAccess addr)
  | .unnamed => .next { s with hostIn := 0 }
  | .device => .next { s with hostIn := (Config.freeByte s.draws).setWidth 64, draws := s.draws + 1 }
  | .ordinary => .next { s with hostIn := (s.mem.read addr).setWidth 64 }

end Sys2Proof.Machine
end

