-- ==== Sys2Proof/Machine/Sequencer.lean ====
section
/-! DEFINITION. The sequencing of commands: a write to CMD (spec/10_state.md R22), the elements of a running command (R33),
and the host's actions between commands. -/

namespace Sys2Proof.Machine

/-- A write to CMD stored the word; now the command it decodes to is executed to completion (R22), or the word is illegal
(R233). -/
def runCommand (s : State) : Host.Outcome State Fault Refusal :=
  match decodeCommand s.inst.cmd with
  | .ok i => exec i s
  | .error _ => .next (endFault s .illegalCmd)

/-- ENC or DEC, started but left to run element by element (log 11). -/
def beginStepped (s : State) : Start → Host.Outcome State Fault Refusal
  | .ended o => o
  | .running w => .next (s.setWork w)

/-- As `runCommand`, but a command that has elements is left running (log 11). -/
def startCommand (s : State) : Host.Outcome State Fault Refusal :=
  match decodeCommand s.inst.cmd with
  | .ok .encS | .ok .encU => beginStepped s (startEnc s)
  | .ok .decS | .ok .decU => beginStepped s (startDec s)
  | _ => runCommand s

/-- The state after a part of a command that changes only its working values, or its ACCESS_FAULT. -/
def afterPart (s : State) (w : Work) : Except Nat Work → State
  | .error a => endAccessFault s a w.dst w.outLen
  | .ok w' => s.setWork w'

/-- The next element's record is fetched and executed (R137, R169, R196). -/
def runElement (s : State) (w : Work) : Except Nat Work → Host.Outcome State Fault Refusal
  | .error a => .next (endAccessFault s a w.dst w.outLen)
  | .ok w' => exec (Instr.ofTag w'.tag) (s.setWork w')

/-- One part of a running command: an element of a pass, the layout between the passes of ENC, the header read of DEC, or
the end (R131, R191, R33). -/
def advance (s : State) (w : Work) : Host.Outcome State Fault Refusal :=
  match w.pass with
  | .hist =>
      if w.i < w.n then .next (afterPart s w (histElem s.plat s.mem w))
      else .next (afterRecord s w (layout s.plat s.mem w))
  | .emit =>
      if w.i < w.n then runElement s w (fetchDelta s.plat s.mem w)
      else .next (endOK s s.mem (w.resCur - w.dst))
  | .header =>
      .next (afterPart s w (readHeader s.plat s.mem w))
  | .dec =>
      if w.i < w.n then runElement s w (fetchTag s.plat s.mem w)
      else .next (endDec s s.mem w.n)

/-- A host write to the register at slot `k` of the focused instance (R22 to R25, R29). -/
def writeSlot (s : State) (k : Nat) (v : BitVec 64) : State := { s with inst := s.inst.regWrite s.plat k v }

/-- A register write; a write to CMD runs, or starts, its command. -/
def hostWrite (run : State → Host.Outcome State Fault Refusal) (s : State) (addr : Nat) (v : BitVec 64) :
    Host.Outcome State Fault Refusal :=
  match locate s addr with
  | .error r => .refused r
  | .ok (t, k) => if k = cmdSlot then run (writeSlot t k v) else .next (writeSlot t k v)

/-- A register read: no side effect on the block (R22, R29). -/
def hostRead (s : State) (addr : Nat) : Host.Outcome State Fault Refusal :=
  match locate s addr with
  | .error r => .refused r
  | .ok (t, k) => .next { t with hostIn := t.inst.regRead k }

/-- One action of the host, or of the world, while no command runs. -/
def hostStep (s : State) : HostAction → Host.Outcome State Fault Refusal
  | .regWrite addr v => hostWrite runCommand s addr v
  | .regWriteStepped addr v => hostWrite startCommand s addr v
  | .tick => .next s
  | .regRead addr => hostRead s addr
  | .store addr b => hostStore s addr b
  | .load addr => hostLoad s addr
  | .reset base => .next (if s.inst.base = base then resetFocused s else resetOther s base)
  | .setAdmits rs => .next { s with plat := { s.plat with admits := rs } }
  | .declare rs => .next { s with plat := { s.plat with streams := rs } }

/-- One step while a command runs: a `tick` lets it do one part, a reset of its instance cuts it off (R262), and any other
action waits until it has ended (R231), the command going on meanwhile. -/
def runningStep (s : State) (w : Work) : Host.Outcome State Fault Refusal :=
  match s.queue with
  | .tick :: q => advance { s with queue := q } w
  | .reset base :: q =>
      .next (if s.inst.base = base then resetFocused { s with queue := q } else resetOther { s with queue := q } base)
  | _ => advance s w

/-- One step while no command runs: the host's next action, or nothing. -/
def idleStep (s : State) : Host.Outcome State Fault Refusal :=
  match s.queue with
  | [] => .next s
  | a :: q => hostStep { s with queue := q } a

end Sys2Proof.Machine
end

