-- ==== Sys2Proof/Machine/Step.lean ====
section
/-! DEFINITION. One step of the machine, and where an instruction is placed so that the next step runs it (log 10). -/

namespace Sys2Proof.Machine

/-- One step: of the running command if there is one (log 11), of the host otherwise. -/
def step (s : State) : Host.Outcome State Fault Refusal :=
  match s.inst.work with
  | some w => runningStep s w
  | none => idleStep s

/-- A command word `w`: the host's next action is its write to CMD of the focused instance. A tag: the focused instance is
in the decode pass of a stream of one element that stands at address 0, with the tag in its tag byte and a payload of
zeros, the output word at address 16, the bytes of the record admitted, and the stream's nine bytes declared
as its buffer (log 10). -/
def State.withFetchWord (s : State) (nbits w : Nat) : State :=
  if nbits ≤ 8 then
    { s with
      inst := { s.inst with work := some (Work.start .dec 1 0 16 0 s.draws) }
      mem := s.mem.writeBytes 4 (BitVec.ofNat 8 w :: leBytes 4 0)
      plat := { s.plat with admits := ⟨4, 5⟩ :: s.plat.admits, streams := ⟨0, 9⟩ :: s.plat.streams }
      queue := [] }
  else
    { s with
      inst := { s.inst with work := none }
      queue := .regWrite s.inst.base (BitVec.ofNat 64 w) :: s.queue }

end Sys2Proof.Machine
end

