-- ==== Sys2Proof/Machine/Stream.lean ====
section
/-! DEFINITION. The two pure functions: `encode` (spec/41_encode.md R130) and `decode` (spec/43_decode.md R190). The commands
do not call them; that a command's effect on memory is theirs (spec/20_memory.md R68) is stated, not assumed. -/

namespace Sys2Proof.Machine

/-- The record of a delta under a common value (R161, R162). -/
def recordOf (common d : Word) : Rec := ⟨classify common d, payload (classify common d) d⟩

/-- The stream of a list of deltas under a common value; empty for the empty list (R83, R84). -/
def streamOf (common : Word) (ds : List Word) : Stream :=
  if ds = [] then ⟨none, []⟩ else ⟨some common, ds.map (recordOf common)⟩

/-- The common value of a list of words (R130, R135). -/
def commonOf (tie : TieRule) (xs : List Word) : Word := tieChoice tie (histOf (deltas xs))

/-- `encode(xs)` (R130). -/
def encodeList (tie : TieRule) (xs : List Word) : List Byte := emitStream (streamOf (commonOf tie xs) (deltas xs))

/-- The words a stream stands for: the running sums of its deltas (R190). -/
def streamWords (st : Stream) : List Word :=
  match st.header with
  | none => []
  | some c => sumsFrom 0#32 (st.recs.map (recDelta c))

/-- `decode(N, s)`, defined when `s` has as many bytes as its tags dictate (R190). -/
def decodeList (n : Nat) (s : List Byte) : Option (List Word) :=
  match parseStream n s with
  | .ok (st, _) => some (streamWords st)
  | .error _ => none

end Sys2Proof.Machine
end

