-- ==== Sys2Proof/Machine/Wrapper.lean ====
section
/-! DEFINITION. The host software around the block (spec/44_host_wrapper.md): the six operations of the public surface as
sequences of host actions (R214 to R219), over an external compressor of which only R211 to R213 are assumed (R210). It is
no part of the block (spec/00_scope.md R4); it drives `step` as any host does, while no command runs.
DESIGN CHOICE: no operation reads STATUS, which R214 to R219 have no step for; where its command ends in a fault it goes on
with the RESULT that the fault left, 0 (log 24).
DESIGN CHOICE: what a buffer holds that the host allocates or has released is not given; neither changes memory (log 26). -/

namespace Sys2Proof.Machine

/-- FC_BOUND, FC_COMPRESS, FC_DECOMPRESS: three uninterpreted host functions (R210). `decompress bytes cap` is `none` on
failure. -/
structure FastCompressor where
  bound      : Nat → Nat
  compress   : List Byte → List Byte
  decompress : List Byte → Nat → Option (List Byte)

/-- R211, R212, R213, and nothing else (R210): the bound is no smaller than its argument; compression stays within it; it is
lossless; a successful decompression has the original length, whatever the capacity. -/
def FastCompressor.Lawful (fc : FastCompressor) : Prop :=
  (∀ n, n ≤ fc.bound n) ∧ (∀ b, (fc.compress b).length ≤ fc.bound b.length) ∧
  (∀ b cap, b.length ≤ cap → fc.decompress (fc.compress b) cap = some b) ∧
  (∀ b cap bs, fc.decompress (fc.compress b) cap = some bs → bs.length = b.length)

/-- The named assumption of R222 and spec/91_not_in_source.md N14: the bound is monotone. R211 to R213 do not give it. -/
def FastCompressor.Monotone (fc : FastCompressor) : Prop := ∀ a b, a ≤ b → fc.bound a ≤ fc.bound b

/-- A named assumption of the model, of which the spec says nothing (log 21): no decompression gives more bytes than the
capacity of the buffer it writes them to. R211 to R213 do not give it. -/
def FastCompressor.WithinCapacity (fc : FastCompressor) : Prop :=
  ∀ c cap bs, fc.decompress c cap = some bs → bs.length ≤ cap

/-- What follows an outcome, if it is a next state. -/
def andThen {α : Type} (o : Host.Outcome State Fault Refusal) (f : State → Host.Outcome α Fault Refusal) :
    Host.Outcome α Fault Refusal :=
  match o with
  | .next s => f s
  | .fault r => .fault r
  | .refused r => .refused r

/-- The host does these actions one after the other. -/
def perform : List HostAction → State → Host.Outcome State Fault Refusal
  | [], s => .next s
  | a :: as, s => andThen (step { s with queue := a :: s.queue }) (perform as)

/-- `MNEMONIC src, dst, n` (R99, R263): the operand registers are written, then the command word. -/
def issue (word : Word) (src dst n : Nat) (s : State) : Host.Outcome State Fault Refusal :=
  perform
    [.regWrite (s.inst.base + 8) (BitVec.ofNat 64 src), .regWrite (s.inst.base + 16) (BitVec.ofNat 64 dst),
     .regWrite (s.inst.base + 24) (BitVec.ofNat 64 n), .regWrite s.inst.base (word.setWidth 64)] s

/-- `SZP n` or `SZW n` (R99): COUNT and the command word. -/
def issueSize (word : Word) (n : Nat) (s : State) : Host.Outcome State Fault Refusal :=
  perform [.regWrite (s.inst.base + 24) (BitVec.ofNat 64 n), .regWrite s.inst.base (word.setWidth 64)] s

/-- R214. DESIGN CHOICE: FC_BOUND(0) where SZP ends in BAD_COUNT (log 24). -/
def getCompressedBufferSize (fc : FastCompressor) (n : Nat) (s : State) : Host.Outcome (State × Nat) Fault Refusal :=
  andThen (issueSize 0x00000003#32 n s) fun t => .next (t, fc.bound t.inst.result.toNat)

/-- R215. DESIGN CHOICE: 0 where SZW ends in BAD_COUNT (log 24). -/
def getDecompressionWorkingSpaceSize (n : Nat) (s : State) : Host.Outcome (State × Nat) Fault Refusal :=
  andThen (issueSize 0x00000004#32 n s) fun t => .next (t, t.inst.result.toNat)

/-- R216, R217: `word` is the command word of ENC.S or ENC.U, `scratch` the address the host's allocator gives.
DESIGN CHOICE: the allocation and the release of the scratch, (1) and (4), change no memory (log 26), so the stream stays
in it; where ENC ends in a fault, FC_COMPRESS of no bytes goes to `out` (log 24). -/
def compressToBuffer (word : Word) (fc : FastCompressor) (list n out scratch : Nat) (s : State) :
    Host.Outcome (State × Nat) Fault Refusal :=
  andThen (issue word list scratch n s) fun t =>
    let c := fc.compress (t.mem.readBytes scratch t.inst.result.toNat)
    .next ({ t with mem := t.mem.writeBytes out c }, c.length)

/-- R216. -/
def compressSigned := compressToBuffer 0x00000001#32

/-- R217. -/
def compressUnsigned := compressToBuffer 0x00000011#32

/-- R218 (1): the caller's working buffer, an address and a capacity, or one of the size R115 gives at the address the
host's allocator gives.
DESIGN CHOICE: workspaceCap of R218 (2) is, for a buffer of the caller, the capacity the caller gives with it, and that it is
at least decompressionWorkspaceSize(N) is not checked (log 27). -/
def workspaceOf (given : Option (Nat × Nat)) (alloc n : Nat) : Nat × Nat :=
  given.getD (alloc, decompressionWorkspaceSize n)

/-- R218 (4), (5): the decoder runs on the first bytes of the workspace, which the host declares to be the stream for this
command (R221, 93 U1; log 20), and the operation returns RESULT.
DESIGN CHOICE: the release of an allocated workspace changes no memory (log 26), so the stream stays in it. -/
def decodeWorkspace (word : Word) (ws size out n : Nat) (s : State) : Host.Outcome (State × Nat) Fault Refusal :=
  andThen (perform [.declare [⟨ws, size⟩]] s) fun s₁ =>
    andThen (issue word ws out n s₁) fun s₂ =>
      andThen (perform [.declare s.plat.streams] s₂) fun t => .next (t, t.inst.result.toNat)

/-- R218, R219, R220: `word` is the command word of DEC.S or DEC.U; a decompressor that returns 0 bytes, for whatever
reason, makes the operation return 0 with no command issued.
DESIGN CHOICE: the allocation of a workspace, and its release on each of the three ways out, change no memory (log 26); a
decompressor that fails leaves the workspace with unspecified bytes (log 25); where DEC ends in a fault
the operation returns 0 (log 24). -/
def decompressFromBuffer (word : Word) (fc : FastCompressor) (src size out n : Nat) (given : Option (Nat × Nat))
    (alloc : Nat) (s : State) : Host.Outcome (State × Nat) Fault Refusal :=
  match fc.decompress (s.mem.readBytes src size) (workspaceOf given alloc n).2 with
  | none =>
      .next ({ s with
        mem := s.mem.havoc (workspaceOf given alloc n).1 (workspaceOf given alloc n).2 s.draws
        draws := s.draws + (workspaceOf given alloc n).2 }, 0)
  | some [] => .next (s, 0)
  | some bs =>
      decodeWorkspace word (workspaceOf given alloc n).1 bs.length out n
        { s with mem := s.mem.writeBytes (workspaceOf given alloc n).1 bs }

/-- R218. -/
def decompressSigned := decompressFromBuffer 0x00000002#32

/-- R219. -/
def decompressUnsigned := decompressFromBuffer 0x00000012#32

end Sys2Proof.Machine
end

