-- ==== Sys2Proof/WellFormed.lean ====
section
/-! DEFINITION. The checks on syntax and on parameters: instructions, element records, streams (spec/30_encoding.md R83,
R84, R88) and the platform's parameters (spec/00_scope.md R5). -/

namespace Sys2Proof

/-- No instruction carries an operand that could be out of range: all 32 bits of a command word are matched (R80) and a tag
is all of a record's opcode (R88). -/
def Instr.wellFormed : Instr → Bool
  | .encS | .encU | .decS | .decU | .szp | .szw => true
  | .tCom | .tS8 | .tS16 | .tS32 => true

/-- The payload has the length the tag calls for (R88, R90). -/
def Rec.wellFormed (r : Rec) : Bool := decide (r.payload.length = resLen r.tag)

/-- The common value is "omitted iff N == 0" (R84) and every record has its payload (R88). -/
def Stream.wellFormed (st : Stream) : Bool := (st.header.isSome == !st.recs.isEmpty) && st.recs.all Rec.wellFormed

/-- The constraints of R5 on the parameters: 32 <= AW <= 64 and maxPrecodedSize(NMAX) < 2^AW. -/
def Platform.wellFormed (p : Platform) : Bool :=
  decide (32 ≤ p.aw) && decide (p.aw ≤ 64) && decide (4 + tagBytes p.nmax + 4 * p.nmax < 2 ^ p.aw)

end Sys2Proof
end

