-- ==== Sys2Proof/Safety.lean ====
section
/-! DEFINITION. What claims say of states: the invariants every step keeps, the conditions under which ENC and DEC run
normally (the host's duties of spec/70_reset_and_hazards.md R264, R267), and the ranges a command may write. -/

namespace Sys2Proof.Machine

/-! ## Invariants -/

/-- The working values of a running command stay within its ranges: the cursor law as a bound (R176, R58), the index at
most N (R33), N at most NMAX (R234). -/
def Work.inBounds (p : Platform) (w : Work) : Bool :=
  decide (0 < w.n) && decide (w.n ≤ p.nmax) && decide (w.i ≤ w.n) &&
  (match w.pass with
   | .hist =>
      decide (w.src + 4 * w.n ≤ 2 ^ p.aw) && decide (w.dst + maxPrecodedSize w.n ≤ 2 ^ p.aw)
   | .emit =>
      decide (w.src + 4 * w.n ≤ 2 ^ p.aw) && decide (w.dst + maxPrecodedSize w.n ≤ 2 ^ p.aw) &&
      decide (w.dst + 4 + tagBytes w.n ≤ w.resCur) && decide (w.resCur ≤ w.dst + 4 + tagBytes w.n + 4 * w.i)
   | .header =>
      decide (w.src + maxPrecodedSize w.n ≤ 2 ^ p.aw) && decide (w.dst + 4 * w.n ≤ 2 ^ p.aw)
   | .dec =>
      decide (w.src + maxPrecodedSize w.n ≤ 2 ^ p.aw) && decide (w.dst + 4 * w.n ≤ 2 ^ p.aw) &&
      decide (w.src + 4 + tagBytes w.n ≤ w.resCur) && decide (w.resCur ≤ w.src + 4 + tagBytes w.n + 4 * w.i))

/-- The registers of an instance fit their widths (R21), and a running command stays within its ranges. -/
def Inst.fits (p : Platform) (x : Inst) : Bool :=
  decide (x.src.toNat < 2 ^ p.aw) && decide (x.dst.toNat < 2 ^ p.aw) && decide (x.count.toNat < 2 ^ p.aw) &&
  decide (x.result.toNat < 2 ^ p.aw) && decide (x.faddr.toNat < 2 ^ p.aw) &&
  (match x.work with
   | none => true
   | some w => w.inBounds p)

/-- Every instance of the machine. -/
def State.instances (s : State) : List Inst := s.inst :: s.others

/-- The parameters meet their constraints (R5), every instance fits them, and only the focused one runs a command (log 12). -/
def State.fits (s : State) : Bool :=
  s.plat.wellFormed && s.instances.all (Inst.fits s.plat) && s.others.all (fun x => x.work.isNone)

/-- STATUS of every instance is a value the spec lets it hold (R27, R239). -/
def State.statusesLegal (s : State) : Bool := s.instances.all (fun x => statusLegal x.status)

/-! ## The output range of an instruction -/

/-- Whether the address lies in `[base, base + len)`. -/
def within (base len a : Nat) : Bool := (Region.mk base len).has a

/-- The bytes a command may leave changed, whatever its outcome (R52, R237); nothing for the sizing commands. The records
write in the output range of the running command. -/
def mayWrite (i : Instr) (s : State) (a : Nat) : Bool :=
  match i with
  | .encS | .encU => within s.inst.dst.toNat (maxPrecodedSize s.inst.count.toNat) a
  | .decS | .decU => within s.inst.dst.toNat (4 * s.inst.count.toNat) a
  | .szp | .szw => false
  | .tCom | .tS8 | .tS16 | .tS32 =>
      match s.inst.work with
      | none => false
      | some w => within w.dst w.outLen a

/-- The six host commands (R80). -/
def isCommand (i : Instr) : Bool := decide (i.bits = 32)

/-- The four commands with operands in memory. -/
def isCodec (i : Instr) : Bool :=
  match i with
  | .encS | .encU | .decS | .decU => true
  | .szp | .szw | .tCom | .tS8 | .tS16 | .tS32 => false

/-- The worst-case ranges of ENC and DEC (R52, R267). -/
def rangesOf (i : Instr) (n : Nat) : Ranges :=
  match i with
  | .encS | .encU => encRanges n
  | .decS | .decU | .szp | .szw | .tCom | .tS8 | .tS16 | .tS32 => decRanges n

/-! ## When ENC and DEC run normally -/

/-- Every byte of `[base, base + len)` is admitted (R56). -/
def allAdmitted (p : Platform) (base len : Nat) : Prop := ∀ a, base ≤ a → a < base + len → admits p a = true

/-- The operands pass the checks: 0 < N <= NMAX (R234) and both ranges end in the address space (R235). -/
def OperandsLegal (i : Instr) (s : State) : Prop :=
  0 < s.inst.count.toNat ∧ s.inst.count.toNat ≤ s.plat.nmax ∧
  s.inst.src.toNat + (rangesOf i s.inst.count.toNat).inLen ≤ 2 ^ s.plat.aw ∧
  s.inst.dst.toNat + (rangesOf i s.inst.count.toNat).outLen ≤ 2 ^ s.plat.aw

/-- The ranges are ordinary memory: they meet no device memory and no register block (R60, R267, U8). -/
def RangesOrdinary (i : Instr) (s : State) : Prop :=
  touchesDevice s ⟨s.inst.src.toNat, (rangesOf i s.inst.count.toNat).inLen⟩ = false ∧
  touchesDevice s ⟨s.inst.dst.toNat, (rangesOf i s.inst.count.toNat).outLen⟩ = false

/-- The ranges are disjoint (R267). -/
def RangesDisjoint (i : Instr) (s : State) : Prop :=
  (Region.mk s.inst.src.toNat (rangesOf i s.inst.count.toNat).inLen).meets
    ⟨s.inst.dst.toNat, (rangesOf i s.inst.count.toNat).outLen⟩ = false

/-- The platform admits both ranges in full (R264). -/
def RangesAdmitted (i : Instr) (s : State) : Prop :=
  allAdmitted s.plat s.inst.src.toNat (rangesOf i s.inst.count.toNat).inLen ∧
  allAdmitted s.plat s.inst.dst.toNat (rangesOf i s.inst.count.toNat).outLen

/-- The state when the host has issued `MNEMONIC src, dst, n` (R99) and the command is about to run. -/
def State.withOperands (s : State) (word : Word) (src dst n : Nat) : State :=
  { s with
    inst := { s.inst with
      cmd := word, src := BitVec.ofNat 64 src, dst := BitVec.ofNat 64 dst, count := BitVec.ofNat 64 n } }

/-- The state when the host has declared the buffers that hold its streams (93 U1; log 20). -/
def State.declaring (s : State) (rs : List Region) : State := { s with plat := { s.plat with streams := rs } }

/-- Every byte of `[base, base + len)` belongs to the buffer declared as holding the stream at `base` (93 U1). -/
def allDeclared (p : Platform) (base len : Nat) : Prop := ∀ a, base ≤ a → a < base + len → declared p base a = true

/-- A byte of `[base, base + len)` is refused (R56). -/
def someByteRefused (p : Platform) (base len : Nat) : Prop := ∃ a, base ≤ a ∧ a < base + len ∧ admits p a = false

/-- The host has done its duties: the checks pass, the ranges are ordinary and disjoint (R267), and the platform admits the
bytes the command reads and writes, the first `inLen` bytes from SRC and the first `outLen` from DST (R52, R264, R269). -/
def Runnable (i : Instr) (s : State) (inLen outLen : Nat) : Prop :=
  OperandsLegal i s ∧ RangesOrdinary i s ∧ RangesDisjoint i s ∧
  allAdmitted s.plat s.inst.src.toNat inLen ∧ allAdmitted s.plat s.inst.dst.toNat outLen

/-- The registers and memory bytes that the outcome of a command may depend on are the same in two states (R32); for the
model also the parameters, the place of the register blocks and the counter of free values. -/
def SameInputs (s t : State) : Prop :=
  s.mem = t.mem ∧ s.plat = t.plat ∧ s.draws = t.draws ∧ s.inst.src = t.inst.src ∧ s.inst.dst = t.inst.dst ∧
  s.inst.count = t.inst.count ∧ deviceRegions s = deviceRegions t

/-! ## Frames -/

/-- Everything a command and a record leave alone (R30, R39): the registers the host wrote, the other instances, the
parameters, the host's pending actions and what it last read. -/
def HostSideKept (s t : State) : Prop :=
  t.inst.base = s.inst.base ∧ t.inst.cmd = s.inst.cmd ∧ t.inst.src = s.inst.src ∧ t.inst.dst = s.inst.dst ∧
  t.inst.count = s.inst.count ∧ t.others = s.others ∧ t.plat = s.plat ∧ t.queue = s.queue ∧ t.hostIn = s.hostIn

/-- A command ended with success and the given RESULT (R26, R27), FADDR kept (R28). -/
def EndedOK (s t : State) (result : Nat) : Prop :=
  t.inst.result.toNat = result ∧ t.inst.status = 0x00000001#32 ∧ t.inst.faddr = s.inst.faddr ∧ t.inst.work = none ∧
  s.draws ≤ t.draws ∧ t.faultLog = s.faultLog ∧ HostSideKept s t

/-- A command ended with a fault that records no address and touches no memory (R236): the whole next state. -/
def EndedFault (s t : State) (e : Err) (status : BitVec 32) : Prop :=
  t = { s with inst := { s.inst with result := 0#64, status := status, work := none }, faultLog := e :: s.faultLog }

/-- A command ended in ACCESS_FAULT (R236, R237): RESULT is 0, FADDR is a refused byte among those the predicate holds of, and
the fault is on record. -/
def EndedAccessFault (s t : State) (touched : Nat → Bool) : Prop :=
  t.inst.result = 0#64 ∧ t.inst.status = 0x00000021#32 ∧ t.inst.work = none ∧ t.faultLog = .accessFault :: s.faultLog ∧
  HostSideKept s t ∧ ∃ a, touched a = true ∧ admits s.plat a = false ∧ t.inst.faddr = BitVec.ofNat 64 a

/-- `u` is `s` with that one of its other instances in focus whose register block holds the address, in exchange for the
instance that was (R39; log 12). -/
def BroughtIntoFocus (s u : State) (addr : Nat) : Prop :=
  ∃ xs y ys, s.others = xs ++ y :: ys ∧ (∀ x ∈ s.inst :: xs, x.block.has addr = false) ∧ y.block.has addr = true ∧
    u = { s with inst := y, others := xs ++ s.inst :: ys }

/-- No command is running. -/
def Idle (s : State) : Prop := s.inst.work = none

/-- What another agent could measure the progress of a running command by: the parts that are left, the end included
(R249, R276). -/
def Work.left (w : Work) : Nat :=
  match w.pass with
  | .hist => (w.n - w.i) + 1 + w.n + 1
  | .emit => (w.n - w.i) + 1
  | .header => w.n + 2
  | .dec => (w.n - w.i) + 1

end Sys2Proof.Machine
end

