-- ==== Sys2Proof/Certificates/Slice0/Obligations.lean ====
section
/-! DEFINITION. The statements for the provers. Each docstring names the rules of spec/ it formalises. -/

open Sys2Proof Sys2Proof.Machine

/-! ## Encodings -/

/-- R80: "answers one of the six mnemonics or illegal". -/
def Obligations.CommandWordsDecodeExactly : Prop :=
  decodeCommand 0x00000001#32 = .ok .encS ∧ decodeCommand 0x00000011#32 = .ok .encU ∧
  decodeCommand 0x00000002#32 = .ok .decS ∧ decodeCommand 0x00000012#32 = .ok .decU ∧
  decodeCommand 0x00000003#32 = .ok .szp ∧ decodeCommand 0x00000004#32 = .ok .szw ∧
  ∀ w : Word, w ≠ 0x00000001#32 → w ≠ 0x00000011#32 → w ≠ 0x00000002#32 → w ≠ 0x00000012#32 →
    w ≠ 0x00000003#32 → w ≠ 0x00000004#32 → decodeCommand w = .error (.illegalCommand w)

/-- R86, R87, R88: lane `j` of a tag byte is its bits 2j+1 : 2j, read as a number, and the number selects the record. -/
def Obligations.TagLaneSelectsRecord : Prop :=
  ∀ (b : Byte) (rest : List Byte) (j : Nat), j < 4 →
    decodeBytes (.lane j) (b :: rest) =
      .ok (if b.toNat / 4 ^ j % 4 = 0 then Instr.tCom
           else if b.toNat / 4 ^ j % 4 = 1 then Instr.tS8
           else if b.toNat / 4 ^ j % 4 = 2 then Instr.tS16
           else Instr.tS32, rest)

/-- R80, R88: every instruction decodes from its encoding, a record from every lane. -/
def Obligations.InstructionsDecodeBack : Prop :=
  ∀ (i : Instr) (j : Nat) (rest : List Byte), i.wellFormed = true → j < 4 →
    decodeBytes (i.place j) (encodeBytes i j ++ rest) = .ok (i, rest)

/-- R83 to R91: a well-formed stream parses back from its bytes, whatever stands after them, with every header, tag and
payload. -/
def Obligations.StreamParsesBack : Prop :=
  ∀ (st : Stream) (rest : List Byte), st.wellFormed = true →
    parseStream st.recs.length (emitStream st ++ rest) = .ok (st, rest)

/-- R97 (e): bytes after the end of the residual region are never looked at. -/
def Obligations.ParsingStopsAtLastPayload : Prop :=
  ∀ (n : Nat) (bs rest extra : List Byte) (st : Stream), parseStream n bs = .ok (st, rest) →
    parseStream n (bs ++ extra) = .ok (st, rest ++ extra)

/-- R97 (a): the padding bits of the last tag byte are not looked at. The tag region differs at most in lanes of elements
that do not exist. -/
def Obligations.PaddingLanesIgnored : Prop :=
  ∀ (n : Nat) (region region' : List Byte),
    (∀ i, i < n → (region.getD (i / 4) 0#8).toNat / 4 ^ (i % 4) % 4 = (region'.getD (i / 4) 0#8).toNat / 4 ^ (i % 4) % 4) →
    unpackTags n region = unpackTags n region'

/-- R200: every byte sequence of at least maxPrecodedSize(N) bytes is a stream of N elements and decodes to N words. -/
def Obligations.DecoderIsTotal : Prop :=
  ∀ (n : Nat) (bs : List Byte), 0 < n → 4 + tagBytes n + 4 * n ≤ bs.length →
    ∃ ws, decodeList n bs = some ws ∧ ws.length = n

/-! ## Arithmetic and classification -/

/-- R110, R111, R112: BitCast is a bijection between words and the integers from -2^31 to 2^31 - 1. -/
def Obligations.BitCastIsBijection : Prop :=
  (∀ u : Word, toUnsigned (toSigned u) = u ∧ -2147483648 ≤ toSigned u ∧ toSigned u ≤ 2147483647) ∧
  ∀ z : Int, -2147483648 ≤ z → z ≤ 2147483647 → toSigned (toUnsigned z) = z

/-- R113: both operations wrap modulo 2^32, the signed reading of the operands does not reach the result, and addition undoes
subtraction. -/
def Obligations.WrappingDeltaRestores : Prop :=
  ∀ prev cur : Word,
    (deltaOf prev cur).toNat = (cur.toNat + 2 ^ 32 - prev.toNat) % 2 ^ 32 ∧
    (accumulated prev cur).toNat = (prev.toNat + cur.toNat) % 2 ^ 32 ∧
    deltaOf prev cur = toUnsigned (toSigned cur - toSigned prev) ∧
    accumulated prev (deltaOf prev cur) = cur

/-- R114: the range tests are signed comparisons; each says that the high bits are all equal, and that sign extension of the
low bytes gives the delta. -/
def Obligations.RangeTestsAreSignExtension : Prop :=
  ∀ d : Word,
    (fits8 d = true ↔ -128 ≤ d.toInt ∧ d.toInt ≤ 127) ∧
    (fits8 d = true ↔ d >>> 7 = 0#32 ∨ d >>> 7 = 0x1FFFFFF#32) ∧
    (fits8 d = true ↔ sext8 (d.toNat % 256) = d) ∧
    (fits16 d = true ↔ -32768 ≤ d.toInt ∧ d.toInt ≤ 32767) ∧
    (fits16 d = true ↔ d >>> 15 = 0#32 ∨ d >>> 15 = 0x1FFFF#32) ∧
    (fits16 d = true ↔ sext16 (d.toNat % 65536) = d) ∧
    (fits8 d = true → fits16 d = true)

/-- R161: the narrowest category after the test for the common value. -/
def Obligations.ClassifyTakesNarrowest : Prop :=
  ∀ common d : Word,
    (classify common d = .com ↔ d = common) ∧
    (classify common d = .s8 ↔ d ≠ common ∧ -128 ≤ d.toInt ∧ d.toInt ≤ 127) ∧
    (classify common d = .s16 ↔ d ≠ common ∧ ¬(-128 ≤ d.toInt ∧ d.toInt ≤ 127) ∧ -32768 ≤ d.toInt ∧ d.toInt ≤ 32767) ∧
    (classify common d = .s32 ↔ d ≠ common ∧ ¬(-32768 ≤ d.toInt ∧ d.toInt ≤ 32767))

/-- R174: executing the record that packing makes of a delta yields the delta again, whatever the common value. -/
def Obligations.PackingLosesNothing : Prop :=
  ∀ common d : Word, recDelta common ⟨classify common d, payload (classify common d) d⟩ = d

/-! ## The histogram and the common value -/

/-- R134: H[v] is the number of elements whose delta is v. -/
def Obligations.HistogramCountsDeltas : Prop :=
  ∀ (ds : List Word) (v : Word), histCount (histOf ds) v = ds.count v

/-- R135: the common value is the delta of at least one element and no delta occurs more often, for every tie rule. -/
def Obligations.CommonValueIsMode : Prop :=
  ∀ (tie : TieRule) (ds : List Word), ds ≠ [] →
    tieChoice tie (histOf ds) ∈ ds ∧ ∀ v, ds.count v ≤ ds.count (tieChoice tie (histOf ds))

/-- R135: the reference tie rule takes a mode, a delta that no delta outnumbers, and of the modes the one with the smallest
signed reading. -/
def Obligations.LowestTakesSmallestMode : Prop :=
  ∀ ds : List Word, ds ≠ [] →
    tieChoice .lowest (histOf ds) ∈ ds ∧ (∀ u, ds.count u ≤ ds.count (tieChoice .lowest (histOf ds))) ∧
    ∀ v ∈ ds, (∀ u, ds.count u ≤ ds.count v) → toSigned (tieChoice .lowest (histOf ds)) ≤ toSigned v

/-- R134, R135: the common value depends on how often each delta occurs, not on the order of the elements, for every tie
rule: TIE is "a function of `H` alone". -/
def Obligations.CommonValueIgnoresOrder : Prop :=
  ∀ (tie : TieRule) (ds ds' : List Word), (∀ v, ds.count v = ds'.count v) →
    tieChoice tie (histOf ds) = tieChoice tie (histOf ds')

/-! ## The pure functions -/

/-- R145: for every list and every tie rule, decode(N, encode(xs)) = xs; the converse fails. -/
def Obligations.DecodeEncodeRoundTrip : Prop :=
  (∀ (tie : TieRule) (xs : List Word), decodeList xs.length (encodeList tie xs) = some xs) ∧
  ∃ (tie : TieRule) (n : Nat) (bs : List Byte) (ws : List Word), decodeList n bs = some ws ∧ encodeList tie ws ≠ bs

/-- R92, R141: the length of a stream the encoder writes; N = 0 gives no byte, and for N > 0 the lower bound is reached
exactly when every delta is the common value. -/
def Obligations.EncodedLengthBounds : Prop :=
  ∀ (tie : TieRule) (xs : List Word),
    (encodeList tie xs).length ≤ maxPrecodedSize xs.length ∧
    (xs ≠ [] →
      (encodeList tie xs).length =
        4 + tagBytes xs.length + (((deltas xs).map fun d => resLen (classify (commonOf tie xs) d)).sum) ∧
      (encodeList tie xs).length ≤ 4 + tagBytes xs.length + 4 * (xs.length - 1) ∧
      ((encodeList tie xs).length = 4 + tagBytes xs.length ↔
        ∃ c : Word, ∀ j (h : j < xs.length), xs[j] = BitVec.ofNat 32 (j + 1) * c))

/-- R211, R212, R213, R222: with any lawful compressor around it the list comes back when the capacity holds the stream, and the
compressed size is within FC_BOUND, of the stream's length always and of the worst case if the bound is monotone (N14). That a
smaller capacity fails rests on the model's named assumption that the compressor keeps within the capacity (log 21). -/
def Obligations.RoundTripThroughCompressor : Prop :=
  ∀ (fc : FastCompressor) (tie : TieRule) (xs : List Word) (cap : Nat), fc.Lawful →
    ((encodeList tie xs).length ≤ cap →
      (fc.decompress (fc.compress (encodeList tie xs)) cap).bind (decodeList xs.length) = some xs) ∧
    (fc.WithinCapacity → cap < (encodeList tie xs).length → fc.decompress (fc.compress (encodeList tie xs)) cap = none) ∧
    (fc.compress (encodeList tie xs)).length ≤ fc.bound (encodeList tie xs).length ∧
    (fc.Monotone → (fc.compress (encodeList tie xs)).length ≤ fc.bound (maxPrecodedSize xs.length))

/-! ## The commands -/

/-- R116, R117, R115: SZP and SZW leave the worst-case size of COUNT elements in RESULT and change nothing else but STATUS;
COUNT above NMAX is BAD_COUNT. -/
def Obligations.SizingCommandsGiveSize : Prop :=
  ∀ (s : State) (i : Instr), s.plat.wellFormed = true → i = .szp ∨ i = .szw →
    (s.inst.count.toNat ≤ s.plat.nmax →
      ∃ t, exec i s = .next t ∧ t.mem = s.mem ∧
        EndedOK s t (if s.inst.count.toNat = 0 then 0 else 4 + (s.inst.count.toNat + 3) / 4 + 4 * s.inst.count.toNat)) ∧
    (s.plat.nmax < s.inst.count.toNat → ∃ t, exec i s = .next t ∧ EndedFault s t .badCount 0x00000041#32)

/-- R131, R132, R130, R53, R138: when the host has done its duties, and whether or not the bytes of the output range past the
stream are admitted, ENC writes encode(xs) of the words at SRC to DST, leaves its length in RESULT, and changes no other byte
and no other register but STATUS. -/
def Obligations.EncWritesEncodedStream : Prop :=
  ∀ (s : State) (i : Instr) (xs : List Word) (stream : List Byte), i = .encS ∨ i = .encU → s.plat.wellFormed = true →
    s.mem.wf = true → xs = s.mem.words s.inst.src.toNat s.inst.count.toNat → stream = encodeList s.plat.tie xs →
    Runnable i s (4 * s.inst.count.toNat) stream.length →
    ∃ t, exec i s = .next t ∧ EndedOK s t stream.length ∧ t.mem.readBytes s.inst.dst.toNat stream.length = stream ∧
      ∀ a, within s.inst.dst.toNat stream.length a = false → t.mem.read a = s.mem.read a

/-- R191, R192, R190, R197: when the host has done its duties, and whether or not the bytes past the stream are admitted, DEC
writes to DST the words that the stream at SRC stands for, leaves N in RESULT, and changes no other byte and no other register
but STATUS. The stream is the one R190 reads from the bytes DEC finds at SRC; `rest` are the bytes after it. Where its bytes
are in the buffer declared for it, it is the stream that stands in memory; any other byte is a free value (93 U1, log 20). -/
def Obligations.DecWritesDecodedWords : Prop :=
  ∀ (s : State) (i : Instr) (st : Stream) (rest : List Byte), i = .decS ∨ i = .decU → s.plat.wellFormed = true →
    s.mem.wf = true →
    parseStream s.inst.count.toNat
      (seenBytes s.plat s.mem s.draws s.inst.src.toNat s.inst.src.toNat (maxPrecodedSize s.inst.count.toNat)) = .ok (st, rest) →
    Runnable i s (maxPrecodedSize s.inst.count.toNat - rest.length) (4 * s.inst.count.toNat) →
    (∃ t, exec i s = .next t ∧ EndedOK s t s.inst.count.toNat ∧
      t.mem.words s.inst.dst.toNat s.inst.count.toNat = streamWords st ∧
      ∀ a, within s.inst.dst.toNat (4 * s.inst.count.toNat) a = false → t.mem.read a = s.mem.read a) ∧
    (allDeclared s.plat s.inst.src.toNat (maxPrecodedSize s.inst.count.toNat - rest.length) →
      ∃ rest', rest'.length = rest.length ∧
        parseStream s.inst.count.toNat (s.mem.readBytes s.inst.src.toNat (maxPrecodedSize s.inst.count.toNat)) =
          .ok (st, rest'))

/-- R270, R65, R145: DEC on the stream ENC has just written, given only its bytes and declared as the buffer of one (93 U1,
log 20),
restores the words ENC read, wherever the host lets it write them, for every tie rule. -/
def Obligations.DecAfterEncRestoresList : Prop :=
  ∀ (s t : State) (out : Slot), s.plat.wellFormed = true → s.mem.wf = true →
    Runnable .encS s (4 * s.inst.count.toNat)
      (encodeList s.plat.tie (s.mem.words s.inst.src.toNat s.inst.count.toNat)).length →
    exec .encS s = .next t → allDeclared t.plat s.inst.dst.toNat t.inst.result.toNat →
    Runnable .decS { t with inst := { t.inst with src := s.inst.dst, dst := out } } t.inst.result.toNat
      (4 * s.inst.count.toNat) →
    ∃ u, exec .decS { t with inst := { t.inst with src := s.inst.dst, dst := out } } = .next u ∧
      u.inst.status = 0x00000001#32 ∧
      u.mem.words out.toNat s.inst.count.toNat = s.mem.words s.inst.src.toNat s.inst.count.toNat

/-- R240, R234, R133, R193, R235: the checks of ENC and DEC in their order. COUNT above NMAX is BAD_COUNT whatever the
addresses are; N = 0 succeeds whatever they are; a range past the top of the address space is BAD_RANGE. None of them
touches memory. -/
def Obligations.CodecChecksInOrder : Prop :=
  ∀ (s : State) (i : Instr), isCodec i = true →
    (s.plat.nmax < s.inst.count.toNat → ∃ t, exec i s = .next t ∧ EndedFault s t .badCount 0x00000041#32) ∧
    (s.inst.count.toNat = 0 → ∃ t, exec i s = .next t ∧ t.mem = s.mem ∧ EndedOK s t 0) ∧
    (0 < s.inst.count.toNat → s.inst.count.toNat ≤ s.plat.nmax →
      2 ^ s.plat.aw < s.inst.src.toNat + (rangesOf i s.inst.count.toNat).inLen ∨
        2 ^ s.plat.aw < s.inst.dst.toNat + (rangesOf i s.inst.count.toNat).outLen →
      ∃ t, exec i s = .next t ∧ EndedFault s t .badRange 0x00000051#32)

/-- R82: the U bit changes nothing the block does. -/
def Obligations.UBitChangesNothing : Prop :=
  ∀ s : State, exec .encU s = exec .encS s ∧ exec .decU s = exec .decS s

/-- R60, 93 U8: a codec command is refused, by name, when a range meets device memory or a register block. That it stops there
(log 9), and that nothing else is refused, overlapping ranges among it (log 8), are the model's choices: R267 lets a model
refuse an overlapping command, and U6 lets it run, which the model does. -/
def Obligations.DeviceRangesRefused : Prop :=
  ∀ (s : State) (i : Instr), isCodec i = true → OperandsLegal i s →
    (exec i s = .refused .deviceRange ↔ ¬ RangesOrdinary i s) ∧ ∀ r, exec i s = .refused r → r = .deviceRange

/-- 93 U6 (log 8): a command whose ranges overlap completes; RESULT is a value the command can return or the command ends
in ACCESS_FAULT, and no byte outside the output range changes. -/
def Obligations.OverlapStaysInOutputRange : Prop :=
  ∀ (s : State) (i : Instr), isCodec i = true → s.plat.wellFormed = true → OperandsLegal i s → RangesOrdinary i s →
    ¬ RangesDisjoint i s →
    ∃ t, exec i s = .next t ∧ HostSideKept s t ∧ t.inst.work = none ∧
      (t.inst.status = 0x00000001#32 ∧ (rangesOf i s.inst.count.toNat).lo ≤ t.inst.result.toNat ∧
          t.inst.result.toNat ≤ (rangesOf i s.inst.count.toNat).hi ∧ t.inst.faddr = s.inst.faddr ∨
        t.inst.status = 0x00000021#32 ∧ t.inst.result = 0#64) ∧
      ∀ a, within s.inst.dst.toNat (rangesOf i s.inst.count.toNat).outLen a = false → t.mem.read a = s.mem.read a

/-! ## The element records -/

/-- R170, R196: T.COM in the decode pass adds the common value; no memory is read and the cursor does not move. -/
def Obligations.ComRecordAddsCommonValue : Prop :=
  ∀ (s : State) (w : Work), s.inst.work = some w → w.pass = .dec → w.i < w.n →
    allAdmitted s.plat (w.dst + 4 * w.i) 4 →
    exec .tCom s = .next { s with
      mem := s.mem.writeBytes (w.dst + 4 * w.i) (leBytes 4 (w.acc + w.common).toNat)
      inst := { s.inst with work := some { w with
        tag := .com, delta := w.common, acc := w.acc + w.common, i := w.i + 1 } } }

/-- R171, R196: T.S8 in the decode pass adds the sign-extended payload byte and moves the cursor by 1; when a
byte of the payload is refused the command ends in ACCESS_FAULT, FADDR being a refused byte of the element's accesses (R56,
R237 promise no more). The bytes are those DEC finds (93 U1, log 20). -/
def Obligations.S8RecordAddsSignedByte : Prop :=
  ∀ (s : State) (w : Work) (d : Word), s.inst.work = some w → w.pass = .dec → w.i < w.n →
    d = (seenByte s.plat s.mem w.view w.src w.resCur).signExtend 32 →
    (allAdmitted s.plat w.resCur 1 → allAdmitted s.plat (w.dst + 4 * w.i) 4 →
      exec .tS8 s = .next { s with
        mem := s.mem.writeBytes (w.dst + 4 * w.i) (leBytes 4 (w.acc + d).toNat)
        inst := { s.inst with work := some { w with
          tag := .s8, delta := d, resCur := w.resCur + 1, acc := w.acc + d, i := w.i + 1 } } }) ∧
    (someByteRefused s.plat w.resCur 1 →
      ∃ u, exec .tS8 s = .next u ∧ EndedAccessFault s u fun a => within w.resCur 1 a || within (w.dst + 4 * w.i) 4 a)

/-- R172, R196: T.S16 in the decode pass adds the sign-extended payload, low byte first, and moves the cursor by 2; when a
byte of the payload is refused the command ends in ACCESS_FAULT, FADDR being a refused byte of the element's accesses (R56,
R237 promise no more). The bytes are those DEC finds (93 U1, log 20). -/
def Obligations.S16RecordAddsSignedHalf : Prop :=
  ∀ (s : State) (w : Work) (d : Word), s.inst.work = some w → w.pass = .dec → w.i < w.n →
    d = (seenByte s.plat s.mem w.view w.src (w.resCur + 1) ++ seenByte s.plat s.mem w.view w.src w.resCur).signExtend 32 →
    (allAdmitted s.plat w.resCur 2 → allAdmitted s.plat (w.dst + 4 * w.i) 4 →
      exec .tS16 s = .next { s with
        mem := s.mem.writeBytes (w.dst + 4 * w.i) (leBytes 4 (w.acc + d).toNat)
        inst := { s.inst with work := some { w with
          tag := .s16, delta := d, resCur := w.resCur + 2, acc := w.acc + d, i := w.i + 1 } } }) ∧
    (someByteRefused s.plat w.resCur 2 →
      ∃ u, exec .tS16 s = .next u ∧ EndedAccessFault s u fun a => within w.resCur 2 a || within (w.dst + 4 * w.i) 4 a)

/-- R173, R196: T.S32 in the decode pass adds the payload word, low byte first, and moves the cursor by 4; when a
byte of the payload is refused the command ends in ACCESS_FAULT, FADDR being a refused byte of the element's accesses (R56,
R237 promise no more). The bytes are those DEC finds (93 U1, log 20). -/
def Obligations.S32RecordAddsWord : Prop :=
  ∀ (s : State) (w : Work) (d : Word), s.inst.work = some w → w.pass = .dec → w.i < w.n →
    d = seenByte s.plat s.mem w.view w.src (w.resCur + 3) ++ seenByte s.plat s.mem w.view w.src (w.resCur + 2) ++
      seenByte s.plat s.mem w.view w.src (w.resCur + 1) ++ seenByte s.plat s.mem w.view w.src w.resCur →
    (allAdmitted s.plat w.resCur 4 → allAdmitted s.plat (w.dst + 4 * w.i) 4 →
      exec .tS32 s = .next { s with
        mem := s.mem.writeBytes (w.dst + 4 * w.i) (leBytes 4 (w.acc + d).toNat)
        inst := { s.inst with work := some { w with
          tag := .s32, delta := d, resCur := w.resCur + 4, acc := w.acc + d, i := w.i + 1 } } }) ∧
    (someByteRefused s.plat w.resCur 4 →
      ∃ u, exec .tS32 s = .next u ∧ EndedAccessFault s u fun a => within w.resCur 4 a || within (w.dst + 4 * w.i) 4 a)

/-- R163 to R168: a record in the emission pass puts its tag into lane `i mod 4`, its payload, the low bytes of the delta,
at the cursor, and, where a group or the list ends, the tag byte in its place. Stated for the four records. -/
def Obligations.RecordsPackTagAndPayload : Prop :=
  ∀ (s : State) (w : Work) (i : Instr) (t : Tag),
    (i, t) ∈ [(Instr.tCom, Tag.com), (.tS8, .s8), (.tS16, .s16), (.tS32, .s32)] →
    s.inst.work = some w → w.pass = .emit → w.i < w.n →
    allAdmitted s.plat w.resCur (resLen t) →
    (w.i % 4 = 3 ∨ w.i + 1 = w.n → admits s.plat (w.dst + 4 + w.i / 4) = true) →
    exec i s = .next { s with
      mem :=
        if w.i % 4 = 3 ∨ w.i + 1 = w.n then
          (s.mem.writeBytes w.resCur ((leBytes 4 w.delta.toNat).take (resLen t))).writeBytes (w.dst + 4 + w.i / 4)
            [w.tagByte ||| BitVec.ofNat 8 (t.code.toNat * 4 ^ (w.i % 4))]
        else s.mem.writeBytes w.resCur ((leBytes 4 w.delta.toNat).take (resLen t))
      inst := { s.inst with work := some { w with
        tag := t, resCur := w.resCur + resLen t, i := w.i + 1
        tagByte :=
          if w.i % 4 = 3 ∨ w.i + 1 = w.n then 0#8
          else w.tagByte ||| BitVec.ofNat 8 (t.code.toNat * 4 ^ (w.i % 4)) } } }

/-- R165 to R168, R171 to R173, R146, R201, R237: a record whose element has a refused byte ends the command in ACCESS_FAULT:
in the decode pass a byte of its payload or of its output word, in the emission pass a byte of its payload or, where a group
ends, the tag byte. FADDR is a refused byte of these accesses, RESULT is 0, and only the output range may have changed. -/
def Obligations.RefusedPayloadEndsCommand : Prop :=
  ∀ (s : State) (w : Work) (i : Instr) (t : Tag),
    (i, t) ∈ [(Instr.tCom, Tag.com), (.tS8, .s8), (.tS16, .s16), (.tS32, .s32)] →
    s.inst.work = some w → w.i < w.n →
    (w.pass = .dec →
      someByteRefused s.plat w.resCur (resLen t) ∨ someByteRefused s.plat (w.dst + 4 * w.i) 4 →
      ∃ u, exec i s = .next u ∧
        (EndedAccessFault s u fun a => within w.resCur (resLen t) a || within (w.dst + 4 * w.i) 4 a) ∧
        ∀ c, within w.dst (4 * w.n) c = false → u.mem.read c = s.mem.read c) ∧
    (w.pass = .emit →
      someByteRefused s.plat w.resCur (resLen t) ∨
        (w.i % 4 = 3 ∨ w.i + 1 = w.n) ∧ admits s.plat (w.dst + 4 + w.i / 4) = false →
      ∃ u, exec i s = .next u ∧
        (EndedAccessFault s u fun a => within w.resCur (resLen t) a || within (w.dst + 4 + w.i / 4) 1 a) ∧
        ∀ c, within w.dst (maxPrecodedSize w.n) c = false → u.mem.read c = s.mem.read c)

/-- R31, R160 (log 13): a record has no meaning when no command has an element left to pack or execute. -/
def Obligations.RecordNeedsRunningCommand : Prop :=
  ∀ (s : State) (i : Instr), i = .tCom ∨ i = .tS8 ∨ i = .tS16 ∨ i = .tS32 →
    (exec i s = .refused .recordOutsidePass ↔
      ¬ ∃ w, s.inst.work = some w ∧ w.i < w.n ∧ (w.pass = .dec ∨ w.pass = .emit))

/-! ## Rules over all instructions -/

/-- R30, R39: no instruction changes CMD, SRC, DST or COUNT, another instance, the parameters, or the host's side. -/
def Obligations.NoInstructionChangesOperands : Prop :=
  ∀ (i : Instr) (s t : State), exec i s = .next t → HostSideKept s t

/-- R52, R237: whatever its outcome, an instruction leaves every byte outside its output range as it was. -/
def Obligations.NoInstructionWritesOutsideOutput : Prop :=
  ∀ (i : Instr) (s t : State) (a : Nat), s.fits = true → exec i s = .next t → mayWrite i s a = false →
    t.mem.read a = s.mem.read a

/-- R26, R27, R236: after every command DONE is 1 and ERR is OK, ACCESS_FAULT, BAD_COUNT or BAD_RANGE; after a fault RESULT
is 0 and the fault is on record; and no command is running. -/
def Obligations.CommandOutcomeInStatus : Prop :=
  ∀ (i : Instr) (s t : State), isCommand i = true → exec i s = .next t →
    t.inst.work = none ∧
    (t.inst.status = 0x00000001#32 ∧ t.faultLog = s.faultLog ∨
     t.inst.result = 0#64 ∧
      (t.inst.status = 0x00000021#32 ∧ t.faultLog = .accessFault :: s.faultLog ∨
       t.inst.status = 0x00000041#32 ∧ t.faultLog = .badCount :: s.faultLog ∨
       t.inst.status = 0x00000051#32 ∧ t.faultLog = .badRange :: s.faultLog))

/-- R28: FADDR is written only when a command ends in ACCESS_FAULT; it keeps its value otherwise. -/
def Obligations.FaddrWrittenOnlyByAccessFault : Prop :=
  ∀ (i : Instr) (s t : State), exec i s = .next t → t.inst.faddr ≠ s.inst.faddr →
    t.inst.status = 0x00000021#32 ∧ t.inst.work = none

/-- R232, R237: the address an ACCESS_FAULT records is one the platform does not admit, in a range of the command. -/
def Obligations.AccessFaultNamesRefusedByte : Prop :=
  ∀ (i : Instr) (s t : State), isCodec i = true → s.plat.wellFormed = true → exec i s = .next t →
    t.inst.status = 0x00000021#32 →
    admits s.plat t.inst.faddr.toNat = false ∧
    (within s.inst.src.toNat (rangesOf i s.inst.count.toNat).inLen t.inst.faddr.toNat = true ∨
     within s.inst.dst.toNat (rangesOf i s.inst.count.toNat).outLen t.inst.faddr.toNat = true)

/-- R56: a command whose ranges are admitted does not end in ACCESS_FAULT. -/
def Obligations.AdmittedRangesNeverFault : Prop :=
  ∀ (i : Instr) (s t : State), isCodec i = true → RangesAdmitted i s → exec i s = .next t →
    t.inst.status ≠ 0x00000021#32

/-- R32: the outcome of a command depends on SRC, DST, COUNT, the memory, the parameters and (in the model, logs 9, 15) the
place of the register blocks and the counter of free values, and on nothing else: not on RESULT, STATUS, FADDR or working
values an earlier command left. -/
def Obligations.OutcomeDependsOnInputsOnly : Prop :=
  ∀ (i : Instr) (s s' t : State), isCommand i = true → SameInputs s s' → exec i s = .next t →
    ∃ t', exec i s' = .next t' ∧ t'.mem = t.mem ∧ t'.inst.result = t.inst.result ∧ t'.inst.status = t.inst.status ∧
      t'.draws = t.draws ∧ (t.inst.status = 0x00000021#32 → t'.inst.faddr = t.inst.faddr)

/-! ## Reset -/

/-- R40: after reset every host-visible register holds 0 and no command runs. -/
def Obligations.ResetRegistersAreZero : Prop :=
  State.reset.inst.cmd = 0 ∧ State.reset.inst.src = 0 ∧ State.reset.inst.dst = 0 ∧ State.reset.inst.count = 0 ∧
  State.reset.inst.result = 0 ∧ State.reset.inst.status = 0 ∧ State.reset.inst.faddr = 0 ∧ State.reset.inst.work = none

/-- R260, R261, R40, R39: a reset between commands sets every register of the instance it names to 0 and leaves memory, the
other instances and the rest alone. A reset of an instance that is not in focus (log 12) does so at any time, whether or not
the one in focus is running a command, which it leaves running (log 11). -/
def Obligations.ResetBetweenCommands : Prop :=
  ∀ (s : State) (q : List HostAction) (b : Nat), (∀ x ∈ s.others, x.work = none) → s.queue = .reset b :: q →
    (Idle s → b = s.inst.base →
      step s = .next { s with
        queue := q
        inst := { base := b, cmd := 0, src := 0, dst := 0, count := 0, result := 0, status := 0, faddr := 0,
                  work := none } }) ∧
    (b ≠ s.inst.base →
      step s = .next { s with
        queue := q
        others := s.others.map fun x =>
          if x.base = b then
            { base := b, cmd := 0, src := 0, dst := 0, count := 0, result := 0, status := 0, faddr := 0, work := none }
          else x })

/-- R262, in the model's element-by-element view (log 11): a reset of a running instance stops its command: the registers are
0, no byte outside the command's output range changes, and no outcome is recorded. -/
def Obligations.ResetCutsCommandOff : Prop :=
  ∀ (s : State) (w : Work) (q : List HostAction), s.inst.work = some w → s.queue = .reset s.inst.base :: q →
    ∃ t, step s = .next t ∧ t.queue = q ∧ t.faultLog = s.faultLog ∧ t.others = s.others ∧ t.plat = s.plat ∧
      t.inst = { base := s.inst.base, cmd := 0, src := 0, dst := 0, count := 0, result := 0, status := 0, faddr := 0,
                 work := none } ∧
      ∀ a, within w.dst (match w.pass with
          | .hist | .emit => maxPrecodedSize w.n
          | .header | .dec => 4 * w.n) a = false → t.mem.read a = s.mem.read a

/-! ## The host's accesses -/

/-- R21, R23, R24, R25, R29: a write of SRC, DST or COUNT stores the low AW bits; a write of RESULT, STATUS or FADDR, or at any
offset in the slot that has no register, is ignored. Nothing starts. -/
def Obligations.RegisterWritesStoreLowBits : Prop :=
  ∀ (s : State) (q : List HostAction) (v : BitVec 64), Idle s →
    (∀ k, 0 < k → k < 8 → s.queue = .regWrite (s.inst.base + 8 * k) v :: q →
      step s = .next { s with
        queue := q
        inst := { s.inst with
          src := if k = 1 then BitVec.ofNat 64 (v.toNat % 2 ^ s.plat.aw) else s.inst.src
          dst := if k = 2 then BitVec.ofNat 64 (v.toNat % 2 ^ s.plat.aw) else s.inst.dst
          count := if k = 3 then BitVec.ofNat 64 (v.toNat % 2 ^ s.plat.aw) else s.inst.count } }) ∧
    ∀ j, 56 ≤ j → j < 64 → s.queue = .regWrite (s.inst.base + j) v :: q → step s = .next { s with queue := q }

/-- R21, R22, R29, R39: a register read returns the register in the low bits of its slot, 0 at every offset in the slot that
has no register, and has no side effect on the block: `u` is the state itself where the instance in focus is read, and the
state with another instance brought into focus (log 12) where that one is. -/
def Obligations.RegisterReadsReturnSlot : Prop :=
  ∀ (s u : State) (q : List HostAction) (j : Nat), Idle s → u = s ∨ BroughtIntoFocus s u (u.inst.base + j) →
    s.queue = .regRead (u.inst.base + j) :: q →
    (∀ k, k < 8 → j = 8 * k →
      step s = .next { u with
        queue := q
        hostIn :=
          match k with
          | 0 => u.inst.cmd.setWidth 64
          | 1 => u.inst.src
          | 2 => u.inst.dst
          | 3 => u.inst.count
          | 4 => u.inst.result
          | 5 => u.inst.status.setWidth 64
          | 6 => u.inst.faddr
          | _ => 0#64 }) ∧
    (56 ≤ j → j < 64 → step s = .next { u with queue := q, hostIn := 0#64 })

/-- R39, R21 to R25, R29, R233: a write to a register of another instance changes that instance alone, and a write to its CMD
runs the command on it (R22), or faults it, as on the one in focus. That it comes into focus, in exchange for the one that was,
is the model's choice (log 12). -/
def Obligations.OtherInstanceRegisterWrite : Prop :=
  ∀ (s u : State) (q : List HostAction) (v : BitVec 64) (j : Nat), Idle s → BroughtIntoFocus s u (u.inst.base + j) →
    s.queue = .regWrite (u.inst.base + j) v :: q →
    (∀ k, 0 < k → k < 8 → j = 8 * k →
      step s = .next { u with
        queue := q
        inst := { u.inst with
          src := if k = 1 then BitVec.ofNat 64 (v.toNat % 2 ^ s.plat.aw) else u.inst.src
          dst := if k = 2 then BitVec.ofNat 64 (v.toNat % 2 ^ s.plat.aw) else u.inst.dst
          count := if k = 3 then BitVec.ofNat 64 (v.toNat % 2 ^ s.plat.aw) else u.inst.count } }) ∧
    (56 ≤ j → j < 64 → step s = .next { u with queue := q }) ∧
    (∀ i, j = 0 → decodeCommand (v.setWidth 32) = .ok i →
      step s = exec i { u with queue := q, inst := { u.inst with cmd := v.setWidth 32 } }) ∧
    (∀ e, j = 0 → decodeCommand (v.setWidth 32) = .error e →
      step s = .next { u with
        queue := q
        inst := { u.inst with cmd := v.setWidth 32, result := 0#64, status := 0x00000011#32, work := none }
        faultLog := .illegalCmd :: s.faultLog })

/-- R50, R29, R60, R61, as the model reads them: the host's byte accesses, not subject to admission (log 16). Ordinary memory
is stored to and loaded from; an address of 2^AW or above does not exist (log 16); in the slot that has no register a store
is ignored and a load gives 0; a byte of a register is refused; a device changes nothing of the machine and answers with any
byte (log 15). -/
def Obligations.HostByteAccess : Prop :=
  ∀ (s : State) (q : List HostAction) (a : Nat) (b : Byte), Idle s →
    (s.queue = .store a b :: q ∨ s.queue = .load a :: q → 2 ^ s.plat.aw ≤ a → step s = .fault (.noSuchAddress a)) ∧
    (a < 2 ^ s.plat.aw →
      (touchesDevice s ⟨a, 1⟩ = false →
        (s.queue = .store a b :: q → step s = .next { s with queue := q, mem := s.mem.write a b }) ∧
        (s.queue = .load a :: q → step s = .next { s with queue := q, hostIn := (s.mem.read a).setWidth 64 })) ∧
      (∀ x, s.instances.find? (fun y => y.block.has a) = some x →
        (a < x.base + 56 →
          s.queue = .store a b :: q ∨ s.queue = .load a :: q → step s = .refused (.partialAccess a)) ∧
        (x.base + 56 ≤ a →
          (s.queue = .store a b :: q → step s = .next { s with queue := q }) ∧
          (s.queue = .load a :: q → step s = .next { s with queue := q, hostIn := 0#64 }))) ∧
      ((∀ x ∈ s.instances, x.block.has a = false) → (∃ r ∈ s.plat.devices, r.has a = true) →
        (s.queue = .store a b :: q → step s = .next { s with queue := q }) ∧
        (s.queue = .load a :: q →
          ∃ c : Byte, step s = .next { s with queue := q, hostIn := c.setWidth 64, draws := s.draws + 1 })))

/-! ## Steps -/

/-- R22: a write of a legal command word to CMD stores the word and then runs its command, in one step. -/
def Obligations.CmdWriteRunsCommand : Prop :=
  ∀ (s : State) (q : List HostAction) (v : BitVec 64) (i : Instr), Idle s →
    s.queue = .regWrite s.inst.base v :: q → decodeCommand (v.setWidth 32) = .ok i →
    step s = exec i { s with queue := q, inst := { s.inst with cmd := v.setWidth 32 } }

/-- R81, R233, R236: any other word is stored and ends in ILLEGAL_CMD: RESULT 0, STATUS 0x11, nothing else changed. -/
def Obligations.IllegalWordFaults : Prop :=
  ∀ (s : State) (q : List HostAction) (v : BitVec 64) (e : DecodeError), Idle s →
    s.queue = .regWrite s.inst.base v :: q → decodeCommand (v.setWidth 32) = .error e →
    step s = .next { s with
      queue := q
      inst := { s.inst with cmd := v.setWidth 32, result := 0#64, status := 0x00000011#32 }
      faultLog := .illegalCmd :: s.faultLog }

/-- R169, R196 and R137, R161 (log 11): a step of a running command in the decode pass fetches the element's tag, from the byte
DEC finds (93 U1, log 20), and runs the record that the decoder reads from it; in the emission pass it fetches the element's
delta and runs the record of its class. -/
def Obligations.ElementStepRunsRecord : Prop :=
  ∀ (s : State) (w : Work), s.inst.work = some w → s.queue = [] → w.i < w.n →
    (w.pass = .dec → allAdmitted s.plat (w.src + 4 + w.i / 4) 1 →
      ∀ i rest, decodeBytes (.lane (w.i % 4)) (seenBytes s.plat s.mem w.view w.src (w.src + 4 + w.i / 4) 1) = .ok (i, rest) →
        ∃ t, i = Instr.ofTag t ∧
          step s = exec i (s.setWork { w with
            tagByte := seenByte s.plat s.mem w.view w.src (w.src + 4 + w.i / 4), tag := t })) ∧
    (w.pass = .emit → allAdmitted s.plat (w.src + 4 * w.i) 4 →
      step s = exec (Instr.ofTag (classify w.common (s.mem.word w.src w.i - w.prev))) (s.setWork { w with
        delta := s.mem.word w.src w.i - w.prev
        prev := s.mem.word w.src w.i
        tag := classify w.common (s.mem.word w.src w.i - w.prev) }))

/-- Every step keeps memory, the address space of R50, in the model's canonical form: equal memories are equal data. -/
def Obligations.StepKeepsMemoryCanonical : Prop :=
  ∀ s t : State, s.mem.wf = true → step s = .next t → t.mem.wf = true

/-- R27, R239: every step keeps STATUS of every instance a legal value; REPR_FATAL and the reserved codes never appear. -/
def Obligations.StepKeepsStatusLegal : Prop :=
  ∀ s t : State, s.statusesLegal = true → step s = .next t → t.statusesLegal = true

/-- R21, R58, R176, R33: every step keeps the registers of every instance within AW bits, the element index at most N and
the residual cursor within the bound of the cursor law; and no instance but the one in focus runs a command (log 12). -/
def Obligations.StepKeepsRegistersAndCursor : Prop :=
  ∀ s t : State, s.fits = true → step s = .next t → t.fits = true

/-- The three invariants hold at reset, whose parameters and memory are the model's choice (logs 1, 2, 3, 5). -/
def Obligations.ResetMeetsInvariants : Prop :=
  State.reset.mem.wf = true ∧ State.reset.statusesLegal = true ∧ State.reset.fits = true

/-- R38, R5: no step changes AW, NMAX, TIE, the device regions, or NINST and the IDP_BASEs (the instances keep their addresses
up to order, for a register access may exchange two of them, log 12); only the platform changes `admits`, and only between
commands. The host's declaration of its streams (93 U1, log 20) changes by its own action alone. -/
def Obligations.StepKeepsParameters : Prop :=
  ∀ s t : State, step s = .next t →
    t.plat.aw = s.plat.aw ∧ t.plat.nmax = s.plat.nmax ∧ t.plat.tie = s.plat.tie ∧ t.plat.devices = s.plat.devices ∧
    (t.instances.map Inst.base).Perm (s.instances.map Inst.base) ∧
    (t.plat.admits ≠ s.plat.admits → s.inst.work = none ∧ ∃ rs q, s.queue = .setAdmits rs :: q ∧ t.plat.admits = rs) ∧
    (t.plat.streams ≠ s.plat.streams → s.inst.work = none ∧ ∃ rs q, s.queue = .declare rs :: q ∧ t.plat.streams = rs)

/-- R249, R33, in the model's element-by-element view (log 11): every step of a running command that no reset cuts off
answers a next state, in which the command has ended or has less left to do. -/
def Obligations.RunningCommandEnds : Prop :=
  ∀ (s : State) (w : Work), s.inst.work = some w → (∀ b q, s.queue ≠ .reset b :: q) →
    ∃ t, step s = .next t ∧ (t.inst.work = none ∨ ∃ w', t.inst.work = some w' ∧ w'.left < w.left)

/-- R231, R37, R67: a command that is watched element by element (the model's view, log 11), and ends with success, ends in
the very state that the command run in one step ends in. -/
def Obligations.SteppedCommandAgrees : Prop :=
  ∀ (s t : State) (i : Instr) (w : Work), isCodec i = true → s.queue = [] →
    (match i with
     | .encS | .encU => startEnc s
     | .decS | .decU | .szp | .szw | .tCom | .tS8 | .tS16 | .tS32 => startDec s) = .running w →
    exec i s = .next t → t.inst.status = 0x00000001#32 →
    Sys2Proof.core.run w.left (s.setWork w) = .next t

/-! ## Refused bytes, and the host software -/

/-- R56, R67, R146, R201: a codec command ends in ACCESS_FAULT when a byte that every run of it touches is refused: for ENC an
input word, the header or a tag byte of the stream, for DEC the header, a tag byte or an output word. FADDR is a refused
byte of its ranges. -/
def Obligations.RefusedSureByteFaults : Prop :=
  ∀ (s : State) (i : Instr), isCodec i = true → OperandsLegal i s → RangesOrdinary i s → RangesDisjoint i s →
    (match i with
     | .encS | .encU =>
        someByteRefused s.plat s.inst.src.toNat (4 * s.inst.count.toNat) ∨
          someByteRefused s.plat s.inst.dst.toNat (4 + (s.inst.count.toNat + 3) / 4)
     | .decS | .decU | .szp | .szw | .tCom | .tS8 | .tS16 | .tS32 =>
        someByteRefused s.plat s.inst.src.toNat (4 + (s.inst.count.toNat + 3) / 4) ∨
          someByteRefused s.plat s.inst.dst.toNat (4 * s.inst.count.toNat)) →
    ∃ t, exec i s = .next t ∧
      (EndedAccessFault s t fun a => within s.inst.src.toNat (rangesOf i s.inst.count.toNat).inLen a ||
        within s.inst.dst.toNat (rangesOf i s.inst.count.toNat).outLen a) ∧
      ∀ a, within s.inst.dst.toNat (rangesOf i s.inst.count.toNat).outLen a = false → t.mem.read a = s.mem.read a

/-- R216 to R219, R222 (logs 20, 21, 26, 27): around a lawful compressor, `compressToBuffer` leaves at `out` the compressed
encoding of the words at `list` and returns its length, and `decompressFromBuffer`, given the compressed encoding of a list
and a workspace that holds the encoding, leaves the list at `out` and returns its length. Each changes no byte outside its
buffers. Three things here are the model's choice. The host's copies, FC_COMPRESS's write of `out` and FC_DECOMPRESS's read of
`src`, are taken as reads and writes of memory in one go at unchecked addresses (log 21): beyond `out` < 2^AW no premise keeps
these two buffers below 2^AW or off device regions and register blocks, where a byte access of the host would stop or reach
the device (`HostByteAccess`; R50, R61). The part of a released buffer past the stream is as before (log 26). The capacity of
a workspace the caller gives is any that holds the encoding, not checked against the worst case (log 27). -/
def Obligations.CompressorWrapperRoundTrip : Prop :=
  ∀ (fc : FastCompressor) (s : State) (xs : List Word) (n out : Nat), fc.Lawful → Idle s → s.plat.wellFormed = true →
    s.mem.wf = true → n ≤ s.plat.nmax → out < 2 ^ s.plat.aw →
    (∀ (word : Word) (i : Instr) (list scratch : Nat), (word, i) ∈ [(0x00000001#32, Instr.encS), (0x00000011#32, .encU)] →
      list < 2 ^ s.plat.aw → scratch < 2 ^ s.plat.aw → xs = s.mem.words list n →
      n = 0 ∨ Runnable i (s.withOperands word list scratch n) (4 * n) (encodeList s.plat.tie xs).length →
      ∃ t, compressToBuffer word fc list n out scratch s =
          .next (t, (fc.compress (encodeList s.plat.tie xs)).length) ∧
        t.mem.readBytes out (fc.compress (encodeList s.plat.tie xs)).length = fc.compress (encodeList s.plat.tie xs) ∧
        ∀ a, within scratch (encodeList s.plat.tie xs).length a = false →
          within out (fc.compress (encodeList s.plat.tie xs)).length a = false → t.mem.read a = s.mem.read a) ∧
    (∀ (word : Word) (i : Instr) (tie : TieRule) (src size ws cap alloc : Nat) (given : Option (Nat × Nat)),
      (word, i) ∈ [(0x00000002#32, Instr.decS), (0x00000012#32, .decU)] → xs.length = n → ws < 2 ^ s.plat.aw →
      s.mem.readBytes src size = fc.compress (encodeList tie xs) → workspaceOf given alloc n = (ws, cap) →
      (encodeList tie xs).length ≤ cap →
      n = 0 ∨ Runnable i (s.withOperands word ws out n) (encodeList tie xs).length (4 * n) →
      ∃ t, decompressFromBuffer word fc src size out n given alloc s = .next (t, n) ∧
        t.mem.words out n = xs ∧ t.plat = s.plat ∧
        ∀ a, within ws (encodeList tie xs).length a = false → within out (4 * n) a = false →
          t.mem.read a = s.mem.read a)
end

