-- ==== Sys2Proof/Laws/Memory.lean ====
section
/-! SUPPORT. Memory: read after write, what a write leaves alone, and that every operation keeps the canonical form. -/

namespace Sys2Proof.Machine

@[simp] theorem read_nil (a : Nat) : Memory.read [] a = Memory.unlisted := rfl

theorem read_cons (a' : Nat) (b : Byte) (m : Memory) (a : Nat) :
    Memory.read ((a', b) :: m) a = if a' = a then b else Memory.read m a := rfl

/-- A write leaves every other address alone. -/
theorem read_write_other (m : Memory) {a c : Nat} (b : Byte) (h : c ≠ a) : (m.write a b).read c = m.read c := by
  induction m with
  | nil => unfold Memory.write; split <;> simp [read_cons, h.symm]
  | cons e m ih =>
    obtain ⟨a', b'⟩ := e
    unfold Memory.write
    split
    · subst a'; split <;> simp [read_cons, h.symm]
    · split
      · split <;> simp [read_cons, h.symm]
      · simp only [read_cons, ih]

theorem wfFrom_mono {lo lo' : Nat} (h : lo' ≤ lo) {m : Memory} (hm : m.wfFrom lo = true) : m.wfFrom lo' = true := by
  cases m with
  | nil => rfl
  | cons e m =>
    simp only [Memory.wfFrom, Bool.and_eq_true, decide_eq_true_eq] at hm ⊢
    exact ⟨⟨by omega, hm.1.2⟩, hm.2⟩

/-- Below the lowest listed address every byte is unlisted. -/
theorem read_below {lo : Nat} {m : Memory} (hm : m.wfFrom lo = true) {a : Nat} (h : a < lo) :
    m.read a = Memory.unlisted := by
  induction m generalizing lo with
  | nil => rfl
  | cons e m ih =>
    simp only [Memory.wfFrom, Bool.and_eq_true, decide_eq_true_eq] at hm
    rw [read_cons, if_neg (by omega)]
    exact ih hm.2 (by omega)

theorem read_write_same_from {lo : Nat} {m : Memory} (hm : m.wfFrom lo = true) (a : Nat) (b : Byte) :
    (m.write a b).read a = b := by
  induction m generalizing lo with
  | nil => unfold Memory.write; split <;> simp_all [read_cons]
  | cons e m ih =>
    obtain ⟨a', b'⟩ := e
    have hm' := hm
    simp only [Memory.wfFrom, Bool.and_eq_true, decide_eq_true_eq] at hm
    unfold Memory.write
    split
    · subst a'
      split
      · next hb => rw [hb, read_below hm.2 (by omega)]
      · simp [read_cons]
    · next hne =>
      split
      · next hlt =>
        split
        · next hb =>
          rw [read_cons, if_neg (by omega), hb]
          exact read_below hm.2 (by omega)
        · simp [read_cons]
      · rw [read_cons, if_neg (by omega)]
        exact ih hm.2

/-- A read after a write to the same address gives the byte written. -/
theorem read_write_same {m : Memory} (hm : m.wf = true) (a : Nat) (b : Byte) : (m.write a b).read a = b :=
  read_write_same_from hm a b

theorem wfFrom_write {lo : Nat} {m : Memory} (hm : m.wfFrom lo = true) {a : Nat} (ha : lo ≤ a) (b : Byte) :
    (m.write a b).wfFrom lo = true := by
  induction m generalizing lo with
  | nil => unfold Memory.write; split <;> simp_all [Memory.wfFrom]
  | cons e m ih =>
    obtain ⟨a', b'⟩ := e
    have hm' := hm
    simp only [Memory.wfFrom, Bool.and_eq_true, decide_eq_true_eq] at hm
    unfold Memory.write
    split
    · subst a'
      split
      · exact wfFrom_mono (by omega) hm.2
      · next hb => simp [Memory.wfFrom, ha, hb, hm.2]
    · split
      · split
        · exact hm'
        · next hb =>
          simp only [Memory.wfFrom, Bool.and_eq_true, decide_eq_true_eq]
          exact ⟨⟨ha, hb⟩, ⟨by omega, hm.1.2⟩, hm.2⟩
      · simp only [Memory.wfFrom, Bool.and_eq_true, decide_eq_true_eq]
        exact ⟨hm.1, ih hm.2 (by omega)⟩

/-- A write keeps the canonical form. -/
theorem wf_write {m : Memory} (hm : m.wf = true) (a : Nat) (b : Byte) : (m.write a b).wf = true :=
  wfFrom_write hm (Nat.zero_le a) b

/-- Memories in canonical form that read the same are the same data. -/
theorem eq_of_read_eq_from {lo : Nat} {m m' : Memory} (hm : m.wfFrom lo = true) (hm' : m'.wfFrom lo = true)
    (h : ∀ a, m.read a = m'.read a) : m = m' := by
  induction m generalizing lo m' with
  | nil =>
    cases m' with
    | nil => rfl
    | cons e t =>
      obtain ⟨a, b⟩ := e
      simp only [Memory.wfFrom, Bool.and_eq_true, decide_eq_true_eq] at hm'
      have := h a
      simp only [read_nil, read_cons, if_true] at this
      exact absurd this.symm hm'.1.2
  | cons e t ih =>
    obtain ⟨a, b⟩ := e
    simp only [Memory.wfFrom, Bool.and_eq_true, decide_eq_true_eq] at hm
    cases m' with
    | nil =>
      have := h a
      simp [read_cons] at this
      exact absurd this hm.1.2
    | cons e' t' =>
      obtain ⟨a', b'⟩ := e'
      simp only [Memory.wfFrom, Bool.and_eq_true, decide_eq_true_eq] at hm'
      have haa : a = a' := by
        rcases Nat.lt_trichotomy a a' with hl | he | hl
        · have := h a
          rw [read_cons, read_cons, if_pos rfl, if_neg (by omega), read_below hm'.2 (by omega)] at this
          exact absurd this hm.1.2
        · exact he
        · have := h a'
          rw [read_cons, read_cons, if_neg (by omega), if_pos rfl, read_below hm.2 (by omega)] at this
          exact absurd this.symm hm'.1.2
      subst a'
      have hb : b = b' := by simpa [read_cons] using h a
      subst b'
      have ht : t = t' := by
        refine ih hm.2 hm'.2 fun c => ?_
        by_cases hc : a = c
        · subst hc; rw [read_below hm.2 (by omega), read_below hm'.2 (by omega)]
        · simpa [read_cons, hc] using h c
      rw [ht]

theorem eq_of_read_eq {m m' : Memory} (hm : m.wf = true) (hm' : m'.wf = true) (h : ∀ a, m.read a = m'.read a) :
    m = m' := eq_of_read_eq_from hm hm' h

/-! ## Several bytes -/

@[simp] theorem readBytes_length (m : Memory) (a n : Nat) : (m.readBytes a n).length = n := by
  induction n generalizing a with
  | zero => rfl
  | succ n ih => simp [Memory.readBytes, ih]

/-- Byte `k` of a read of several bytes. -/
theorem readBytes_getElem (m : Memory) (a n k : Nat) (h : k < (m.readBytes a n).length) :
    (m.readBytes a n)[k] = m.read (a + k) := by
  induction n generalizing a k with
  | zero => simp [Memory.readBytes] at h
  | succ n ih =>
    cases k with
    | zero => simp [Memory.readBytes]
    | succ k =>
      simp only [Memory.readBytes, List.getElem_cons_succ]
      rw [ih]
      congr 1; omega

theorem readBytes_congr {m m' : Memory} {a n : Nat} (h : ∀ c, a ≤ c → c < a + n → m.read c = m'.read c) :
    m.readBytes a n = m'.readBytes a n := by
  induction n generalizing a with
  | zero => rfl
  | succ n ih =>
    simp only [Memory.readBytes]
    rw [h a (by omega) (by omega), ih fun c h₁ h₂ => h c (by omega) (by omega)]

theorem readBytes_append (m : Memory) (a n k : Nat) :
    m.readBytes a (n + k) = m.readBytes a n ++ m.readBytes (a + n) k := by
  induction n generalizing a with
  | zero => simp [Memory.readBytes]
  | succ n ih =>
    rw [show n + 1 + k = (n + k) + 1 by omega]
    simp only [Memory.readBytes, List.cons_append]
    rw [ih, show a + 1 + n = a + (n + 1) by omega]

/-- A write of several bytes leaves every address outside them alone. -/
theorem read_writeBytes_other (m : Memory) (a : Nat) (bs : List Byte) {c : Nat} (h : c < a ∨ a + bs.length ≤ c) :
    (m.writeBytes a bs).read c = m.read c := by
  induction bs generalizing m a with
  | nil => rfl
  | cons b bs ih =>
    simp only [List.length_cons] at h
    rw [Memory.writeBytes, ih _ _ (by omega), read_write_other _ _ (by omega)]

theorem wf_writeBytes {m : Memory} (hm : m.wf = true) (a : Nat) (bs : List Byte) : (m.writeBytes a bs).wf = true := by
  induction bs generalizing m a with
  | nil => exact hm
  | cons b bs ih => exact ih (wf_write hm a b) (a + 1)

/-- A read of the bytes just written gives them. -/
theorem readBytes_writeBytes_same {m : Memory} (hm : m.wf = true) (a : Nat) (bs : List Byte) :
    (m.writeBytes a bs).readBytes a bs.length = bs := by
  induction bs generalizing m a with
  | nil => rfl
  | cons b bs ih =>
    simp only [Memory.writeBytes, List.length_cons, Memory.readBytes]
    rw [ih (wf_write hm a b), read_writeBytes_other _ _ _ (by omega), read_write_same hm]

/-- A read of several bytes is not changed by a write elsewhere. -/
theorem readBytes_writeBytes_other (m : Memory) {a c n : Nat} {bs : List Byte} (h : c + n ≤ a ∨ a + bs.length ≤ c) :
    (m.writeBytes a bs).readBytes c n = m.readBytes c n :=
  readBytes_congr fun d h₁ h₂ => read_writeBytes_other m a bs (by omega)

/-! ## Unspecified bytes -/

/-- Only the bytes of the range take unspecified values. -/
theorem read_havoc_other (m : Memory) (a n k : Nat) {c : Nat} (h : c < a ∨ a + n ≤ c) :
    (m.havoc a n k).read c = m.read c := by
  induction n generalizing m a k with
  | zero => rfl
  | succ n ih => rw [Memory.havoc, ih _ _ _ (by omega), read_write_other _ _ (by omega)]

theorem wf_havoc {m : Memory} (hm : m.wf = true) (a n k : Nat) : (m.havoc a n k).wf = true := by
  induction n generalizing m a k with
  | zero => exact hm
  | succ n ih => exact ih (wf_write hm a _) (a + 1) (k + 1)

end Sys2Proof.Machine
end

