-- ==== Sys2Proof/Laws/Access.lean ====
section
/-! SUPPORT. Admission and the accesses: when they succeed, what a refused one reports (spec/20_memory.md R56), and which
bytes DEC finds (spec/93_implementation_defined.md U1). -/

namespace Sys2Proof.Machine

/-- A refused address lies in the access, is not admitted, and every address of the access below it is. -/
theorem firstRefused_some {p : Platform} {a n c : Nat} (h : firstRefused p a n = some c) :
    a ≤ c ∧ c < a + n ∧ admits p c = false ∧ ∀ d, a ≤ d → d < c → admits p d = true := by
  induction n generalizing a with
  | zero => simp [firstRefused] at h
  | succ n ih =>
    unfold firstRefused at h
    split at h
    · next ha =>
      obtain ⟨h₁, h₂, h₃, h₄⟩ := ih h
      refine ⟨by omega, by omega, h₃, fun d hd₁ hd₂ => ?_⟩
      by_cases e : d = a
      · exact e ▸ ha
      · exact h₄ d (by omega) hd₂
    · next ha =>
      cases h
      exact ⟨by omega, by omega, by simpa using ha, fun d h₁ h₂ => by omega⟩

/-- No address is refused exactly when all are admitted. -/
theorem firstRefused_none {p : Platform} {a n : Nat} :
    firstRefused p a n = none ↔ ∀ d, a ≤ d → d < a + n → admits p d = true := by
  constructor
  · intro h d h₁ h₂
    induction n generalizing a with
    | zero => omega
    | succ n ih =>
      unfold firstRefused at h
      split at h
      · next ha =>
        by_cases e : d = a
        · exact e ▸ ha
        · exact ih h (by omega) (by omega)
      · cases h
  · intro h
    cases hf : firstRefused p a n with
    | none => rfl
    | some c =>
      obtain ⟨h₁, h₂, h₃, _⟩ := firstRefused_some hf
      rw [h c h₁ h₂] at h₃
      cases h₃

theorem memRead_ok {p : Platform} {m : Memory} {a n v : Nat} (h : memRead p m a n = .ok v) :
    v = unle (m.readBytes a n) ∧ ∀ d, a ≤ d → d < a + n → admits p d = true := by
  unfold memRead at h
  split at h
  · cases h
  · next hf => cases h; exact ⟨rfl, firstRefused_none.mp hf⟩

theorem memRead_error {p : Platform} {m : Memory} {a n c : Nat} (h : memRead p m a n = .error c) :
    a ≤ c ∧ c < a + n ∧ admits p c = false := by
  unfold memRead at h
  split at h
  · next hf => cases h; exact ⟨(firstRefused_some hf).1, (firstRefused_some hf).2.1, (firstRefused_some hf).2.2.1⟩
  · cases h

theorem memRead_of_admitted {p : Platform} {m : Memory} {a n : Nat}
    (h : ∀ d, a ≤ d → d < a + n → admits p d = true) : memRead p m a n = .ok (unle (m.readBytes a n)) := by
  rw [memRead, firstRefused_none.mpr h]

/-! ## What DEC finds -/

@[simp] theorem seenBytes_length (p : Platform) (m : Memory) (v s a n : Nat) : (seenBytes p m v s a n).length = n := by
  induction n generalizing a with
  | zero => rfl
  | succ n ih => simp [seenBytes, ih]

/-- Byte `k` of what DEC finds. -/
theorem seenBytes_getElem (p : Platform) (m : Memory) (v s a n k : Nat) (h : k < (seenBytes p m v s a n).length) :
    (seenBytes p m v s a n)[k] = seenByte p m v s (a + k) := by
  induction n generalizing a k with
  | zero => simp [seenBytes] at h
  | succ n ih =>
    cases k with
    | zero => rfl
    | succ k =>
      simp only [seenBytes, List.getElem_cons_succ]
      rw [ih]
      congr 1; omega

theorem seenBytes_append (p : Platform) (m : Memory) (v s a n k : Nat) :
    seenBytes p m v s a (n + k) = seenBytes p m v s a n ++ seenBytes p m v s (a + n) k := by
  induction n generalizing a with
  | zero => simp [seenBytes]
  | succ n ih =>
    rw [show n + 1 + k = (n + k) + 1 by omega]
    simp only [seenBytes, List.cons_append]
    rw [ih, show a + 1 + n = a + (n + 1) by omega]

/-- DEC finds the same bytes in memories that agree on them. -/
theorem seenByte_congr {p : Platform} {m m' : Memory} {v s a : Nat} (h : m.read a = m'.read a) :
    seenByte p m v s a = seenByte p m' v s a := by simp only [seenByte, h]

theorem seenBytes_congr {p : Platform} {m m' : Memory} {v s a n : Nat} (h : ∀ c, a ≤ c → c < a + n → m.read c = m'.read c) :
    seenBytes p m v s a n = seenBytes p m' v s a n := by
  induction n generalizing a with
  | zero => rfl
  | succ n ih =>
    simp only [seenBytes]
    rw [seenByte_congr (h a (by omega) (by omega)), ih fun c h₁ h₂ => h c (by omega) (by omega)]

/-- Where one region is declared and the stream starts in it, that region is the stream's buffer. -/
theorem declared_single {p : Platform} {r : Region} {s : Nat} (h : p.streams = [r]) (hs : r.has s = true) (a : Nat) :
    declared p s a = r.has a := by
  simp [declared, streamBuffer, h, hs]

/-- No byte is known to a DEC whose SRC lies in no declared region. -/
theorem declared_none {p : Platform} {s : Nat} (h : ∀ r ∈ p.streams, r.has s = false) (a : Nat) :
    declared p s a = false := by
  have : streamBuffer p s = none := List.find?_eq_none.mpr fun r hr => by simp [h r hr]
  simp [declared, this]

/-- In its stream's buffer DEC finds what memory holds (93 U1). -/
theorem seenByte_of_declared {p : Platform} {m : Memory} {v s a : Nat} (h : declared p s a = true) :
    seenByte p m v s a = m.read a := if_pos h

theorem seenBytes_of_declared {p : Platform} {m : Memory} {v s a n : Nat}
    (h : ∀ c, a ≤ c → c < a + n → declared p s c = true) : seenBytes p m v s a n = m.readBytes a n := by
  induction n generalizing a with
  | zero => rfl
  | succ n ih =>
    simp only [seenBytes, Memory.readBytes]
    rw [seenByte_of_declared (h a (by omega) (by omega)), ih fun c h₁ h₂ => h c (by omega) (by omega)]

theorem seenBytes_drop (p : Platform) (m : Memory) (v s a n k : Nat) (h : k ≤ n) :
    (seenBytes p m v s a n).drop k = seenBytes p m v s (a + k) (n - k) := by
  conv_lhs => rw [show n = k + (n - k) by omega, seenBytes_append]
  rw [List.drop_left' (by simp)]

theorem seenBytes_take (p : Platform) (m : Memory) (v s a n k : Nat) (h : k ≤ n) :
    (seenBytes p m v s a n).take k = seenBytes p m v s a k := by
  conv_lhs => rw [show n = k + (n - k) by omega, seenBytes_append]
  rw [List.take_left' (by simp)]

theorem streamRead_ok {p : Platform} {m : Memory} {v s a n x : Nat} (h : streamRead p m v s a n = .ok x) :
    x = unle (seenBytes p m v s a n) ∧ ∀ d, a ≤ d → d < a + n → admits p d = true := by
  unfold streamRead at h
  split at h
  · cases h
  · next hf => cases h; exact ⟨rfl, firstRefused_none.mp hf⟩

theorem streamRead_error {p : Platform} {m : Memory} {v s a n c : Nat} (h : streamRead p m v s a n = .error c) :
    a ≤ c ∧ c < a + n ∧ admits p c = false := by
  unfold streamRead at h
  split at h
  · next hf => cases h; exact ⟨(firstRefused_some hf).1, (firstRefused_some hf).2.1, (firstRefused_some hf).2.2.1⟩
  · cases h

theorem streamRead_of_admitted {p : Platform} {m : Memory} {v s a n : Nat}
    (h : ∀ d, a ≤ d → d < a + n → admits p d = true) : streamRead p m v s a n = .ok (unle (seenBytes p m v s a n)) := by
  rw [streamRead, firstRefused_none.mpr h]

/-! ## Writes -/

theorem memWrite_ok {p : Platform} {m m' : Memory} {a : Nat} {bs : List Byte} (h : memWrite p m a bs = .ok m') :
    m' = m.writeBytes a bs ∧ ∀ d, a ≤ d → d < a + bs.length → admits p d = true := by
  unfold memWrite at h
  split at h
  · cases h
  · next hf => cases h; exact ⟨rfl, firstRefused_none.mp hf⟩

theorem memWrite_error {p : Platform} {m : Memory} {a c : Nat} {bs : List Byte} (h : memWrite p m a bs = .error c) :
    a ≤ c ∧ c < a + bs.length ∧ admits p c = false := by
  unfold memWrite at h
  split at h
  · next hf => cases h; exact ⟨(firstRefused_some hf).1, (firstRefused_some hf).2.1, (firstRefused_some hf).2.2.1⟩
  · cases h

theorem memWrite_of_admitted {p : Platform} {m : Memory} {a : Nat} {bs : List Byte}
    (h : ∀ d, a ≤ d → d < a + bs.length → admits p d = true) : memWrite p m a bs = .ok (m.writeBytes a bs) := by
  rw [memWrite, firstRefused_none.mpr h]

end Sys2Proof.Machine
end

