-- ==== Sys2Proof/Laws/Encoding.lean ====
section
/-! SUPPORT. Byte sequences, tag lanes, tag regions and records: what the encoders write, the decoders read. -/

namespace Sys2Proof

@[simp] theorem leBytes_length (n v : Nat) : (leBytes n v).length = n := by
  induction n generalizing v with
  | zero => rfl
  | succ n ih => simp [leBytes, ih]

/-- `unle` inverts `le` (R8). -/
theorem unle_leBytes (n v : Nat) : unle (leBytes n v) = v % 256 ^ n := by
  induction n generalizing v with
  | zero => simp [leBytes, unle, Nat.mod_one]
  | succ n ih =>
    have h : v % 256 ^ (n + 1) = v % 256 + 256 * (v / 256 % 256 ^ n) := by rw [Nat.pow_succ', Nat.mod_mul]
    rw [leBytes, unle, ih, BitVec.toNat_ofNat, h]

/-- Four little-endian bytes of a word spell the word. -/
theorem ofNat_unle_leBytes (w : Word) : BitVec.ofNat 32 (unle (leBytes 4 w.toNat)) = w := by
  rw [unle_leBytes]
  apply BitVec.eq_of_toNat_eq
  rw [BitVec.toNat_ofNat]
  have := w.isLt
  omega

@[simp] theorem ofCode_code (t : Tag) : Tag.ofCode t.code = t := by cases t <;> decide

theorem tagByteOf_concat (ts : List Tag) (t : Tag) (h : ts.length < 4) :
    insertTag (tagByteOf ts) t ts.length = tagByteOf (ts ++ [t]) := by
  match ts, h with
  | [], _ => cases t <;> decide
  | [a], _ => cases a <;> cases t <;> decide
  | [a, b], _ => cases a <;> cases b <;> cases t <;> decide
  | [a, b, c], _ => cases a <;> cases b <;> cases c <;> cases t <;> decide

theorem tagLane_first (t : Tag) : ∀ x : Byte, tagLane (t.code.setWidth 8 ||| (x <<< 2)) 0 = t.code := by
  cases t <;> decide

theorem tagLane_next (t : Tag) {j : Nat} (hj : j < 3) :
    ∀ x : Byte, tagLane (t.code.setWidth 8 ||| (x <<< 2)) (j + 1) = tagLane x j := by
  match j, hj with
  | 0, _ => cases t <;> decide
  | 1, _ => cases t <;> decide
  | 2, _ => cases t <;> decide

/-- Lane `j` of the tag byte of a group is the tag of its element `j` (R86). -/
theorem tagLane_tagByteOf (ts : List Tag) (j : Nat) (h : ts.length ≤ 4) (hj : j < ts.length) :
    Tag.ofCode (tagLane (tagByteOf ts) j) = ts[j] := by
  induction ts generalizing j with
  | nil => simp at hj
  | cons t ts ih =>
    cases j with
    | zero => simp [tagByteOf, tagLane_first]
    | succ j =>
      simp only [List.length_cons] at h hj
      rw [tagByteOf, tagLane_next t (by omega)]
      simpa using ih j (by omega) (by omega)

/-- The tag region has `ceil(N/4)` bytes (R83). -/
theorem packTags_length (ts : List Tag) : (packTags ts).length = tagBytes ts.length := by
  fun_induction packTags ts with
  | case1 a b c d ts ih => simp only [List.length_cons, ih, tagBytes]; omega
  | case2 => rfl
  | case3 ts h₁ h₂ =>
    match ts, h₁, h₂ with
    | [_], _, _ => simp [tagBytes]
    | [_, _], _, _ => simp [tagBytes]
    | [_, _, _], _, _ => simp [tagBytes]
    | [], _, h₂ => exact (h₂ rfl).elim
    | a :: b :: c :: d :: ts, h₁, _ => exact (h₁ a b c d ts rfl).elim

theorem packTags_short (ts : List Tag) (h₁ : ts ≠ []) (h₂ : ts.length < 4) : packTags ts = [tagByteOf ts] := by
  match ts, h₁, h₂ with
  | [_], _, _ => rfl
  | [_, _], _, _ => rfl
  | [_, _, _], _, _ => rfl
  | a :: b :: c :: d :: ts, _, h₂ => simp only [List.length_cons] at h₂; omega

theorem packTags_group (ts rest : List Tag) (h : ts.length = 4) : packTags (ts ++ rest) = tagByteOf ts :: packTags rest := by
  match ts, h with
  | [a, b, c, d], _ => rfl

/-- The tag read for element `i` from a packed tag region is the tag of element `i` (R86). -/
theorem tagAt_packTags (ts : List Tag) (i : Nat) (h : i < ts.length) : tagAt (packTags ts) i = ts[i] := by
  fun_induction packTags ts generalizing i with
  | case1 a b c d ts ih =>
    by_cases hi : i < 4
    · have h4 := tagLane_tagByteOf [a, b, c, d] i (by simp) (by simpa using hi)
      unfold tagAt
      rw [show i / 4 = 0 by omega, show i % 4 = i by omega]
      simp only [List.getD_cons_zero, h4]
      exact (List.getElem_append_left (as := [a, b, c, d]) (bs := ts) (by simpa using hi)).symm
    · obtain ⟨k, rfl⟩ : ∃ k, i = k + 4 := ⟨i - 4, by omega⟩
      have hk := ih k (by simp only [List.length_cons] at h; omega)
      unfold tagAt at hk ⊢
      rw [show (k + 4) / 4 = k / 4 + 1 by omega, show (k + 4) % 4 = k % 4 by omega]
      simpa using hk
  | case2 => simp at h
  | case3 ts h₁ h₂ =>
    have hl : ts.length < 4 := by
      match ts, h₁ with
      | [], _ => simp
      | [_], _ => simp
      | [_, _], _ => simp
      | [_, _, _], _ => simp
      | a :: b :: c :: d :: ts, h₁ => exact (h₁ a b c d ts rfl).elim
    unfold tagAt
    rw [show i / 4 = 0 by omega, show i % 4 = i by omega]
    exact tagLane_tagByteOf ts i (by omega) h

/-- Unpacking a packed tag region gives the tags back, whatever stands after it. -/
theorem unpackTags_packTags (ts : List Tag) : unpackTags ts.length (packTags ts) = ts := by
  apply List.ext_getElem
  · simp [unpackTags]
  · intro i h₁ h₂
    simp only [unpackTags, List.getElem_map, List.getElem_range]
    exact tagAt_packTags ts i h₂

/-- The records whose payloads stand one after the other are found by their tags (R91). -/
theorem takeRecs_payloads (rs : List Rec) (h : rs.all Rec.wellFormed = true) (rest : List Byte) :
    takeRecs (rs.map Rec.tag) (rs.flatMap Rec.payload ++ rest) = some (rs, rest) := by
  induction rs with
  | nil => rfl
  | cons r rs ih =>
    simp only [List.all_cons, Bool.and_eq_true, Rec.wellFormed, decide_eq_true_eq] at h
    simp only [List.map_cons, takeRecs, List.flatMap_cons, List.append_assoc, takeRec]
    rw [if_pos (by simp [h.1])]
    simp only [← h.1, List.take_left', List.drop_left']
    simp [ih h.2]

end Sys2Proof

namespace Sys2Proof.Machine

theorem toSigned_eq_toInt (u : Word) : toSigned u = u.toInt := by
  unfold toSigned
  rw [BitVec.toInt_eq_toNat_cond]
  have := u.isLt
  split <;> split <;> omega

@[simp] theorem payload_length (t : Tag) (d : Word) : (payload t d).length = resLen t := by simp [payload]

theorem recordOf_wellFormed_aux (common d : Word) :
    (payload (classify common d) d).length = resLen (classify common d) := payload_length _ _

theorem sext8_of_fits8 {d : Word} (h : fits8 d = true) : sext8 (d.toNat % 256) = d := by
  simp only [fits8, toSigned_eq_toInt, Bool.and_eq_true, decide_eq_true_eq] at h
  apply BitVec.eq_of_toInt_eq
  rw [sext8, BitVec.toInt_signExtend_of_le (by omega), BitVec.toInt_eq_toNat_bmod, BitVec.toNat_ofNat]
  rw [BitVec.toInt_eq_toNat_bmod] at h ⊢
  simp only [Int.bmod_def] at h ⊢
  have := d.isLt
  omega

theorem sext16_of_fits16 {d : Word} (h : fits16 d = true) : sext16 (d.toNat % 65536) = d := by
  simp only [fits16, toSigned_eq_toInt, Bool.and_eq_true, decide_eq_true_eq] at h
  apply BitVec.eq_of_toInt_eq
  rw [sext16, BitVec.toInt_signExtend_of_le (by omega), BitVec.toInt_eq_toNat_bmod, BitVec.toNat_ofNat]
  rw [BitVec.toInt_eq_toNat_bmod] at h ⊢
  simp only [Int.bmod_def] at h ⊢
  have := d.isLt
  omega

end Sys2Proof.Machine
end

