-- ==== Sys2Proof/Laws/State.lean ====
section
/-! SUPPORT. One lemma per field for each update of the state, so that no later proof unfolds a record update. -/

namespace Sys2Proof.Machine

section setWork
variable (s : State) (w : Work)
@[simp] theorem setWork_work : (s.setWork w).inst.work = some w := rfl
@[simp] theorem setWork_base : (s.setWork w).inst.base = s.inst.base := rfl
@[simp] theorem setWork_cmd : (s.setWork w).inst.cmd = s.inst.cmd := rfl
@[simp] theorem setWork_src : (s.setWork w).inst.src = s.inst.src := rfl
@[simp] theorem setWork_dst : (s.setWork w).inst.dst = s.inst.dst := rfl
@[simp] theorem setWork_count : (s.setWork w).inst.count = s.inst.count := rfl
@[simp] theorem setWork_result : (s.setWork w).inst.result = s.inst.result := rfl
@[simp] theorem setWork_status : (s.setWork w).inst.status = s.inst.status := rfl
@[simp] theorem setWork_faddr : (s.setWork w).inst.faddr = s.inst.faddr := rfl
@[simp] theorem setWork_others : (s.setWork w).others = s.others := rfl
@[simp] theorem setWork_mem : (s.setWork w).mem = s.mem := rfl
@[simp] theorem setWork_plat : (s.setWork w).plat = s.plat := rfl
@[simp] theorem setWork_queue : (s.setWork w).queue = s.queue := rfl
@[simp] theorem setWork_hostIn : (s.setWork w).hostIn = s.hostIn := rfl
@[simp] theorem setWork_draws : (s.setWork w).draws = s.draws := rfl
@[simp] theorem setWork_faultLog : (s.setWork w).faultLog = s.faultLog := rfl
end setWork

section endOK
variable (s : State) (m : Memory) (r : Nat)
@[simp] theorem endOK_work : (endOK s m r).inst.work = none := rfl
@[simp] theorem endOK_base : (endOK s m r).inst.base = s.inst.base := rfl
@[simp] theorem endOK_cmd : (endOK s m r).inst.cmd = s.inst.cmd := rfl
@[simp] theorem endOK_src : (endOK s m r).inst.src = s.inst.src := rfl
@[simp] theorem endOK_dst : (endOK s m r).inst.dst = s.inst.dst := rfl
@[simp] theorem endOK_count : (endOK s m r).inst.count = s.inst.count := rfl
@[simp] theorem endOK_result : (endOK s m r).inst.result = BitVec.ofNat 64 r := rfl
@[simp] theorem endOK_status : (endOK s m r).inst.status = statusWord codeOK := rfl
@[simp] theorem endOK_faddr : (endOK s m r).inst.faddr = s.inst.faddr := rfl
@[simp] theorem endOK_others : (endOK s m r).others = s.others := rfl
@[simp] theorem endOK_mem : (endOK s m r).mem = m := rfl
@[simp] theorem endOK_plat : (endOK s m r).plat = s.plat := rfl
@[simp] theorem endOK_queue : (endOK s m r).queue = s.queue := rfl
@[simp] theorem endOK_hostIn : (endOK s m r).hostIn = s.hostIn := rfl
@[simp] theorem endOK_draws : (endOK s m r).draws = s.draws := rfl
@[simp] theorem endOK_faultLog : (endOK s m r).faultLog = s.faultLog := rfl
end endOK

section endDec
variable (s : State) (m : Memory) (n : Nat)
@[simp] theorem endDec_work : (endDec s m n).inst.work = none := rfl
@[simp] theorem endDec_base : (endDec s m n).inst.base = s.inst.base := rfl
@[simp] theorem endDec_cmd : (endDec s m n).inst.cmd = s.inst.cmd := rfl
@[simp] theorem endDec_src : (endDec s m n).inst.src = s.inst.src := rfl
@[simp] theorem endDec_dst : (endDec s m n).inst.dst = s.inst.dst := rfl
@[simp] theorem endDec_count : (endDec s m n).inst.count = s.inst.count := rfl
@[simp] theorem endDec_result : (endDec s m n).inst.result = BitVec.ofNat 64 n := rfl
@[simp] theorem endDec_status : (endDec s m n).inst.status = statusWord codeOK := rfl
@[simp] theorem endDec_faddr : (endDec s m n).inst.faddr = s.inst.faddr := rfl
@[simp] theorem endDec_others : (endDec s m n).others = s.others := rfl
@[simp] theorem endDec_mem : (endDec s m n).mem = m := rfl
@[simp] theorem endDec_plat : (endDec s m n).plat = s.plat := rfl
@[simp] theorem endDec_queue : (endDec s m n).queue = s.queue := rfl
@[simp] theorem endDec_hostIn : (endDec s m n).hostIn = s.hostIn := rfl
@[simp] theorem endDec_draws : (endDec s m n).draws = s.draws + 1 := rfl
@[simp] theorem endDec_faultLog : (endDec s m n).faultLog = s.faultLog := rfl
end endDec

section endFault
variable (s : State) (e : Err)
@[simp] theorem endFault_work : (endFault s e).inst.work = none := rfl
@[simp] theorem endFault_base : (endFault s e).inst.base = s.inst.base := rfl
@[simp] theorem endFault_cmd : (endFault s e).inst.cmd = s.inst.cmd := rfl
@[simp] theorem endFault_src : (endFault s e).inst.src = s.inst.src := rfl
@[simp] theorem endFault_dst : (endFault s e).inst.dst = s.inst.dst := rfl
@[simp] theorem endFault_count : (endFault s e).inst.count = s.inst.count := rfl
@[simp] theorem endFault_result : (endFault s e).inst.result = 0 := rfl
@[simp] theorem endFault_status : (endFault s e).inst.status = statusWord e.code := rfl
@[simp] theorem endFault_faddr : (endFault s e).inst.faddr = s.inst.faddr := rfl
@[simp] theorem endFault_others : (endFault s e).others = s.others := rfl
@[simp] theorem endFault_mem : (endFault s e).mem = s.mem := rfl
@[simp] theorem endFault_plat : (endFault s e).plat = s.plat := rfl
@[simp] theorem endFault_queue : (endFault s e).queue = s.queue := rfl
@[simp] theorem endFault_hostIn : (endFault s e).hostIn = s.hostIn := rfl
@[simp] theorem endFault_draws : (endFault s e).draws = s.draws := rfl
@[simp] theorem endFault_faultLog : (endFault s e).faultLog = e :: s.faultLog := rfl
end endFault

section endAccessFault
variable (s : State) (a out len : Nat)
@[simp] theorem endAccessFault_work : (endAccessFault s a out len).inst.work = none := rfl
@[simp] theorem endAccessFault_base : (endAccessFault s a out len).inst.base = s.inst.base := rfl
@[simp] theorem endAccessFault_cmd : (endAccessFault s a out len).inst.cmd = s.inst.cmd := rfl
@[simp] theorem endAccessFault_src : (endAccessFault s a out len).inst.src = s.inst.src := rfl
@[simp] theorem endAccessFault_dst : (endAccessFault s a out len).inst.dst = s.inst.dst := rfl
@[simp] theorem endAccessFault_count : (endAccessFault s a out len).inst.count = s.inst.count := rfl
@[simp] theorem endAccessFault_result : (endAccessFault s a out len).inst.result = 0 := rfl
@[simp] theorem endAccessFault_status :
    (endAccessFault s a out len).inst.status = statusWord Err.accessFault.code := rfl
@[simp] theorem endAccessFault_faddr : (endAccessFault s a out len).inst.faddr = BitVec.ofNat 64 a := rfl
@[simp] theorem endAccessFault_others : (endAccessFault s a out len).others = s.others := rfl
@[simp] theorem endAccessFault_mem : (endAccessFault s a out len).mem = s.mem.havoc out len s.draws := rfl
@[simp] theorem endAccessFault_plat : (endAccessFault s a out len).plat = s.plat := rfl
@[simp] theorem endAccessFault_queue : (endAccessFault s a out len).queue = s.queue := rfl
@[simp] theorem endAccessFault_hostIn : (endAccessFault s a out len).hostIn = s.hostIn := rfl
@[simp] theorem endAccessFault_draws : (endAccessFault s a out len).draws = s.draws + len := rfl
@[simp] theorem endAccessFault_faultLog :
    (endAccessFault s a out len).faultLog = .accessFault :: s.faultLog := rfl
end endAccessFault

section resetOther
variable (s : State) (b : Nat)
@[simp] theorem resetOther_inst : (resetOther s b).inst = s.inst := rfl
@[simp] theorem resetOther_mem : (resetOther s b).mem = s.mem := rfl
@[simp] theorem resetOther_plat : (resetOther s b).plat = s.plat := rfl
@[simp] theorem resetOther_queue : (resetOther s b).queue = s.queue := rfl
@[simp] theorem resetOther_draws : (resetOther s b).draws = s.draws := rfl
end resetOther

end Sys2Proof.Machine
end

