-- ==== Sys2Proof/Laws/Records.lean ====
section
/-! SUPPORT. What packing, executing and ending an element can do, said once for all four records. -/

namespace Sys2Proof.Machine

/-- Packing is one operation whose payload length the tag gives (R164 to R167). -/
theorem packOf_eq (t : Tag) (p : Platform) (m : Memory) (w : Work) :
    packOf t p m w = writePayload p m (w.addTag t) (payload t w.delta) := by cases t <;> rfl

/-- Executing is one operation whose payload length the tag gives (R170 to R173). -/
theorem unpackOf_eq (t : Tag) (p : Platform) (m : Memory) (w : Work) :
    unpackOf t p m w = readPayload p m { w with tag := t } (resLen t) (fun v => deltaOfPayload w.common v t) := by
  cases t <;> rfl

/-- If packing succeeds, the payload stands at the cursor and the cursor is past it. -/
theorem packOf_ok {t : Tag} {p : Platform} {m m' : Memory} {w w' : Work} (h : packOf t p m w = .ok (m', w')) :
    m' = m.writeBytes w.resCur (payload t w.delta) ∧
    w' = { w.addTag t with resCur := w.resCur + resLen t } ∧
    ∀ a, w.resCur ≤ a → a < w.resCur + resLen t → admits p a = true := by
  rw [packOf_eq] at h
  unfold writePayload at h
  split at h
  · cases h
  · next hw =>
    cases h
    obtain ⟨h₁, h₂⟩ := memWrite_ok hw
    refine ⟨h₁, by simp [Work.addTag], ?_⟩
    rw [payload_length] at h₂
    exact h₂

/-- If packing fails, a byte of the payload's place is refused. -/
theorem packOf_error {t : Tag} {p : Platform} {m : Memory} {w : Work} {a : Nat} (h : packOf t p m w = .error a) :
    w.resCur ≤ a ∧ a < w.resCur + resLen t ∧ admits p a = false := by
  rw [packOf_eq] at h
  unfold writePayload at h
  split at h
  · next hw =>
    cases h
    have := memWrite_error hw
    rwa [payload_length] at this
  · cases h

theorem packOf_of_admitted {t : Tag} {p : Platform} {m : Memory} {w : Work}
    (h : ∀ a, w.resCur ≤ a → a < w.resCur + resLen t → admits p a = true) :
    packOf t p m w =
      .ok (m.writeBytes w.resCur (payload t w.delta), { w.addTag t with resCur := w.resCur + resLen t }) := by
  rw [packOf_eq, writePayload]
  have : memWrite p m (w.addTag t).resCur (payload t w.delta) =
      .ok (m.writeBytes (w.addTag t).resCur (payload t w.delta)) :=
    memWrite_of_admitted (by rw [payload_length]; exact h)
  rw [this]
  simp [Work.addTag]

/-- Whether the tag byte of a group is stored after the current element (R168). -/
abbrev Work.endsGroup (w : Work) : Prop := w.i % 4 = 3 ∨ w.i + 1 = w.n

/-- If the end of an element succeeds, the tag byte has been stored where its group ends, and nothing else. -/
theorem flushTag_ok {p : Platform} {m m' : Memory} {w w' : Work} (h : flushTag p m w = .ok (m', w')) :
    (w.endsGroup ∧ m' = m.writeBytes (w.dst + 4 + w.i / 4) [w.tagByte] ∧ w' = { w with tagByte := 0#8, i := w.i + 1 } ∧
      admits p (w.dst + 4 + w.i / 4) = true) ∨
    (¬ w.endsGroup ∧ m' = m ∧ w' = { w with i := w.i + 1 }) := by
  unfold flushTag at h
  split at h
  · next hg =>
    split at h
    · cases h
    · next hw =>
      cases h
      obtain ⟨h₁, h₂⟩ := memWrite_ok hw
      exact .inl ⟨hg, h₁, rfl, h₂ _ (by omega) (by simp)⟩
  · next hg => cases h; exact .inr ⟨hg, rfl, rfl⟩

theorem flushTag_error {p : Platform} {m : Memory} {w : Work} {a : Nat} (h : flushTag p m w = .error a) :
    w.endsGroup ∧ a = w.dst + 4 + w.i / 4 ∧ admits p a = false := by
  unfold flushTag at h
  split at h
  · next hg =>
    split at h
    · next hw =>
      cases h
      obtain ⟨h₁, h₂, h₃⟩ := memWrite_error hw
      simp only [List.length_cons, List.length_nil] at h₂
      exact ⟨hg, by omega, h₃⟩
    · cases h
  · cases h

/-- If executing succeeds, the delta is that of the payload bytes at the cursor, and the cursor is past them. -/
theorem unpackOf_ok {t : Tag} {p : Platform} {m : Memory} {w w' : Work} (h : unpackOf t p m w = .ok w') :
    w' = { w with
           tag := t
           delta := deltaOfPayload w.common (unle (seenBytes p m w.view w.src w.resCur (resLen t))) t
           resCur := w.resCur + resLen t } ∧
    ∀ a, w.resCur ≤ a → a < w.resCur + resLen t → admits p a = true := by
  rw [unpackOf_eq] at h
  unfold readPayload at h
  split at h
  · cases h
  · next hr =>
    cases h
    obtain ⟨h₁, h₂⟩ := streamRead_ok hr
    exact ⟨by rw [h₁], h₂⟩

theorem unpackOf_error {t : Tag} {p : Platform} {m : Memory} {w : Work} {a : Nat} (h : unpackOf t p m w = .error a) :
    w.resCur ≤ a ∧ a < w.resCur + resLen t ∧ admits p a = false := by
  rw [unpackOf_eq] at h
  unfold readPayload at h
  split at h
  · next hr => cases h; exact streamRead_error hr
  · cases h

theorem unpackOf_of_admitted {t : Tag} {p : Platform} {m : Memory} {w : Work}
    (h : ∀ a, w.resCur ≤ a → a < w.resCur + resLen t → admits p a = true) :
    unpackOf t p m w =
      .ok { w with
            tag := t
            delta := deltaOfPayload w.common (unle (seenBytes p m w.view w.src w.resCur (resLen t))) t
            resCur := w.resCur + resLen t } := by
  rw [unpackOf_eq, readPayload]
  have : streamRead p m ({ w with tag := t } : Work).view ({ w with tag := t } : Work).src
        ({ w with tag := t } : Work).resCur (resLen t) =
      .ok (unle (seenBytes p m ({ w with tag := t } : Work).view ({ w with tag := t } : Work).src
        ({ w with tag := t } : Work).resCur (resLen t))) :=
    streamRead_of_admitted h
  rw [this]

/-- If accumulation succeeds, the element stands in its place and the index has moved on. -/
theorem accumulate_ok {p : Platform} {m m' : Memory} {w w' : Work} (h : accumulate p m w = .ok (m', w')) :
    m' = m.writeBytes (w.dst + 4 * w.i) (leBytes 4 (accumulated w.acc w.delta).toNat) ∧
    w' = { w with acc := accumulated w.acc w.delta, i := w.i + 1 } ∧
    ∀ a, w.dst + 4 * w.i ≤ a → a < w.dst + 4 * w.i + 4 → admits p a = true := by
  unfold accumulate at h
  split at h
  · cases h
  · next hw =>
    cases h
    obtain ⟨h₁, h₂⟩ := memWrite_ok hw
    exact ⟨h₁, rfl, by simpa using h₂⟩

theorem accumulate_error {p : Platform} {m : Memory} {w : Work} {a : Nat} (h : accumulate p m w = .error a) :
    w.dst + 4 * w.i ≤ a ∧ a < w.dst + 4 * w.i + 4 ∧ admits p a = false := by
  unfold accumulate at h
  split at h
  · next hw => cases h; simpa using memWrite_error hw
  · cases h

theorem accumulate_of_admitted {p : Platform} {m : Memory} {w : Work}
    (h : ∀ a, w.dst + 4 * w.i ≤ a → a < w.dst + 4 * w.i + 4 → admits p a = true) :
    accumulate p m w =
      .ok (m.writeBytes (w.dst + 4 * w.i) (leBytes 4 (accumulated w.acc w.delta).toNat),
           { w with acc := accumulated w.acc w.delta, i := w.i + 1 }) := by
  rw [accumulate, memWrite_of_admitted (by simpa using h)]

/-- The tag fetched for an element is the one in its lane of its tag byte (R169). -/
theorem fetchTag_of_admitted {p : Platform} {m : Memory} {w : Work} (h : admits p (w.src + 4 + w.i / 4) = true) :
    fetchTag p m w =
      .ok { w with
            tagByte := seenByte p m w.view w.src (w.src + 4 + w.i / 4)
            tag := Tag.ofCode (tagLane (seenByte p m w.view w.src (w.src + 4 + w.i / 4)) (w.i % 4)) } := by
  have hr : streamRead p m w.view w.src (w.src + 4 + w.i / 4) 1 =
      .ok (unle (seenBytes p m w.view w.src (w.src + 4 + w.i / 4) 1)) :=
    streamRead_of_admitted fun a h₁ h₂ => by rwa [show a = w.src + 4 + w.i / 4 by omega]
  rw [fetchTag, hr]
  simp [seenBytes, unle]

theorem fetchTag_error {p : Platform} {m : Memory} {w : Work} {a : Nat} (h : fetchTag p m w = .error a) :
    a = w.src + 4 + w.i / 4 ∧ admits p a = false := by
  unfold fetchTag at h
  split at h
  · next hr =>
    cases h
    obtain ⟨h₁, h₂, h₃⟩ := streamRead_error hr
    exact ⟨by omega, h₃⟩
  · cases h

theorem fetchTag_ok {p : Platform} {m : Memory} {w w' : Work} (h : fetchTag p m w = .ok w') :
    w' = { w with
           tagByte := seenByte p m w.view w.src (w.src + 4 + w.i / 4)
           tag := Tag.ofCode (tagLane (seenByte p m w.view w.src (w.src + 4 + w.i / 4)) (w.i % 4)) } ∧
    admits p (w.src + 4 + w.i / 4) = true := by
  have hr : admits p (w.src + 4 + w.i / 4) = true := by
    unfold fetchTag at h
    split at h
    · cases h
    · next hr => exact (streamRead_ok hr).2 _ (by omega) (by omega)
  rw [fetchTag_of_admitted hr] at h
  cases h
  exact ⟨rfl, hr⟩

/-! ## The records as instructions -/

/-- Everything a record can do: it is refused outside a pass with an element left, and otherwise the element is executed
(decode pass) or packed (emission pass), to its end or to an ACCESS_FAULT. -/
theorem execRecord_cases (t : Tag) (s : State) :
    (execRecord (unpackOf t) (packOf t) s = .refused .recordOutsidePass ∧
      ∀ w, s.inst.work = some w → w.i < w.n → w.pass ≠ .dec ∧ w.pass ≠ .emit) ∨
    ∃ w, s.inst.work = some w ∧ w.i < w.n ∧
      ((w.pass = .dec ∧
        execRecord (unpackOf t) (packOf t) s = .next (afterRecord s w (decRecord (unpackOf t) s.plat s.mem w))) ∨
       (w.pass = .emit ∧
        execRecord (unpackOf t) (packOf t) s = .next (afterRecord s w (emitRecord (packOf t) s.plat s.mem w)))) := by
  unfold execRecord
  cases hw : s.inst.work with
  | none => exact .inl ⟨by simp, fun _ h => by cases h⟩
  | some w =>
    by_cases hi : w.i < w.n
    · simp only [hi, if_true]
      cases hp : w.pass with
      | hist => exact .inl ⟨by simp, fun v hv _ => by cases hv; simp [hp]⟩
      | header => exact .inl ⟨by simp, fun v hv _ => by cases hv; simp [hp]⟩
      | dec => exact .inr ⟨w, rfl, hi, .inl ⟨hp, by simp⟩⟩
      | emit => exact .inr ⟨w, rfl, hi, .inr ⟨hp, by simp⟩⟩
    · simp only [hi, if_false]
      exact .inl ⟨by simp, fun v hv h => by cases hv; exact absurd h hi⟩

end Sys2Proof.Machine
end

