-- ==== Sys2Proof/Laws/Loops.lean ====
section
/-! SUPPORT. What the passes of ENC and DEC do when their ranges are admitted: the histogram pass counts the deltas, the
emission pass writes the tag region and the residual region, the decode pass writes the running sums. -/

namespace Sys2Proof.Machine

/-- The payload bytes of a list of deltas under a common value. -/
def residuals (common : Word) (ds : List Word) : List Byte := ds.flatMap fun d => payload (classify common d) d

@[simp] theorem residuals_nil (c : Word) : residuals c [] = [] := rfl

theorem residuals_cons (c d : Word) (ds : List Word) :
    residuals c (d :: ds) = payload (classify c d) d ++ residuals c ds := rfl

@[simp] theorem deltasFrom_length (prev : Word) (xs : List Word) : (deltasFrom prev xs).length = xs.length := by
  induction xs generalizing prev with
  | nil => rfl
  | cons x xs ih => simp [deltasFrom, ih]

theorem readInput_of_admitted {p : Platform} {m : Memory} {w : Work}
    (h : ∀ a, w.src + 4 * w.i ≤ a → a < w.src + 4 * w.i + 4 → admits p a = true) :
    readInput p m w = .ok (m.word w.src w.i) := by
  rw [readInput, memRead_of_admitted h]; rfl

/-- The histogram pass counts the deltas of the elements it reads (R134). -/
theorem histLoop_spec (p : Platform) (m : Memory) (xs : List Word) (w : Work)
    (hx : ∀ j (h : j < xs.length), m.word w.src (w.i + j) = xs[j])
    (ha : ∀ a, w.src + 4 * w.i ≤ a → a < w.src + 4 * w.i + 4 * xs.length → admits p a = true) :
    ∃ w', histLoop p m xs.length w = .ok w' ∧ w'.hist = (deltasFrom w.prev xs).foldl histBump w.hist ∧
      w'.src = w.src ∧ w'.dst = w.dst ∧ w'.n = w.n ∧ w'.pass = w.pass := by
  induction xs generalizing w with
  | nil => exact ⟨w, rfl, rfl, rfl, rfl, rfl, rfl⟩
  | cons x xs ih =>
    have h0 : m.word w.src w.i = x := hx 0 (by simp)
    simp only [List.length_cons] at ha
    have hr : readInput p m w = .ok x := by
      rw [readInput_of_admitted fun a h₁ h₂ => ha a h₁ (by omega), h0]
    simp only [List.length_cons, histLoop, histElem, hr]
    obtain ⟨w', h₁, h₂, h₃, h₄, h₅, h₆⟩ :=
      ih { w with delta := deltaOf w.prev x, hist := histBump w.hist (deltaOf w.prev x), prev := x, i := w.i + 1 }
        (fun j h => by
          have := hx (j + 1) (by simpa using h)
          simpa [Nat.add_assoc, Nat.add_comm 1 j] using this)
        (fun a h₁ h₂ => ha a (by simp only at h₁; omega) (by simp only at h₂; omega))
    exact ⟨w', h₁, by rw [h₂]; simp [deltasFrom], h₃, h₄, h₅, h₆⟩

/-- The emission pass, from any element on: `ts` are the tags of the current group that stand in `tagByte` already. It
writes the rest of the tag region and the rest of the residual region and nothing else (R137, R163 to R168). -/
theorem emitLoop_spec (p : Platform) (xs : List Word) (m : Memory) (w : Work) (ts : List Tag)
    (hm : m.wf = true) (hn : w.i + xs.length = w.n)
    (hts : xs ≠ [] → ts.length = w.i % 4) (hts' : xs = [] → ts = []) (htb : w.tagByte = tagByteOf ts)
    (hx : ∀ j (h : j < xs.length), m.word w.src (w.i + j) = xs[j])
    (hain : ∀ a, w.src ≤ a → a < w.src + 4 * w.n → admits p a = true)
    (hatag : ∀ a, w.dst ≤ a → a < w.resCur + (residuals w.common (deltasFrom w.prev xs)).length → admits p a = true)
    (hcur : w.dst + 4 + tagBytes w.n ≤ w.resCur)
    (hdis : w.src + 4 * w.n ≤ w.dst ∨ w.resCur + (residuals w.common (deltasFrom w.prev xs)).length ≤ w.src) :
    ∃ m' w', emitLoop p xs.length m w = .ok (m', w') ∧ m'.wf = true ∧
      w'.resCur = w.resCur + (residuals w.common (deltasFrom w.prev xs)).length ∧ w'.dst = w.dst ∧
      m'.readBytes w.resCur (residuals w.common (deltasFrom w.prev xs)).length =
        residuals w.common (deltasFrom w.prev xs) ∧
      m'.readBytes (w.dst + 4 + w.i / 4) (packTags (ts ++ (deltasFrom w.prev xs).map (classify w.common))).length =
        packTags (ts ++ (deltasFrom w.prev xs).map (classify w.common)) ∧
      ∀ a, (a < w.dst + 4 + w.i / 4 ∨ w.dst + 4 + tagBytes w.n ≤ a) →
        (a < w.resCur ∨ w.resCur + (residuals w.common (deltasFrom w.prev xs)).length ≤ a) → m'.read a = m.read a := by
  induction xs generalizing m w ts with
  | nil =>
    obtain rfl := hts' rfl
    exact ⟨m, w, rfl, hm, rfl, rfl, rfl, rfl, fun _ _ _ => rfl⟩
  | cons x xs ih =>
    have hts := hts (by simp)
    have h0 : m.word w.src w.i = x := hx 0 (by simp)
    simp only [List.length_cons] at hn
    have hr : readInput p m w = .ok x := by
      rw [readInput_of_admitted fun a h₁ h₂ => hain a (by omega) (by omega), h0]
    simp only [deltasFrom, residuals_cons, List.length_append, payload_length] at hatag hdis ⊢
    generalize hd : deltaOf w.prev x = d at *
    generalize ht : classify w.common d = t at *
    generalize hres : residuals w.common (deltasFrom x xs) = res at *
    have htb' : w.i / 4 < tagBytes w.n := by unfold tagBytes; omega
    -- the element is fetched, packed
    let w₁ : Work := { w with delta := d, prev := x, tag := t }
    have hf : fetchDelta p m w = .ok w₁ := by simp [fetchDelta, hr, hd, ht, w₁]
    have hp := packOf_of_admitted (t := t) (p := p) (m := m) (w := w₁)
      (fun a h₁ h₂ => hatag a (by simp only [w₁] at h₁; omega) (by simp only [w₁] at h₂; omega))
    let m₁ := m.writeBytes w.resCur (payload t d)
    let w₂ : Work := { w₁.addTag t with resCur := w.resCur + resLen t }
    have hm₁ : m₁.wf = true := wf_writeBytes hm _ _
    have htag : w₂.tagByte = tagByteOf (ts ++ [t]) := by
      have := tagByteOf_concat ts t (by omega)
      simp only [w₂, Work.addTag, w₁, htb, ← hts, this]
    have hwords : ∀ {m₂ : Memory}, (∀ a, w.src ≤ a → a < w.src + 4 * w.n → m₂.read a = m.read a) →
        ∀ j (h : j < xs.length), m₂.word w.src (w.i + 1 + j) = xs[j] := by
      intro m₂ hsame j h
      have := hx (j + 1) (by simpa using h)
      simp only [List.getElem_cons_succ] at this
      rw [← this, show w.i + 1 + j = w.i + (j + 1) by omega]
      unfold Memory.word
      rw [readBytes_congr fun c h₁ h₂ => hsame c (by omega) (by omega)]
    have hlen₁ : (payload t d).length = resLen t := payload_length t d
    -- how the element ends
    by_cases hg : w.i % 4 = 3 ∨ w.i + 1 = w.n
    · -- the tag byte is stored
      let m₂ := m₁.writeBytes (w.dst + 4 + w.i / 4) [tagByteOf (ts ++ [t])]
      let w₃ : Work := { w₂ with tagByte := 0#8, i := w.i + 1 }
      have hfl : flushTag p m₁ w₂ = .ok (m₂, w₃) := by
        unfold flushTag
        rw [if_pos (by simpa [w₂, Work.addTag, w₁] using hg)]
        rw [memWrite_of_admitted (by
          intro a h₁ h₂
          simp only [w₂, Work.addTag, w₁, List.length_cons, List.length_nil] at h₁ h₂
          exact hatag a (by omega) (by omega))]
        simp only [m₂, w₃, htag]
        rfl
      have he : emitElem p m w = .ok (m₂, w₃) := by
        rw [emitElem, hf]
        show emitRecord (packOf t) p m w₁ = _
        rw [emitRecord, hp]
        exact hfl
      have hother : ∀ a, a ≠ w.dst + 4 + w.i / 4 → (a < w.resCur ∨ w.resCur + resLen t ≤ a) → m₂.read a = m.read a := by
        intro a h₁ h₂
        rw [read_writeBytes_other _ _ _ (by simp; omega), read_writeBytes_other _ _ _ (by rw [hlen₁]; omega)]
      obtain ⟨m', w', e₁, e₂, e₃, e₄, e₅, e₆, e₇⟩ := ih m₂ w₃ [] (wf_writeBytes hm₁ _ _)
        (by simp only [w₃, w₂, Work.addTag, w₁]; omega)
        (by
          intro hne
          have : 0 < xs.length := List.length_pos_iff.mpr hne
          simp only [w₃, List.length_nil]; omega)
        (fun _ => rfl) rfl
        (hwords fun a h₁ h₂ => hother a (by omega) (by omega))
        hain
        (by
          simp only [w₃, w₂, Work.addTag, w₁, hres]
          intro a h₁ h₂; exact hatag a h₁ (by omega))
        (by simp only [w₃, w₂, Work.addTag, w₁]; omega)
        (by simp only [w₃, w₂, Work.addTag, w₁, hres]; omega)
      simp only [w₃, w₂, Work.addTag, w₁, hres, List.nil_append] at e₁ e₃ e₄ e₅ e₆ e₇
      refine ⟨m', w', ?_, e₂, by rw [e₃]; omega, e₄, ?_, ?_, ?_⟩
      · simp only [List.length_cons, emitLoop, he]
        exact e₁
      · -- the residual region
        rw [readBytes_append, e₅]
        congr 1
        have : m'.readBytes w.resCur (resLen t) = (m.writeBytes w.resCur (payload t d)).readBytes w.resCur (resLen t) := by
          refine readBytes_congr fun c h₁ h₂ => ?_
          rw [e₇ c (by omega) (by omega)]
          exact read_writeBytes_other _ _ _ (by simp; omega)
        rw [this]
        have := readBytes_writeBytes_same hm w.resCur (payload t d)
        rwa [hlen₁] at this
      · -- the tag region
        have hpk : packTags (ts ++ t :: (deltasFrom x xs).map (classify w.common)) =
            tagByteOf (ts ++ [t]) :: packTags ((deltasFrom x xs).map (classify w.common)) := by
          rcases hg with hg | hg
          · have := packTags_group (ts ++ [t]) ((deltasFrom x xs).map (classify w.common)) (by simp; omega)
            simpa using this
          · have hxs : xs = [] := List.eq_nil_of_length_eq_zero (by omega)
            subst hxs
            by_cases h4 : w.i % 4 = 3
            · have := packTags_group (ts ++ [t]) [] (by simp; omega)
              simpa [deltasFrom] using this
            · have := packTags_short (ts ++ [t]) (by simp) (by simp; omega)
              simpa [deltasFrom, packTags] using this
        simp only [List.map_cons, ht]
        rw [hpk]
        simp only [List.length_cons, Memory.readBytes]
        have hb : m'.read (w.dst + 4 + w.i / 4) = tagByteOf (ts ++ [t]) := by
          have hnext : w.dst + 4 + w.i / 4 < w.dst + 4 + (w.i + 1) / 4 ∨
              w.dst + 4 + tagBytes w.n ≤ w.dst + 4 + w.i / 4 ∨ (w.i + 1 = w.n ∧ w.i % 4 ≠ 3) := by omega
          have hsame : m'.read (w.dst + 4 + w.i / 4) = m₂.read (w.dst + 4 + w.i / 4) := by
            rcases hnext with h | h | ⟨h, h'⟩
            · exact e₇ _ (.inl h) (by omega)
            · exact e₇ _ (.inr h) (by omega)
            · have hxs : xs = [] := List.eq_nil_of_length_eq_zero (by omega)
              subst hxs
              simp only [List.length_nil, emitLoop, Except.ok.injEq, Prod.mk.injEq] at e₁
              rw [← e₁.1]
          rw [hsame]
          exact read_write_same hm₁ _ _
        rw [hb]
        congr 1
        by_cases hxs : xs = []
        · subst hxs; simp [deltasFrom, packTags, Memory.readBytes]
        · have h3 : w.i % 4 = 3 := by
            have : 0 < xs.length := List.length_pos_iff.mpr hxs
            omega
          rw [show w.dst + 4 + w.i / 4 + 1 = w.dst + 4 + (w.i + 1) / 4 by omega]
          exact e₆
      · intro a h₁ h₂
        by_cases hsmall : a < w.dst + 4 + (w.i + 1) / 4 ∨ w.dst + 4 + tagBytes w.n ≤ a
        · rw [e₇ a hsmall (by omega)]
          exact hother a (by omega) (by omega)
        · omega
    · -- the group goes on
      let w₃ : Work := { w₂ with i := w.i + 1 }
      have hfl : flushTag p m₁ w₂ = .ok (m₁, w₃) := by
        unfold flushTag
        rw [if_neg (by simpa [w₂, Work.addTag, w₁] using hg)]
        rfl
      have he : emitElem p m w = .ok (m₁, w₃) := by
        rw [emitElem, hf]
        show emitRecord (packOf t) p m w₁ = _
        rw [emitRecord, hp]
        exact hfl
      have hne : xs ≠ [] := by
        intro h
        subst h
        simp only [List.length_nil] at hn
        omega
      have hother : ∀ a, (a < w.resCur ∨ w.resCur + resLen t ≤ a) → m₁.read a = m.read a := by
        intro a h₁
        exact read_writeBytes_other _ _ _ (by rw [hlen₁]; omega)
      obtain ⟨m', w', e₁, e₂, e₃, e₄, e₅, e₆, e₇⟩ := ih m₁ w₃ (ts ++ [t]) hm₁
        (by simp only [w₃, w₂, Work.addTag, w₁]; omega)
        (by
          intro _
          simp only [w₃, List.length_append, List.length_cons, List.length_nil]; omega)
        (fun h => absurd h hne) htag
        (hwords fun a h₁ h₂ => hother a (by omega))
        hain
        (by
          simp only [w₃, w₂, Work.addTag, w₁, hres]
          intro a h₁ h₂; exact hatag a h₁ (by omega))
        (by simp only [w₃, w₂, Work.addTag, w₁]; omega)
        (by simp only [w₃, w₂, Work.addTag, w₁, hres]; omega)
      simp only [w₃, w₂, Work.addTag, w₁, hres] at e₁ e₃ e₄ e₅ e₆ e₇
      rw [show (w.i + 1) / 4 = w.i / 4 by omega] at e₆ e₇
      refine ⟨m', w', ?_, e₂, by rw [e₃]; omega, e₄, ?_, ?_, ?_⟩
      · simp only [List.length_cons, emitLoop, he]
        exact e₁
      · rw [readBytes_append, e₅]
        congr 1
        have : m'.readBytes w.resCur (resLen t) = (m.writeBytes w.resCur (payload t d)).readBytes w.resCur (resLen t) :=
          readBytes_congr fun c h₁ h₂ => e₇ c (by omega) (by omega)
        rw [this]
        have := readBytes_writeBytes_same hm w.resCur (payload t d)
        rwa [hlen₁] at this
      · simpa [ht] using e₆
      · intro a h₁ h₂
        rw [e₇ a h₁ (by omega)]
        exact hother a (by omega)

/-- The bytes of a word array (R94). -/
def wordBytes (ws : List Word) : List Byte := ws.flatMap fun v => leBytes 4 v.toNat

@[simp] theorem wordBytes_length (ws : List Word) : (wordBytes ws).length = 4 * ws.length := by
  induction ws with
  | nil => rfl
  | cons v ws ih =>
    simp only [wordBytes, List.flatMap_cons, List.length_append, leBytes_length, List.length_cons] at ih ⊢
    omega

@[simp] theorem sumsFrom_length (acc : Word) (ds : List Word) : (sumsFrom acc ds).length = ds.length := by
  induction ds generalizing acc with
  | nil => rfl
  | cons d ds ih => simp [sumsFrom, ih]

/-- The decode pass, from any element on: `rs` are the records that are left, as DEC finds them. It writes the running sums of their deltas
in their places and nothing else, and the cursor ends behind the last payload (R191, R196). -/
theorem decLoop_spec (p : Platform) (rs : List Rec) (m : Memory) (w : Work)
    (hm : m.wf = true) (hn : w.i + rs.length = w.n) (hwf : rs.all Rec.wellFormed = true)
    (htag : ∀ j (h : j < rs.length),
      Tag.ofCode (tagLane (seenByte p m w.view w.src (w.src + 4 + (w.i + j) / 4)) ((w.i + j) % 4)) = rs[j].tag)
    (hpay : seenBytes p m w.view w.src w.resCur (rs.flatMap Rec.payload).length = rs.flatMap Rec.payload)
    (hain : ∀ a, w.src ≤ a → a < w.resCur + (rs.flatMap Rec.payload).length → admits p a = true)
    (haout : ∀ a, w.dst ≤ a → a < w.dst + 4 * w.n → admits p a = true)
    (hcur : w.src + 4 + tagBytes w.n ≤ w.resCur)
    (hdis : w.dst + 4 * w.n ≤ w.src ∨ w.resCur + (rs.flatMap Rec.payload).length ≤ w.dst) :
    ∃ m' w', decLoop p rs.length m w = .ok (m', w') ∧ m'.wf = true ∧ w'.n = w.n ∧
      w'.resCur = w.resCur + (rs.flatMap Rec.payload).length ∧
      m'.readBytes (w.dst + 4 * w.i) (4 * rs.length) = wordBytes (sumsFrom w.acc (rs.map (recDelta w.common))) ∧
      ∀ a, (a < w.dst + 4 * w.i ∨ w.dst + 4 * w.n ≤ a) → m'.read a = m.read a := by
  induction rs generalizing m w with
  | nil => exact ⟨m, w, rfl, hm, rfl, rfl, rfl, fun _ _ => rfl⟩
  | cons r rs ih =>
    have htb : w.i / 4 < tagBytes w.n := by simp only [List.length_cons] at hn; unfold tagBytes; omega
    simp only [List.length_cons] at hn
    simp only [List.all_cons, Bool.and_eq_true, Rec.wellFormed, decide_eq_true_eq] at hwf
    obtain ⟨hr, hwf⟩ := hwf
    simp only [List.flatMap_cons, List.length_append, hr] at hpay hain hdis ⊢
    rw [seenBytes_append] at hpay
    obtain ⟨hp₀, hp₁⟩ := List.append_inj hpay (by simp [hr])
    generalize hres : rs.flatMap Rec.payload = res at *
    have ht0 : Tag.ofCode (tagLane (seenByte p m w.view w.src (w.src + 4 + w.i / 4)) (w.i % 4)) = r.tag := htag 0 (by simp)
    let w₁ : Work := { w with tagByte := seenByte p m w.view w.src (w.src + 4 + w.i / 4), tag := r.tag }
    have hf : fetchTag p m w = .ok w₁ := by
      rw [fetchTag_of_admitted (hain _ (by omega) (by omega)), ht0]
    let w₂ : Work :=
      { w₁ with tag := r.tag, delta := recDelta w.common r, resCur := w.resCur + resLen r.tag }
    have hu : unpackOf r.tag p m w₁ = .ok w₂ := by
      rw [unpackOf_of_admitted fun a h₁ h₂ => hain a (by simp only [w₁] at h₁; omega) (by simp only [w₁] at h₂; omega)]
      show Except.ok _ = Except.ok _
      simp only [w₁, w₂, hp₀, recDelta]
    let acc := accumulated w.acc (recDelta w.common r)
    let m₁ := m.writeBytes (w.dst + 4 * w.i) (leBytes 4 acc.toNat)
    let w₃ : Work := { w₂ with acc := acc, i := w.i + 1 }
    have hacc : accumulate p m w₂ = .ok (m₁, w₃) :=
      accumulate_of_admitted fun a h₁ h₂ =>
        haout a (by simp only [w₂, w₁] at h₁; omega) (by simp only [w₂, w₁] at h₂; omega)
    have he : decElem p m w = .ok (m₁, w₃) := by
      rw [decElem, hf]
      show decRecord (unpackOf r.tag) p m w₁ = _
      rw [decRecord, hu]
      exact hacc
    have hother : ∀ a, (a < w.dst + 4 * w.i ∨ w.dst + 4 * w.i + 4 ≤ a) → m₁.read a = m.read a :=
      fun a h => read_writeBytes_other _ _ _ (by simpa using h)
    obtain ⟨m', w', e₁, e₂, e₃, e₄, e₅, e₆⟩ := ih m₁ w₃ (wf_writeBytes hm _ _)
      (by show w.i + 1 + rs.length = w.n; omega) hwf
      (by
        intro j h
        simp only [w₃, w₂, w₁]
        have hb : (w.i + 1 + j) / 4 < tagBytes w.n := by unfold tagBytes; omega
        rw [seenByte_congr (hother _ (by omega))]
        have := htag (j + 1) (by simpa using h)
        simp only [List.getElem_cons_succ] at this
        rw [show w.i + 1 + j = w.i + (j + 1) by omega]
        exact this)
      (by
        simp only [w₃, w₂]
        rw [seenBytes_congr (m' := m) fun c h₁ h₂ => hother c (by omega)]
        exact hp₁)
      (by simp only [w₃, w₂, w₁]; intro a h₁ h₂; exact hain a h₁ (by omega))
      haout
      (by simp only [w₃, w₂, w₁]; omega)
      (by simp only [w₃, w₂, w₁]; omega)
    simp only [w₃, w₂, w₁] at e₁ e₃ e₄ e₅ e₆
    refine ⟨m', w', ?_, e₂, e₃, by rw [e₄]; omega, ?_, ?_⟩
    · simp only [List.length_cons, decLoop, he]
      exact e₁
    · simp only [List.length_cons, List.map_cons, sumsFrom, wordBytes, List.flatMap_cons]
      rw [show 4 * (rs.length + 1) = 4 + 4 * rs.length by omega, readBytes_append]
      congr 1
      · rw [readBytes_congr (m' := m₁) fun c h₁ h₂ => e₆ c (by omega)]
        have := readBytes_writeBytes_same hm (w.dst + 4 * w.i) (leBytes 4 acc.toNat)
        rwa [leBytes_length] at this
    · intro a h
      rw [e₆ a (by omega)]
      exact hother a (by omega)

end Sys2Proof.Machine
end

