-- ==== Sys2Proof/Laws/Passes.lean ====
section
/-! SUPPORT. What an element and a pass of ENC and DEC can do, whatever the platform admits: which addresses a refused access
can name, and which bytes and working values change. -/

namespace Sys2Proof.Machine

theorem resLen_le (t : Tag) : resLen t ≤ 4 := by cases t <;> decide

/-- The fields of the working values that no element changes. -/
def Work.SameOperands (w w' : Work) : Prop := w'.pass = w.pass ∧ w'.n = w.n ∧ w'.src = w.src ∧ w'.dst = w.dst

theorem Work.SameOperands.refl (w : Work) : w.SameOperands w := ⟨rfl, rfl, rfl, rfl⟩

theorem Work.SameOperands.trans {w w' w'' : Work} (h : w.SameOperands w') (h' : w'.SameOperands w'') :
    w.SameOperands w'' :=
  ⟨h'.1.trans h.1, h'.2.1.trans h.2.1, h'.2.2.1.trans h.2.2.1, h'.2.2.2.trans h.2.2.2⟩

theorem readInput_error {p : Platform} {m : Memory} {w : Work} {a : Nat} (h : readInput p m w = .error a) :
    w.src + 4 * w.i ≤ a ∧ a < w.src + 4 * w.i + 4 ∧ admits p a = false := by
  unfold readInput at h
  split at h
  · next hr => cases h; exact memRead_error hr
  · cases h

/-! ## One element -/

theorem histElem_ok {p : Platform} {m : Memory} {w w' : Work} (h : histElem p m w = .ok w') :
    w.SameOperands w' ∧ w'.i = w.i + 1 := by
  unfold histElem at h
  split at h
  · cases h
  · cases h; exact ⟨⟨rfl, rfl, rfl, rfl⟩, rfl⟩

theorem histElem_error {p : Platform} {m : Memory} {w : Work} {a : Nat} (h : histElem p m w = .error a) :
    w.src + 4 * w.i ≤ a ∧ a < w.src + 4 * w.i + 4 ∧ admits p a = false := by
  unfold histElem at h
  split at h
  · next hr => cases h; exact readInput_error hr
  · cases h

/-- Fetching a delta changes no operand, no index and no cursor. -/
theorem fetchDelta_ok {p : Platform} {m : Memory} {w w' : Work} (h : fetchDelta p m w = .ok w') :
    w.SameOperands w' ∧ w'.i = w.i ∧ w'.resCur = w.resCur := by
  unfold fetchDelta at h
  split at h
  · cases h
  · cases h; exact ⟨⟨rfl, rfl, rfl, rfl⟩, rfl, rfl⟩

theorem fetchDelta_error {p : Platform} {m : Memory} {w : Work} {a : Nat} (h : fetchDelta p m w = .error a) :
    w.src + 4 * w.i ≤ a ∧ a < w.src + 4 * w.i + 4 ∧ admits p a = false := by
  unfold fetchDelta at h
  split at h
  · next hr => cases h; exact readInput_error hr
  · cases h

/-- Packing a record moves the index by one and the cursor by the payload, and writes at most at the cursor and in the
place of the tag byte. -/
theorem emitRecord_ok {t : Tag} {p : Platform} {m m' : Memory} {w w' : Work}
    (h : emitRecord (packOf t) p m w = .ok (m', w')) :
    w.SameOperands w' ∧ w'.i = w.i + 1 ∧ w'.resCur = w.resCur + resLen t ∧ (m.wf = true → m'.wf = true) ∧
    ∀ a, (a < w.resCur ∨ w.resCur + resLen t ≤ a) → a ≠ w.dst + 4 + w.i / 4 → m'.read a = m.read a := by
  unfold emitRecord at h
  split at h
  · cases h
  · next m₁ w₁ hp =>
    obtain ⟨rfl, rfl, -⟩ := packOf_ok hp
    obtain ⟨-, rfl, rfl, -⟩ | ⟨-, rfl, rfl⟩ := flushTag_ok h
    · refine ⟨⟨rfl, rfl, rfl, rfl⟩, rfl, rfl, fun hm => wf_writeBytes (wf_writeBytes hm _ _) _ _, fun a h₁ h₂ => ?_⟩
      simp only [Work.addTag] at h₂ ⊢
      rw [read_writeBytes_other _ _ _ (by simp only [List.length_cons, List.length_nil]; omega),
        read_writeBytes_other _ _ _ (by rw [payload_length]; exact h₁)]
    · refine ⟨⟨rfl, rfl, rfl, rfl⟩, rfl, rfl, fun hm => wf_writeBytes hm _ _, fun a h₁ _ => ?_⟩
      rw [read_writeBytes_other _ _ _ (by rw [payload_length]; exact h₁)]

theorem emitRecord_error {t : Tag} {p : Platform} {m : Memory} {w : Work} {a : Nat}
    (h : emitRecord (packOf t) p m w = .error a) :
    (w.resCur ≤ a ∧ a < w.resCur + resLen t ∨ a = w.dst + 4 + w.i / 4) ∧ admits p a = false := by
  unfold emitRecord at h
  split at h
  · next hp =>
    cases h
    obtain ⟨h₁, h₂, h₃⟩ := packOf_error hp
    exact ⟨.inl ⟨h₁, h₂⟩, h₃⟩
  · next hp =>
    obtain ⟨-, rfl, -⟩ := packOf_ok hp
    obtain ⟨-, h₁, h₂⟩ := flushTag_error h
    exact ⟨.inr h₁, h₂⟩

/-- Executing a record moves the index by one and the cursor by the payload, and writes the output word. -/
theorem decRecord_ok {t : Tag} {p : Platform} {m m' : Memory} {w w' : Work}
    (h : decRecord (unpackOf t) p m w = .ok (m', w')) :
    w.SameOperands w' ∧ w'.i = w.i + 1 ∧ w'.resCur = w.resCur + resLen t ∧ (m.wf = true → m'.wf = true) ∧
    ∀ a, (a < w.dst + 4 * w.i ∨ w.dst + 4 * w.i + 4 ≤ a) → m'.read a = m.read a := by
  unfold decRecord at h
  split at h
  · cases h
  · next hu =>
    obtain ⟨rfl, -⟩ := unpackOf_ok hu
    obtain ⟨rfl, rfl, -⟩ := accumulate_ok h
    refine ⟨⟨rfl, rfl, rfl, rfl⟩, rfl, rfl, fun hm => wf_writeBytes hm _ _, fun a h₁ => ?_⟩
    exact read_writeBytes_other _ _ _ (by simpa using h₁)

theorem decRecord_error {t : Tag} {p : Platform} {m : Memory} {w : Work} {a : Nat}
    (h : decRecord (unpackOf t) p m w = .error a) :
    (w.resCur ≤ a ∧ a < w.resCur + resLen t ∨ w.dst + 4 * w.i ≤ a ∧ a < w.dst + 4 * w.i + 4) ∧ admits p a = false := by
  unfold decRecord at h
  split at h
  · next hu =>
    cases h
    obtain ⟨h₁, h₂, h₃⟩ := unpackOf_error hu
    exact ⟨.inl ⟨h₁, h₂⟩, h₃⟩
  · next hu =>
    obtain ⟨rfl, -⟩ := unpackOf_ok hu
    obtain ⟨h₁, h₂, h₃⟩ := accumulate_error h
    exact ⟨.inr ⟨h₁, h₂⟩, h₃⟩

/-- An element of the emission pass: its delta is fetched and its record packed. -/
theorem emitElem_ok {p : Platform} {m m' : Memory} {w w' : Work} (h : emitElem p m w = .ok (m', w')) :
    w.SameOperands w' ∧ w'.i = w.i + 1 ∧ w.resCur ≤ w'.resCur ∧ w'.resCur ≤ w.resCur + 4 ∧ (m.wf = true → m'.wf = true) ∧
    ∀ a, (a < w.resCur ∨ w.resCur + 4 ≤ a) → a ≠ w.dst + 4 + w.i / 4 → m'.read a = m.read a := by
  unfold emitElem at h
  split at h
  · cases h
  · next w₁ hf =>
    obtain ⟨h₁, h₂, h₃⟩ := fetchDelta_ok hf
    obtain ⟨k₁, k₂, k₃, k₄, k₅⟩ := emitRecord_ok h
    have := resLen_le w₁.tag
    rw [h₃] at k₃ k₅
    rw [h₂] at k₂ k₅
    rw [h₁.2.2.2] at k₅
    exact ⟨h₁.trans k₁, k₂, by omega, by omega, k₄, fun a g₁ g₂ => k₅ a (by omega) g₂⟩

theorem emitElem_error {p : Platform} {m : Memory} {w : Work} {a : Nat} (h : emitElem p m w = .error a) :
    (w.src + 4 * w.i ≤ a ∧ a < w.src + 4 * w.i + 4 ∨ w.resCur ≤ a ∧ a < w.resCur + 4 ∨ a = w.dst + 4 + w.i / 4) ∧
    admits p a = false := by
  unfold emitElem at h
  split at h
  · next hf =>
    cases h
    obtain ⟨h₁, h₂, h₃⟩ := fetchDelta_error hf
    exact ⟨.inl ⟨h₁, h₂⟩, h₃⟩
  · next w₁ hf =>
    obtain ⟨h₁, h₂, h₃⟩ := fetchDelta_ok hf
    obtain ⟨k₁, k₂⟩ := emitRecord_error h
    have := resLen_le w₁.tag
    rw [h₃, h₂, h₁.2.2.2] at k₁
    exact ⟨by omega, k₂⟩

/-- An element of the decode pass: its tag is fetched and its record executed. -/
theorem decElem_ok {p : Platform} {m m' : Memory} {w w' : Work} (h : decElem p m w = .ok (m', w')) :
    w.SameOperands w' ∧ w'.i = w.i + 1 ∧ w.resCur ≤ w'.resCur ∧ w'.resCur ≤ w.resCur + 4 ∧ (m.wf = true → m'.wf = true) ∧
    ∀ a, (a < w.dst + 4 * w.i ∨ w.dst + 4 * w.i + 4 ≤ a) → m'.read a = m.read a := by
  unfold decElem at h
  split at h
  · cases h
  · next w₁ hf =>
    obtain ⟨rfl, -⟩ := fetchTag_ok hf
    obtain ⟨k₁, k₂, k₃, k₄, k₅⟩ := decRecord_ok h
    have := resLen_le (Tag.ofCode (tagLane (seenByte p m w.view w.src (w.src + 4 + w.i / 4)) (w.i % 4)))
    simp only at k₂ k₃ k₅
    exact ⟨k₁, k₂, by omega, by omega, k₄, k₅⟩

theorem decElem_error {p : Platform} {m : Memory} {w : Work} {a : Nat} (h : decElem p m w = .error a) :
    (a = w.src + 4 + w.i / 4 ∨ w.resCur ≤ a ∧ a < w.resCur + 4 ∨ w.dst + 4 * w.i ≤ a ∧ a < w.dst + 4 * w.i + 4) ∧
    admits p a = false := by
  unfold decElem at h
  split at h
  · next hf =>
    cases h
    obtain ⟨h₁, h₂⟩ := fetchTag_error hf
    exact ⟨.inl h₁, h₂⟩
  · next w₁ hf =>
    obtain ⟨rfl, -⟩ := fetchTag_ok hf
    obtain ⟨k₁, k₂⟩ := decRecord_error h
    have := resLen_le (Tag.ofCode (tagLane (seenByte p m w.view w.src (w.src + 4 + w.i / 4)) (w.i % 4)))
    simp only at k₁
    exact ⟨by omega, k₂⟩

/-! ## A whole pass -/

theorem histLoop_ok {p : Platform} {m : Memory} {k : Nat} {w w' : Work} (h : histLoop p m k w = .ok w') :
    w.SameOperands w' ∧ w'.i = w.i + k := by
  induction k generalizing w with
  | zero => cases h; exact ⟨.refl _, rfl⟩
  | succ k ih =>
    unfold histLoop at h
    split at h
    · cases h
    · next he =>
      obtain ⟨h₁, h₂⟩ := histElem_ok he
      obtain ⟨k₁, k₂⟩ := ih h
      exact ⟨h₁.trans k₁, by omega⟩

theorem histLoop_error {p : Platform} {m : Memory} {k : Nat} {w : Work} {a : Nat} (h : histLoop p m k w = .error a) :
    w.src + 4 * w.i ≤ a ∧ a < w.src + 4 * (w.i + k) ∧ admits p a = false := by
  induction k generalizing w with
  | zero => cases h
  | succ k ih =>
    unfold histLoop at h
    split at h
    · next he =>
      cases h
      obtain ⟨h₁, h₂, h₃⟩ := histElem_error he
      exact ⟨h₁, by omega, h₃⟩
    · next he =>
      obtain ⟨h₁, h₂⟩ := histElem_ok he
      obtain ⟨k₁, k₂, k₃⟩ := ih h
      rw [h₂, h₁.2.2.1] at k₁ k₂
      exact ⟨by omega, by omega, k₃⟩

theorem emitLoop_ok {p : Platform} {k : Nat} {m m' : Memory} {w w' : Work} (h : emitLoop p k m w = .ok (m', w'))
    (hc : w.dst + 4 + tagBytes w.n ≤ w.resCur) (hi : w.i + k ≤ w.n) :
    w.SameOperands w' ∧ w'.i = w.i + k ∧ w.resCur ≤ w'.resCur ∧ w'.resCur ≤ w.resCur + 4 * k ∧
    (m.wf = true → m'.wf = true) ∧
    ∀ a, (a < w.dst ∨ w.resCur + 4 * k ≤ a) → m'.read a = m.read a := by
  induction k generalizing m w with
  | zero => cases h; exact ⟨.refl _, rfl, by omega, by omega, id, fun _ _ => rfl⟩
  | succ k ih =>
    unfold emitLoop at h
    split at h
    · cases h
    · next he =>
      obtain ⟨h₁, h₂, h₃, h₄, h₅, h₆⟩ := emitElem_ok he
      obtain ⟨k₁, k₂, k₃, k₄, k₅, k₆⟩ := ih h (by rw [h₁.2.2.2, h₁.2.1]; omega) (by rw [h₁.2.1]; omega)
      rw [h₁.2.2.2] at k₆
      have : w.i / 4 < tagBytes w.n := by unfold tagBytes; omega
      exact ⟨h₁.trans k₁, by omega, by omega, by omega, k₅ ∘ h₅,
        fun a g => (k₆ a (by omega)).trans (h₆ a (by omega) (by omega))⟩

theorem emitLoop_error {p : Platform} {k : Nat} {m : Memory} {w : Work} {a : Nat} (h : emitLoop p k m w = .error a)
    (hc : w.dst + 4 + tagBytes w.n ≤ w.resCur) (hi : w.i + k ≤ w.n) :
    (w.src ≤ a ∧ a < w.src + 4 * w.n ∨ w.dst ≤ a ∧ a < w.resCur + 4 * k) ∧ admits p a = false := by
  induction k generalizing m w with
  | zero => cases h
  | succ k ih =>
    have : w.i / 4 < tagBytes w.n := by unfold tagBytes; omega
    unfold emitLoop at h
    split at h
    · next he =>
      cases h
      obtain ⟨h₁, h₂⟩ := emitElem_error he
      exact ⟨by omega, h₂⟩
    · next he =>
      obtain ⟨h₁, h₂, h₃, h₄, h₅, h₆⟩ := emitElem_ok he
      obtain ⟨k₁, k₂⟩ := ih h (by rw [h₁.2.2.2, h₁.2.1]; omega) (by rw [h₁.2.1]; omega)
      rw [h₁.2.2.2, h₁.2.2.1, h₁.2.1] at k₁
      exact ⟨by omega, k₂⟩

theorem decLoop_ok {p : Platform} {k : Nat} {m m' : Memory} {w w' : Work} (h : decLoop p k m w = .ok (m', w')) :
    w.SameOperands w' ∧ w'.i = w.i + k ∧ w.resCur ≤ w'.resCur ∧ w'.resCur ≤ w.resCur + 4 * k ∧
    (m.wf = true → m'.wf = true) ∧
    ∀ a, (a < w.dst + 4 * w.i ∨ w.dst + 4 * (w.i + k) ≤ a) → m'.read a = m.read a := by
  induction k generalizing m w with
  | zero => cases h; exact ⟨.refl _, rfl, by omega, by omega, id, fun _ _ => rfl⟩
  | succ k ih =>
    unfold decLoop at h
    split at h
    · cases h
    · next he =>
      obtain ⟨h₁, h₂, h₃, h₄, h₅, h₆⟩ := decElem_ok he
      obtain ⟨k₁, k₂, k₃, k₄, k₅, k₆⟩ := ih h
      rw [h₁.2.2.2, h₂] at k₆
      exact ⟨h₁.trans k₁, by omega, by omega, by omega, k₅ ∘ h₅,
        fun a g => (k₆ a (by omega)).trans (h₆ a (by omega))⟩

theorem decLoop_error {p : Platform} {k : Nat} {m : Memory} {w : Work} {a : Nat} (h : decLoop p k m w = .error a)
    (hc : w.src + 4 + tagBytes w.n ≤ w.resCur) (hi : w.i + k ≤ w.n) :
    (w.src ≤ a ∧ a < w.resCur + 4 * k ∨ w.dst ≤ a ∧ a < w.dst + 4 * w.n) ∧ admits p a = false := by
  induction k generalizing m w with
  | zero => cases h
  | succ k ih =>
    have : w.i / 4 < tagBytes w.n := by unfold tagBytes; omega
    unfold decLoop at h
    split at h
    · next he =>
      cases h
      obtain ⟨h₁, h₂⟩ := decElem_error he
      exact ⟨by omega, h₂⟩
    · next he =>
      obtain ⟨h₁, h₂, h₃, h₄, h₅, h₆⟩ := decElem_ok he
      obtain ⟨k₁, k₂⟩ := ih h (by rw [h₁.2.2.1, h₁.2.1]; omega) (by rw [h₁.2.1]; omega)
      rw [h₁.2.2.2, h₁.2.2.1, h₁.2.1] at k₁
      exact ⟨by omega, k₂⟩

/-! ## The parts between the passes -/

/-- The layout writes the header and puts the cursor after the tag region (R136). -/
theorem layout_ok {p : Platform} {m m' : Memory} {w w' : Work} (h : layout p m w = .ok (m', w')) :
    w'.pass = .emit ∧ w'.n = w.n ∧ w'.src = w.src ∧ w'.dst = w.dst ∧ w'.i = 0 ∧
    w'.resCur = w.dst + 4 + tagBytes w.n ∧ (m.wf = true → m'.wf = true) ∧
    ∀ a, (a < w.dst ∨ w.dst + 4 ≤ a) → m'.read a = m.read a := by
  unfold layout at h
  split at h
  · cases h
  · next hw =>
    cases h
    obtain ⟨rfl, -⟩ := memWrite_ok hw
    exact ⟨rfl, rfl, rfl, rfl, rfl, rfl, fun hm => wf_writeBytes hm _ _,
      fun a g => read_writeBytes_other _ _ _ (by simpa using g)⟩

theorem layout_error {p : Platform} {m : Memory} {w : Work} {a : Nat} (h : layout p m w = .error a) :
    w.dst ≤ a ∧ a < w.dst + 4 ∧ admits p a = false := by
  unfold layout at h
  split at h
  · next hw => cases h; simpa using memWrite_error hw
  · cases h

/-- The header read puts the cursor after the tag region (R195). -/
theorem readHeader_ok {p : Platform} {m : Memory} {w w' : Work} (h : readHeader p m w = .ok w') :
    w'.pass = .dec ∧ w'.n = w.n ∧ w'.src = w.src ∧ w'.dst = w.dst ∧ w'.i = 0 ∧
    w'.resCur = w.src + 4 + tagBytes w.n := by
  unfold readHeader at h
  split at h
  · cases h
  · cases h; exact ⟨rfl, rfl, rfl, rfl, rfl, rfl⟩

theorem readHeader_error {p : Platform} {m : Memory} {w : Work} {a : Nat} (h : readHeader p m w = .error a) :
    w.src ≤ a ∧ a < w.src + 4 ∧ admits p a = false := by
  unfold readHeader at h
  split at h
  · next hr => cases h; exact streamRead_error hr
  · cases h

/-- ENC after its checks: the stream's length lies between the bounds of R141, and only the output range changes. -/
theorem encPasses_ok {p : Platform} {m m' : Memory} {w w' : Work} (h : encPasses p m w = .ok (m', w')) :
    w'.dst = w.dst ∧ w.dst + 4 + tagBytes w.n ≤ w'.resCur ∧ w'.resCur ≤ w.dst + (4 + tagBytes w.n + 4 * w.n) ∧
    (m.wf = true → m'.wf = true) ∧
    ∀ a, (a < w.dst ∨ w.dst + (4 + tagBytes w.n + 4 * w.n) ≤ a) → m'.read a = m.read a := by
  unfold encPasses at h
  split at h
  · cases h
  · next hh =>
    obtain ⟨⟨-, h₁, h₂, h₃⟩, -⟩ := histLoop_ok hh
    split at h
    · cases h
    · next hl =>
      obtain ⟨-, k₁, k₂, k₃, k₄, k₅, k₆, k₇⟩ := layout_ok hl
      obtain ⟨⟨-, g₁, g₂, g₃⟩, g₄, g₅, g₆, g₇, g₈⟩ := emitLoop_ok h (by rw [k₅, k₃, k₁]) (by omega)
      rw [k₃, h₃, k₅, h₃, h₁, k₁, h₁] at g₈
      rw [h₃] at k₇
      rw [k₅, h₃, h₁] at g₅ g₆
      rw [k₁, h₁] at g₆
      exact ⟨by rw [g₃, k₃, h₃], g₅, by omega, g₇ ∘ k₆,
        fun a g => (g₈ a (by omega)).trans (k₇ a (by omega))⟩

theorem encPasses_error {p : Platform} {m : Memory} {w : Work} {a : Nat} (h : encPasses p m w = .error a)
    (hi : w.i = 0) :
    (w.src ≤ a ∧ a < w.src + 4 * w.n ∨ w.dst ≤ a ∧ a < w.dst + (4 + tagBytes w.n + 4 * w.n)) ∧ admits p a = false := by
  unfold encPasses at h
  split at h
  · next hh =>
    cases h
    obtain ⟨h₁, h₂, h₃⟩ := histLoop_error hh
    exact ⟨by omega, h₃⟩
  · next hh =>
    obtain ⟨⟨-, h₁, h₂, h₃⟩, -⟩ := histLoop_ok hh
    split at h
    · next hl =>
      cases h
      obtain ⟨k₁, k₂, k₃⟩ := layout_error hl
      exact ⟨by omega, k₃⟩
    · next hl =>
      obtain ⟨-, k₁, k₂, k₃, k₄, k₅, k₆, k₇⟩ := layout_ok hl
      obtain ⟨g₁, g₂⟩ := emitLoop_error h (by rw [k₅, k₃, k₁]) (by omega)
      rw [k₂, h₂, k₁, h₁, k₃, h₃, k₅, h₃, h₁] at g₁
      exact ⟨by omega, g₂⟩

end Sys2Proof.Machine
end

