-- ==== Sys2Proof/Laws/Commands.lean ====
section
/-! SUPPORT. The start of ENC and DEC: everything the checks can answer, and that they let a command run exactly when the
host has done its duties on the operands (spec/60_exceptions.md R240). -/

namespace Sys2Proof.Machine

/-- Everything the checks of a codec command can answer, in their order. -/
theorem startCodec_cases (s : State) (r : Ranges) (w : Work) :
    (s.plat.nmax < s.inst.count.toNat ∧ startCodec s r w = .ended (.next (endFault s .badCount))) ∨
    (s.inst.count.toNat = 0 ∧ startCodec s r w = .ended (.next (endOK s s.mem 0))) ∨
    (0 < s.inst.count.toNat ∧ s.inst.count.toNat ≤ s.plat.nmax ∧
      (((2 ^ s.plat.aw < s.inst.src.toNat + r.inLen ∨ 2 ^ s.plat.aw < s.inst.dst.toNat + r.outLen) ∧
        startCodec s r w = .ended (.next (endFault s .badRange))) ∨
       (s.inst.src.toNat + r.inLen ≤ 2 ^ s.plat.aw ∧ s.inst.dst.toNat + r.outLen ≤ 2 ^ s.plat.aw ∧
        (((touchesDevice s ⟨s.inst.src.toNat, r.inLen⟩ = true ∨ touchesDevice s ⟨s.inst.dst.toNat, r.outLen⟩ = true) ∧
          startCodec s r w = .ended (.refused .deviceRange)) ∨
         (touchesDevice s ⟨s.inst.src.toNat, r.inLen⟩ = false ∧ touchesDevice s ⟨s.inst.dst.toNat, r.outLen⟩ = false ∧
          (((Region.mk s.inst.src.toNat r.inLen).meets ⟨s.inst.dst.toNat, r.outLen⟩ = true ∧
            startCodec s r w = .ended (.next (overlapEnd s r))) ∨
           ((Region.mk s.inst.src.toNat r.inLen).meets ⟨s.inst.dst.toNat, r.outLen⟩ = false ∧
            startCodec s r w = .running w))))))) := by
  unfold startCodec
  by_cases h₁ : s.inst.count.toNat > s.plat.nmax
  · exact .inl ⟨h₁, if_pos h₁⟩
  · by_cases h₂ : s.inst.count.toNat = 0
    · exact .inr (.inl ⟨h₂, by rw [if_neg h₁, if_pos h₂]⟩)
    · refine .inr (.inr ⟨by omega, by omega, ?_⟩)
      rw [if_neg h₁, if_neg h₂]
      by_cases h₃ : s.inst.src.toNat + r.inLen > 2 ^ s.plat.aw ∨ s.inst.dst.toNat + r.outLen > 2 ^ s.plat.aw
      · exact .inl ⟨h₃, if_pos h₃⟩
      · refine .inr ⟨by omega, by omega, ?_⟩
        rw [if_neg h₃]
        cases h₄ : touchesDevice s ⟨s.inst.src.toNat, r.inLen⟩
        · cases h₅ : touchesDevice s ⟨s.inst.dst.toNat, r.outLen⟩
          · cases h₆ : (Region.mk s.inst.src.toNat r.inLen).meets ⟨s.inst.dst.toNat, r.outLen⟩ <;> simp
          · simp
        · simp

/-- The working values ENC starts with. -/
abbrev encWork (s : State) : Work :=
  Work.start .hist s.inst.count.toNat s.inst.src.toNat s.inst.dst.toNat s.inst.dst.toNat s.draws

/-- The working values DEC starts with. -/
abbrev decWork (s : State) : Work :=
  Work.start .header s.inst.count.toNat s.inst.src.toNat s.inst.dst.toNat s.inst.src.toNat s.draws

/-- A host that has done its duties on the operands gets ENC running. -/
theorem startEnc_of_ready {s : State} {i : Instr} (hi : i = .encS ∨ i = .encU) (h₁ : OperandsLegal i s)
    (h₂ : RangesOrdinary i s) (h₃ : RangesDisjoint i s) : startEnc s = .running (encWork s) := by
  have hr : rangesOf i s.inst.count.toNat = encRanges s.inst.count.toNat := by rcases hi with rfl | rfl <;> rfl
  simp only [OperandsLegal, RangesOrdinary, RangesDisjoint, hr] at h₁ h₂ h₃
  unfold startEnc startCodec
  rw [if_neg (by omega), if_neg (by omega), if_neg (by omega)]
  simp [h₂.1, h₂.2, h₃]

/-- A host that has done its duties on the operands gets DEC running. -/
theorem startDec_of_ready {s : State} {i : Instr} (hi : i = .decS ∨ i = .decU) (h₁ : OperandsLegal i s)
    (h₂ : RangesOrdinary i s) (h₃ : RangesDisjoint i s) : startDec s = .running (decWork s) := by
  have hr : rangesOf i s.inst.count.toNat = decRanges s.inst.count.toNat := by rcases hi with rfl | rfl <;> rfl
  simp only [OperandsLegal, RangesOrdinary, RangesDisjoint, hr] at h₁ h₂ h₃
  unfold startDec startCodec
  rw [if_neg (by omega), if_neg (by omega), if_neg (by omega)]
  simp [h₂.1, h₂.2, h₃]

theorem exec_enc_of_running {s : State} {i : Instr} {w : Work} (hi : i = .encS ∨ i = .encU) (h : startEnc s = .running w) :
    exec i s = .next (encEnd s w (encPasses s.plat s.mem w)) := by
  rcases hi with rfl | rfl <;> simp [exec, execEncS, execEncU, encodeCommand, h]

theorem exec_enc_of_ended {s : State} {i : Instr} {o : Host.Outcome State Fault Refusal} (hi : i = .encS ∨ i = .encU)
    (h : startEnc s = .ended o) : exec i s = o := by
  rcases hi with rfl | rfl <;> simp [exec, execEncS, execEncU, encodeCommand, h]

/-- What DEC answers once its checks let it run. -/
theorem exec_dec_of_running {s : State} {i : Instr} {w : Work} (hi : i = .decS ∨ i = .decU) (h : startDec s = .running w) :
    exec i s =
      match readHeader s.plat s.mem w with
      | .error a => .next (endAccessFault s a w.dst w.outLen)
      | .ok w' => .next (decEnd s w' (decLoop s.plat w'.n s.mem w')) := by
  have e : exec i s = decodeCommandRun s := by rcases hi with rfl | rfl <;> rfl
  exact e.trans (by unfold decodeCommandRun; generalize startDec s = x at h; subst h; rfl)

theorem exec_dec_of_ended {s : State} {i : Instr} {o : Host.Outcome State Fault Refusal} (hi : i = .decS ∨ i = .decU)
    (h : startDec s = .ended o) : exec i s = o := by
  rcases hi with rfl | rfl <;> simp [exec, execDecS, execDecU, decodeCommandRun, h]

/-- Two ranges that do not meet lie one before the other. -/
theorem meets_false {a m b n : Nat} (hm : 0 < m) (hn : 0 < n) (h : (Region.mk a m).meets ⟨b, n⟩ = false) :
    a + m ≤ b ∨ b + n ≤ a := by
  simp only [Region.meets, decide_eq_false_iff_not, not_lt] at h
  omega

/-- A codec command that its checks let run ends in one of two ways: in ACCESS_FAULT, at a refused byte of its ranges, with
the output range unspecified; or with success, with RESULT within its bounds and
only the output range changed. -/
def RunEnds (s : State) (r : Ranges) (o : Host.Outcome State Fault Refusal) : Prop :=
  (∃ a, admits s.plat a = false ∧
    (s.inst.src.toNat ≤ a ∧ a < s.inst.src.toNat + r.inLen ∨ s.inst.dst.toNat ≤ a ∧ a < s.inst.dst.toNat + r.outLen) ∧
    o = .next (endAccessFault s a s.inst.dst.toNat r.outLen)) ∨
  ∃ m res d, s.draws ≤ d ∧ r.lo ≤ res ∧ res ≤ r.hi ∧ (s.mem.wf = true → m.wf = true) ∧
    (∀ a, (a < s.inst.dst.toNat ∨ s.inst.dst.toNat + r.outLen ≤ a) → m.read a = s.mem.read a) ∧
    o = .next (endOK { s with draws := d } m res)

theorem maxPrecodedSize_pos {n : Nat} (h : 0 < n) : maxPrecodedSize n = 4 + tagBytes n + 4 * n := if_neg (by omega)

theorem enc_runEnds {s : State} {i : Instr} (hi : i = .encS ∨ i = .encU) (hn : 0 < s.inst.count.toNat)
    (h : startEnc s = .running (encWork s)) : RunEnds s (encRanges s.inst.count.toNat) (exec i s) := by
  rw [exec_enc_of_running hi h]
  simp only [RunEnds, encRanges, maxPrecodedSize_pos hn]
  cases he : encPasses s.plat s.mem (encWork s) with
  | error a =>
    obtain ⟨h₁, h₂⟩ := encPasses_error he rfl
    simp only [Work.start] at h₁
    exact .inl ⟨a, h₂, h₁, by rw [← maxPrecodedSize_pos hn]; rfl⟩
  | ok x =>
    obtain ⟨m, w'⟩ := x
    obtain ⟨h₁, h₂, h₃, h₄, h₅⟩ := encPasses_ok he
    simp only [Work.start] at h₁ h₂ h₃ h₅
    refine .inr ⟨m, w'.resCur - w'.dst, s.draws, Nat.le_refl _, by omega, by omega, h₄, h₅, rfl⟩

theorem dec_runEnds {s : State} {i : Instr} (hi : i = .decS ∨ i = .decU) (hn : 0 < s.inst.count.toNat)
    (h : startDec s = .running (decWork s)) : RunEnds s (decRanges s.inst.count.toNat) (exec i s) := by
  rw [exec_dec_of_running hi h]
  simp only [RunEnds, decRanges, maxPrecodedSize_pos hn]
  cases hr : readHeader s.plat s.mem (decWork s) with
  | error a =>
    obtain ⟨h₁, h₂, h₃⟩ := readHeader_error hr
    simp only [Work.start] at h₁ h₂
    exact .inl ⟨a, h₃, .inl ⟨h₁, by omega⟩, rfl⟩
  | ok w₁ =>
    obtain ⟨k₀, k₁, k₂, k₃, k₄, k₅⟩ := readHeader_ok hr
    simp only [Work.start] at k₁ k₂ k₃ k₅
    simp only
    cases he : decLoop s.plat w₁.n s.mem w₁ with
    | error a =>
      obtain ⟨h₁, h₂⟩ := decLoop_error he (by rw [k₅, k₂, k₁]) (by omega)
      refine .inl ⟨a, h₂, ?_, ?_⟩
      · rw [k₅, k₂, k₁, k₃] at h₁; omega
      · simp [decEnd, Work.outLen, k₀, k₁, k₃]
    | ok x =>
      obtain ⟨m, w'⟩ := x
      obtain ⟨⟨-, g₁, -, -⟩, -, -, -, g₅, g₆⟩ := decLoop_ok he
      rw [k₃, k₄, k₁] at g₆
      refine .inr ⟨m, s.inst.count.toNat, s.draws + 1, Nat.le_succ _, Nat.le_refl _, Nat.le_refl _, g₅, fun a g => g₆ a (by omega), ?_⟩
      simp [decEnd, endDec, g₁, k₁]

/-- Everything a codec command can do, in the order of its checks (R240). -/
theorem exec_codec_cases (s : State) (i : Instr) (hi : isCodec i = true) :
    (s.plat.nmax < s.inst.count.toNat ∧ exec i s = .next (endFault s .badCount)) ∨
    (s.inst.count.toNat = 0 ∧ exec i s = .next (endOK s s.mem 0)) ∨
    (0 < s.inst.count.toNat ∧ s.inst.count.toNat ≤ s.plat.nmax ∧ ¬ OperandsLegal i s ∧
      exec i s = .next (endFault s .badRange)) ∨
    (OperandsLegal i s ∧ ¬ RangesOrdinary i s ∧ exec i s = .refused .deviceRange) ∨
    (OperandsLegal i s ∧ RangesOrdinary i s ∧ ¬ RangesDisjoint i s ∧
      exec i s = .next (overlapEnd s (rangesOf i s.inst.count.toNat))) ∨
    (OperandsLegal i s ∧ RangesOrdinary i s ∧ RangesDisjoint i s ∧
      RunEnds s (rangesOf i s.inst.count.toNat) (exec i s)) := by
  have key : ∃ w, (∀ o, startCodec s (rangesOf i s.inst.count.toNat) w = .ended o → exec i s = o) ∧
      (0 < s.inst.count.toNat → startCodec s (rangesOf i s.inst.count.toNat) w = .running w →
        RunEnds s (rangesOf i s.inst.count.toNat) (exec i s)) := by
    cases i with
    | encS => exact ⟨_, fun _ h => exec_enc_of_ended (.inl rfl) h, fun h₁ h₂ => enc_runEnds (.inl rfl) h₁ h₂⟩
    | encU => exact ⟨_, fun _ h => exec_enc_of_ended (.inr rfl) h, fun h₁ h₂ => enc_runEnds (.inr rfl) h₁ h₂⟩
    | decS => exact ⟨_, fun _ h => exec_dec_of_ended (.inl rfl) h, fun h₁ h₂ => dec_runEnds (.inl rfl) h₁ h₂⟩
    | decU => exact ⟨_, fun _ h => exec_dec_of_ended (.inr rfl) h, fun h₁ h₂ => dec_runEnds (.inr rfl) h₁ h₂⟩
    | szp | szw | tCom | tS8 | tS16 | tS32 => cases hi
  obtain ⟨w, h₁, h₂⟩ := key
  rcases startCodec_cases s (rangesOf i s.inst.count.toNat) w with ⟨c, e⟩ | ⟨c, e⟩ | ⟨c₀, c₁, h⟩
  · exact .inl ⟨c, h₁ _ e⟩
  · exact .inr (.inl ⟨c, h₁ _ e⟩)
  · rcases h with ⟨c, e⟩ | ⟨c₂, c₃, h⟩
    · exact .inr (.inr (.inl ⟨c₀, c₁, fun hl => by have := hl.2.2; omega, h₁ _ e⟩))
    · have hl : OperandsLegal i s := ⟨c₀, c₁, c₂, c₃⟩
      rcases h with ⟨c, e⟩ | ⟨c₄, c₅, h⟩
      · refine .inr (.inr (.inr (.inl ⟨hl, fun ho => ?_, h₁ _ e⟩)))
        rcases c with c | c
        · rw [ho.1] at c; cases c
        · rw [ho.2] at c; cases c
      · rcases h with ⟨c, e⟩ | ⟨c, e⟩
        · refine .inr (.inr (.inr (.inr (.inl ⟨hl, ⟨c₄, c₅⟩, fun hd => ?_, h₁ _ e⟩))))
          unfold RangesDisjoint at hd; rw [hd] at c; cases c
        · exact .inr (.inr (.inr (.inr (.inr ⟨hl, ⟨c₄, c₅⟩, c, h₂ c₀ e⟩))))

theorem someRefused_some {p : Platform} {base len j a : Nat} (hl : 0 < len) (h : someRefused p base len j = some a) :
    base ≤ a ∧ a < base + len ∧ admits p a = false := by
  unfold someRefused at h
  have hj := Nat.mod_lt j hl
  cases h₁ : firstRefused p (base + j % len) (len - j % len) with
  | some b =>
    rw [h₁] at h
    cases h
    obtain ⟨k₁, k₂, k₃, -⟩ := firstRefused_some h₁
    exact ⟨by omega, by omega, k₃⟩
  | none =>
    rw [h₁, Option.none_or] at h
    obtain ⟨k₁, k₂, k₃, -⟩ := firstRefused_some h
    exact ⟨k₁, k₂, k₃⟩

theorem someRefused_isSome {p : Platform} {base len : Nat} (j : Nat) (h : (firstRefused p base len).isSome = true) :
    (someRefused p base len j).isSome = true := by
  unfold someRefused
  cases firstRefused p (base + j % len) (len - j % len) with
  | some b => rfl
  | none => simpa using h

/-- A refused byte of a range is one of any longer range. -/
theorem firstRefused_mono {p : Platform} {a m n : Nat} (hmn : m ≤ n) (h : (firstRefused p a m).isSome = true) :
    (firstRefused p a n).isSome = true := by
  cases hn : firstRefused p a n with
  | some b => rfl
  | none =>
    have : firstRefused p a m = none := firstRefused_none.mpr fun d h₁ h₂ => firstRefused_none.mp hn d h₁ (by omega)
    rw [this] at h
    cases h

theorem overlapFaddr_spec {s : State} {r : Ranges} (j k : Nat) (hin : 0 < r.inLen) (hout : 0 < r.outLen)
    (h : (firstRefused s.plat s.inst.src.toNat r.inLen).isSome = true ∨
      (firstRefused s.plat s.inst.dst.toNat r.outLen).isSome = true) :
    admits s.plat (overlapFaddr s r j k) = false ∧
      (s.inst.src.toNat ≤ overlapFaddr s r j k ∧ overlapFaddr s r j k < s.inst.src.toNat + r.inLen ∨
       s.inst.dst.toNat ≤ overlapFaddr s r j k ∧ overlapFaddr s r j k < s.inst.dst.toNat + r.outLen) := by
  unfold overlapFaddr
  simp only
  have h' := h.imp (someRefused_isSome k) (someRefused_isSome k)
  cases hx : someRefused s.plat s.inst.src.toNat r.inLen k with
  | none =>
    cases hy : someRefused s.plat s.inst.dst.toNat r.outLen k with
    | none => rw [hx, hy] at h'; simp at h'
    | some b =>
      obtain ⟨k₁, k₂, k₃⟩ := someRefused_some hout hy
      simp only [Option.none_or, Option.or_none, ite_self, Option.getD_some]
      exact ⟨k₃, .inr ⟨k₁, k₂⟩⟩
  | some c =>
    obtain ⟨g₁, g₂, g₃⟩ := someRefused_some hin hx
    cases hy : someRefused s.plat s.inst.dst.toNat r.outLen k with
    | none =>
      simp only [Option.none_or, Option.or_none, ite_self, Option.getD_some]
      exact ⟨g₃, .inl ⟨g₁, g₂⟩⟩
    | some b =>
      obtain ⟨k₁, k₂, k₃⟩ := someRefused_some hout hy
      simp only [Option.some_or]
      split
      · exact ⟨g₃, .inl ⟨g₁, g₂⟩⟩
      · exact ⟨k₃, .inr ⟨k₁, k₂⟩⟩

/-- How an overlapping command ends: in ACCESS_FAULT at an address it may have been refused, or with success and a RESULT
within its bounds; only its output range changes (U6; log 8). -/
theorem overlapEnd_cases (s : State) (r : Ranges) (hin : 0 < r.inLen) (hout : 0 < r.outLen) (hsi : r.sureIn ≤ r.inLen)
    (hso : r.sureOut ≤ r.outLen) (hlo : r.lo ≤ r.hi) :
    (∃ a, admits s.plat a = false ∧
      (s.inst.src.toNat ≤ a ∧ a < s.inst.src.toNat + r.inLen ∨ s.inst.dst.toNat ≤ a ∧ a < s.inst.dst.toNat + r.outLen) ∧
      overlapEnd s r = endAccessFault { s with draws := s.draws + 3 } a s.inst.dst.toNat r.outLen) ∨
    ∃ res, r.lo ≤ res ∧ res ≤ r.hi ∧
      overlapEnd s r =
        endOK { s with draws := s.draws + 3 + r.outLen } (s.mem.havoc s.inst.dst.toNat r.outLen (s.draws + 3)) res := by
  unfold overlapEnd
  simp only
  split
  · next hf =>
    have hr : (firstRefused s.plat s.inst.src.toNat r.inLen).isSome = true ∨
        (firstRefused s.plat s.inst.dst.toNat r.outLen).isSome = true := by
      simp only [Bool.or_eq_true, Bool.and_eq_true] at hf
      rcases hf with (hf | hf) | ⟨hf, -⟩
      · exact .inl (firstRefused_mono hsi hf)
      · exact .inr (firstRefused_mono hso hf)
      · exact hf
    obtain ⟨h₁, h₂⟩ := overlapFaddr_spec (Config.freeNat (s.draws + 1)) (Config.freeNat (s.draws + 2)) hin hout hr
    exact .inl ⟨_, h₁, h₂, rfl⟩
  · refine .inr ⟨_, by omega, ?_, rfl⟩
    have := Nat.mod_lt (Config.freeNat (s.draws + 1)) (show 0 < r.hi - r.lo + 1 by omega)
    omega

end Sys2Proof.Machine
end

