-- ==== Sys2Proof/Laws/Host.lean ====
section
/-! SUPPORT. What the host's actions do to an idle machine: a register of the focused instance is written, a command is issued
(spec/30_encoding.md R99), streams are declared (spec/93_implementation_defined.md U1). -/

namespace Sys2Proof.Machine

section withOperands
variable (s : State) (word : Word) (src dst n : Nat)
@[simp] theorem withOperands_base : (s.withOperands word src dst n).inst.base = s.inst.base := rfl
@[simp] theorem withOperands_result : (s.withOperands word src dst n).inst.result = s.inst.result := rfl
@[simp] theorem withOperands_status : (s.withOperands word src dst n).inst.status = s.inst.status := rfl
@[simp] theorem withOperands_faddr : (s.withOperands word src dst n).inst.faddr = s.inst.faddr := rfl
@[simp] theorem withOperands_work : (s.withOperands word src dst n).inst.work = s.inst.work := rfl
@[simp] theorem withOperands_cmd : (s.withOperands word src dst n).inst.cmd = word := rfl
@[simp] theorem withOperands_src : (s.withOperands word src dst n).inst.src = BitVec.ofNat 64 src := rfl
@[simp] theorem withOperands_dst : (s.withOperands word src dst n).inst.dst = BitVec.ofNat 64 dst := rfl
@[simp] theorem withOperands_count : (s.withOperands word src dst n).inst.count = BitVec.ofNat 64 n := rfl
@[simp] theorem withOperands_others : (s.withOperands word src dst n).others = s.others := rfl
@[simp] theorem withOperands_mem : (s.withOperands word src dst n).mem = s.mem := rfl
@[simp] theorem withOperands_queue : (s.withOperands word src dst n).queue = s.queue := rfl
@[simp] theorem withOperands_hostIn : (s.withOperands word src dst n).hostIn = s.hostIn := rfl
@[simp] theorem withOperands_draws : (s.withOperands word src dst n).draws = s.draws := rfl
@[simp] theorem withOperands_faultLog : (s.withOperands word src dst n).faultLog = s.faultLog := rfl
@[simp] theorem withOperands_plat : (s.withOperands word src dst n).plat = s.plat := rfl
end withOperands

section declaring
variable (s : State) (rs : List Region)
@[simp] theorem declaring_inst : (s.declaring rs).inst = s.inst := rfl
@[simp] theorem declaring_others : (s.declaring rs).others = s.others := rfl
@[simp] theorem declaring_mem : (s.declaring rs).mem = s.mem := rfl
@[simp] theorem declaring_queue : (s.declaring rs).queue = s.queue := rfl
@[simp] theorem declaring_hostIn : (s.declaring rs).hostIn = s.hostIn := rfl
@[simp] theorem declaring_draws : (s.declaring rs).draws = s.draws := rfl
@[simp] theorem declaring_faultLog : (s.declaring rs).faultLog = s.faultLog := rfl
@[simp] theorem declaring_aw : (s.declaring rs).plat.aw = s.plat.aw := rfl
@[simp] theorem declaring_nmax : (s.declaring rs).plat.nmax = s.plat.nmax := rfl
@[simp] theorem declaring_tie : (s.declaring rs).plat.tie = s.plat.tie := rfl
@[simp] theorem declaring_admits : (s.declaring rs).plat.admits = s.plat.admits := rfl
@[simp] theorem declaring_devices : (s.declaring rs).plat.devices = s.plat.devices := rfl
@[simp] theorem declaring_streams : (s.declaring rs).plat.streams = rs := rfl
end declaring

/-- A register address of the focused instance finds its slot (R21). -/
theorem locate_slot (s : State) {k : Nat} (hk : k < 8) : locate s (s.inst.base + 8 * k) = .ok (s, k) := by
  have hb : s.inst.block.has (s.inst.base + 8 * k) = true := by
    simp [Inst.block, Region.has]; omega
  have hs : slotOf (s.inst.base + 8 * k - s.inst.base) = some k := by
    rw [Nat.add_sub_cancel_left, slotOf, if_pos (by omega), Nat.mul_div_cancel_left _ (by decide)]
  simp only [locate, focusOn, hb, if_true, hs]

/-- An address of another instance brings that instance into focus (R39; log 12). -/
theorem focusOn_other {s u : State} {addr : Nat} (h : BroughtIntoFocus s u addr) : focusOn s addr = some u := by
  obtain ⟨xs, y, ys, ho, hx, hy, rfl⟩ := h
  have hswap : ∀ cur, swapIn cur addr (xs ++ y :: ys) = some (y, xs ++ cur :: ys) := by
    clear ho
    induction xs with
    | nil => intro cur; simp [swapIn, hy]
    | cons x xs ih =>
      intro cur
      have := ih (fun z hz => hx z (by simp only [List.mem_cons] at hz ⊢; tauto)) cur
      simp [swapIn, hx x (by simp), this]
  simp [focusOn, hx s.inst (by simp), ho, hswap]

/-- An access at another instance's address finds the slot of that instance (R21, R39; log 12), or is no whole access (R61). -/
theorem locate_other {s u : State} {j : Nat} (h : BroughtIntoFocus s u (u.inst.base + j)) :
    locate s (u.inst.base + j) =
      match slotOf j with
      | none => .error (.partialAccess (u.inst.base + j))
      | some k => .ok (u, k) := by
  cases hk : slotOf j <;> simp [locate, focusOn_other h, hk]

/-- A register access by address keeps every instance: focus may exchange two of them (log 12). -/
theorem swapIn_perm {cur y : Inst} {addr : Nat} {xs ys : List Inst} (h : swapIn cur addr xs = some (y, ys)) :
    (y :: ys).Perm (cur :: xs) := by
  induction xs generalizing y ys with
  | nil => simp [swapIn] at h
  | cons x xs ih =>
    unfold swapIn at h
    split at h
    · cases h; exact List.Perm.swap _ _ _
    · split at h
      · cases h
      · next e =>
        cases h
        exact (List.Perm.swap _ _ _).trans (((ih e).cons x).trans (List.Perm.swap _ _ _))

theorem locate_perm {s t : State} {addr k : Nat} (h : locate s addr = .ok (t, k)) : t.instances.Perm s.instances := by
  unfold locate at h
  split at h
  · cases h
  · next e =>
    split at h <;> cases h
    unfold focusOn at e
    split at e
    · cases e; exact .refl _
    · split at e
      · cases e
      · next hs => cases e; exact swapIn_perm hs

/-- The first action of an idle machine is done, and taken off the queue. -/
theorem step_idle {s : State} (h : Idle s) (a : HostAction) (q : List HostAction) :
    step { s with queue := a :: q } = hostStep { s with queue := q } a := by
  unfold Idle at h
  simp only [step, h, idleStep]

/-- A write of a register other than CMD (R23 to R25, R29). -/
theorem step_regWrite {s : State} (h : Idle s) (q : List HostAction) {k : Nat} (v : BitVec 64) (h₀ : k ≠ 0) (hk : k < 8) :
    step { s with queue := .regWrite (s.inst.base + 8 * k) v :: q } = .next (writeSlot { s with queue := q } k v) := by
  rw [step_idle h]
  show hostWrite runCommand { s with queue := q } (s.inst.base + 8 * k) v = _
  rw [hostWrite, show locate { s with queue := q } (s.inst.base + 8 * k) = .ok ({ s with queue := q }, k) from
    locate_slot { s with queue := q } hk]
  simp only
  rw [if_neg (show ¬ k = cmdSlot from h₀)]

/-- A write of CMD runs the command of the word (R22). -/
theorem step_cmdWrite {s : State} (h : Idle s) (q : List HostAction) (v : BitVec 64) :
    step { s with queue := .regWrite s.inst.base v :: q } = runCommand (writeSlot { s with queue := q } 0 v) := by
  rw [step_idle h]
  show hostWrite runCommand { s with queue := q } s.inst.base v = _
  rw [hostWrite, show locate { s with queue := q } s.inst.base = .ok ({ s with queue := q }, 0) from
    locate_slot { s with queue := q } (k := 0) (by decide)]
  simp only
  rw [if_pos (show (0 : Nat) = cmdSlot from rfl)]

/-- A value below 2^AW is stored as it is (R21). -/
theorem truncAW_of_lt {p : Platform} {v : Nat} (hp : p.wellFormed = true) (hv : v < 2 ^ p.aw) :
    truncAW p (BitVec.ofNat 64 v).toNat = BitVec.ofNat 64 v := by
  simp only [Platform.wellFormed, Bool.and_eq_true, decide_eq_true_eq] at hp
  have : 2 ^ p.aw ≤ 2 ^ 64 := Nat.pow_le_pow_right (by decide) hp.1.2
  rw [truncAW, BitVec.toNat_ofNat, Nat.mod_eq_of_lt (a := v) (by omega), Nat.mod_eq_of_lt hv]

/-- The register writes of an issue, one after the other. -/
theorem perform_regWrite {s : State} (h : Idle s) {b : Nat} (hb : b = s.inst.base) {k : Nat} (v : BitVec 64) (h₀ : k ≠ 0)
    (hk : k < 8) (as : List HostAction) :
    perform (.regWrite (b + 8 * k) v :: as) s = perform as (writeSlot s k v) := by
  subst hb
  rw [perform, step_regWrite h _ _ h₀ hk]
  rfl

/-- The write of the command word ends an issue. -/
theorem perform_cmdWrite {s : State} (h : Idle s) {b : Nat} (hb : b = s.inst.base) (v : BitVec 64) :
    perform [.regWrite b v] s = runCommand (writeSlot s 0 v) := by
  subst hb
  rw [perform, step_cmdWrite h]
  show andThen (runCommand (writeSlot s 0 v)) _ = _
  cases runCommand (writeSlot s 0 v) <;> rfl

/-- Issuing a command to an idle machine runs it with its operands in their registers (R99). -/
theorem issue_eq {s : State} {word : Word} {i : Instr} {src dst n : Nat} (h : Idle s) (hp : s.plat.wellFormed = true)
    (hs : src < 2 ^ s.plat.aw) (hd : dst < 2 ^ s.plat.aw) (hn : n < 2 ^ s.plat.aw) (hw : decodeCommand word = .ok i) :
    issue word src dst n s = exec i (s.withOperands word src dst n) := by
  have h₁ := perform_regWrite (s := s) (k := 1) h rfl (BitVec.ofNat 64 src) (by decide) (by decide)
  have h₂ := perform_regWrite (s := writeSlot s 1 (BitVec.ofNat 64 src)) (k := 2) h (b := s.inst.base) rfl
    (BitVec.ofNat 64 dst) (by decide) (by decide)
  have h₃ := perform_regWrite (s := writeSlot (writeSlot s 1 (BitVec.ofNat 64 src)) 2 (BitVec.ofNat 64 dst)) (k := 3) h
    (b := s.inst.base) rfl (BitVec.ofNat 64 n) (by decide) (by decide)
  have h₄ := perform_cmdWrite (s := writeSlot (writeSlot (writeSlot s 1 (BitVec.ofNat 64 src)) 2 (BitVec.ofNat 64 dst)) 3
    (BitVec.ofNat 64 n)) h (b := s.inst.base) rfl (word.setWidth 64)
  have hops : writeSlot (writeSlot (writeSlot (writeSlot s 1 (BitVec.ofNat 64 src)) 2 (BitVec.ofNat 64 dst)) 3
      (BitVec.ofNat 64 n)) 0 (word.setWidth 64) = s.withOperands word src dst n := by
    simp only [writeSlot, Inst.regWrite, truncAW_of_lt hp hs, truncAW_of_lt hp hd, truncAW_of_lt hp hn, State.withOperands]
    simp
  unfold issue
  rw [h₁, h₂, h₃, h₄, hops]
  simp only [runCommand, State.withOperands, hw]

/-- Declaring streams while no command runs (93 U1). -/
theorem perform_declare {s : State} (h : Idle s) (rs : List Region) : perform [.declare rs] s = .next (s.declaring rs) := by
  simp only [perform]
  rw [step_idle h]
  rfl

end Sys2Proof.Machine
end

