-- ==== Sys2Proof/Laws/PerInstr.lean ====
section
/-! SUPPORT. One lemma per instruction: it is well-formed, its number fits the bits the opcode table gives it, and the
decoder reads it back from them. -/

namespace Sys2Proof.Laws.Encoding

/-- The instruction is well-formed and is what the decoder reads from its own number, in its own width. -/
def Statement (i : Instr) : Prop :=
  i.wellFormed = true ∧ i.code < 2 ^ i.bits ∧ decodeTableWord i.bits i.code = some i

theorem encS : Statement .encS := ⟨rfl, by decide, by decide⟩
theorem encU : Statement .encU := ⟨rfl, by decide, by decide⟩
theorem decS : Statement .decS := ⟨rfl, by decide, by decide⟩
theorem decU : Statement .decU := ⟨rfl, by decide, by decide⟩
theorem szp : Statement .szp := ⟨rfl, by decide, by decide⟩
theorem szw : Statement .szw := ⟨rfl, by decide, by decide⟩
theorem tCom : Statement .tCom := ⟨rfl, by decide, by decide⟩
theorem tS8 : Statement .tS8 := ⟨rfl, by decide, by decide⟩
theorem tS16 : Statement .tS16 := ⟨rfl, by decide, by decide⟩
theorem tS32 : Statement .tS32 := ⟨rfl, by decide, by decide⟩

end Sys2Proof.Laws.Encoding
end

