-- ==== Sys2Proof/Laws/Streams.lean ====
section
/-! SUPPORT. Streams as values and as bytes: what parsing gives back, the word array as bytes, the encoder's stream as its
three regions. -/

namespace Sys2Proof.Machine

/-- What parsing records gives: the tags asked for, each record with its payload, and the bytes split where they end (R90,
R91). -/
theorem takeRecs_some (ts : List Tag) (res : List Byte) (rs rest) (h : takeRecs ts res = some (rs, rest)) :
    rs.map Rec.tag = ts ∧ rs.all Rec.wellFormed = true ∧ res = rs.flatMap Rec.payload ++ rest := by
  induction ts generalizing res rs rest with
  | nil => simp [takeRecs] at h; obtain ⟨rfl, rfl⟩ := h; simp
  | cons t ts ih =>
    unfold takeRecs takeRec at h
    split at h
    · simp at h
    · next r res' e =>
      split at e
      · next hl =>
        simp at e
        obtain ⟨rfl, rfl⟩ := e
        split at h
        · simp at h
        · next rs' rest' e' =>
          simp at h
          obtain ⟨rfl, rfl⟩ := h
          obtain ⟨h1, h2, h3⟩ := ih _ _ _ e'
          refine ⟨by simp [h1], by simp [h2, Rec.wellFormed, hl], ?_⟩
          simp only [List.flatMap_cons, List.append_assoc, ← h3, List.take_append_drop]
      · simp at e

/-- What parsing a stream gives: the header, the tags of the tag region, and the residual region split where the last payload
ends (R83 to R91). -/
theorem parseStream_ok {n : Nat} {s : List Byte} {st rest} (hn : 0 < n) (h : parseStream n s = .ok (st, rest)) :
    st.header = some (BitVec.ofNat 32 (unle (s.take 4))) ∧ st.recs.length = n ∧ st.recs.all Rec.wellFormed = true ∧
    st.recs.map Rec.tag = unpackTags n ((s.drop 4).take (tagBytes n)) ∧
    4 + tagBytes n ≤ s.length ∧ s.drop (4 + tagBytes n) = st.recs.flatMap Rec.payload ++ rest := by
  unfold parseStream at h
  rw [if_neg (by omega)] at h
  split at h
  · simp at h
  · next hl =>
    split at h
    · simp at h
    · next rs rest' e =>
      simp at h
      obtain ⟨rfl, rfl⟩ := h
      obtain ⟨h1, h2, h3⟩ := takeRecs_some _ _ _ _ e
      refine ⟨rfl, ?_, h2, h1, by omega, h3⟩
      have := congrArg List.length h1
      simpa [unpackTags] using this

/-- Parsing looks at no byte past the last payload: any bytes that agree up to there parse to the same stream (R97). -/
theorem parseStream_of_prefix {n : Nat} {u rest s' : List Byte} {st : Stream}
    (h : parseStream n (u ++ rest) = .ok (st, rest)) : parseStream n (u ++ s') = .ok (st, s') := by
  by_cases hn : n = 0
  · subst hn
    simp only [parseStream, if_true, Except.ok.injEq, Prod.mk.injEq] at h ⊢
    have : u = [] := by simpa using h.2
    exact ⟨h.1, by simp [this]⟩
  · obtain ⟨h₁, h₂, h₃, h₄, h₅, h₆⟩ := parseStream_ok (by omega) h
    have hu : 4 + tagBytes n ≤ u.length := by
      have := congrArg List.length h₆
      simp only [List.length_drop, List.length_append] at this h₅
      omega
    have h₇ : u.drop (4 + tagBytes n) = st.recs.flatMap Rec.payload := by
      rw [List.drop_append_of_le_length hu] at h₆
      exact List.append_cancel_right h₆
    have hhead : ∀ v : List Byte, (u ++ v).take 4 = u.take 4 := fun v => List.take_append_of_le_length (by omega)
    have htags : ∀ v : List Byte, ((u ++ v).drop 4).take (tagBytes n) = (u.drop 4).take (tagBytes n) := fun v => by
      rw [List.drop_append_of_le_length (by omega), List.take_append_of_le_length (by simp; omega)]
    unfold parseStream
    rw [if_neg hn, if_neg (by simp; omega), htags, ← htags rest, ← h₄, List.drop_append_of_le_length hu, h₇,
      takeRecs_payloads _ h₃, hhead, ← hhead rest, ← h₁]

theorem readBytes_drop (m : Memory) (a n k : Nat) (h : k ≤ n) : (m.readBytes a n).drop k = m.readBytes (a + k) (n - k) := by
  conv_lhs => rw [show n = k + (n - k) by omega, readBytes_append]
  rw [List.drop_left' (by simp)]

theorem readBytes_take (m : Memory) (a n k : Nat) (h : k ≤ n) : (m.readBytes a n).take k = m.readBytes a k := by
  conv_lhs => rw [show n = k + (n - k) by omega, readBytes_append]
  rw [List.take_left' (by simp)]

/-- The words of an array whose bytes are those of a list of words (R94). -/
theorem words_of_bytes (m : Memory) (a : Nat) (ws : List Word) (h : m.readBytes a (4 * ws.length) = wordBytes ws) :
    m.words a ws.length = ws := by
  induction ws generalizing a with
  | nil => rfl
  | cons w ws ih =>
    have hb : wordBytes (w :: ws) = leBytes 4 w.toNat ++ wordBytes ws := by simp [wordBytes]
    rw [hb, List.length_cons, show 4 * (ws.length + 1) = 4 + 4 * ws.length by omega, readBytes_append] at h
    obtain ⟨h1, h2⟩ := List.append_inj h (by simp)
    have := ih _ h2
    rw [List.length_cons]
    unfold Memory.words at this ⊢
    rw [List.range_succ_eq_map, List.map_cons, List.map_map]
    congr 1
    · unfold Memory.word; rw [Nat.mul_zero, Nat.add_zero, h1, ofNat_unle_leBytes]
    · conv_rhs => rw [← this]
      apply List.map_congr_left
      intro j _
      simp only [Function.comp, Memory.word]
      rw [show a + 4 * (j + 1) = a + 4 + 4 * j by omega]

theorem residuals_length_le (c : Word) (ds : List Word) : (residuals c ds).length ≤ 4 * ds.length := by
  induction ds with
  | nil => simp
  | cons d ds ih => 
    simp only [residuals_cons, List.length_append, payload_length, List.length_cons]
    have := resLen_le (classify c d)
    omega

/-- The encoder's stream as its three regions (R83, R130). -/
theorem encodeList_eq (tie : TieRule) (xs : List Word) (h : xs ≠ []) : encodeList tie xs =
    leBytes 4 (commonOf tie xs).toNat ++ packTags ((deltas xs).map (classify (commonOf tie xs))) ++ residuals (commonOf tie xs) (deltas xs) := by
  have hne : deltas xs ≠ [] := by
    intro e
    have : (deltas xs).length = 0 := by rw [e]; rfl
    simp [deltas, h] at this
  simp [encodeList, streamOf, hne, emitStream, residuals, recordOf, List.map_map, List.flatMap_map, Function.comp_def]

end Sys2Proof.Machine
end

