-- ==== Sys2Proof/Laws/Touched.lean ====
section
/-! SUPPORT. The bytes that every successful run of ENC and DEC touches, and that the platform must therefore admit
(spec/20_memory.md R56, R67): a refused one among them ends the command in ACCESS_FAULT. -/

namespace Sys2Proof.Machine

/-- The histogram pass reads every word of the input. -/
theorem histLoop_admitted {p : Platform} {m : Memory} {k : Nat} {w w' : Work} (h : histLoop p m k w = .ok w') :
    ∀ a, w.src + 4 * w.i ≤ a → a < w.src + 4 * (w.i + k) → admits p a = true := by
  induction k generalizing w with
  | zero => intro a h₁ h₂; omega
  | succ k ih =>
    unfold histLoop at h
    split at h
    · cases h
    · next w₁ he =>
      obtain ⟨⟨-, -, hs, -⟩, hi⟩ := histElem_ok he
      have hr : ∀ a, w.src + 4 * w.i ≤ a → a < w.src + 4 * w.i + 4 → admits p a = true := by
        unfold histElem readInput at he
        split at he
        · cases he
        · next hm =>
          split at hm
          · cases hm
          · next hv => exact (memRead_ok hv).2
      have hrest := ih h
      rw [hs, hi] at hrest
      intro a h₁ h₂
      by_cases ha : a < w.src + 4 * w.i + 4
      · exact hr a h₁ ha
      · exact hrest a (by omega) (by omega)

/-- The emission pass writes the tag byte of every group it ends. -/
theorem emitLoop_admitted {p : Platform} {k : Nat} {m m' : Memory} {w w' : Work} (h : emitLoop p k m w = .ok (m', w')) :
    ∀ j, w.i ≤ j → j < w.i + k → (j % 4 = 3 ∨ j + 1 = w.n) → admits p (w.dst + 4 + j / 4) = true := by
  induction k generalizing m w with
  | zero => intro j h₁ h₂; omega
  | succ k ih =>
    unfold emitLoop at h
    split at h
    · cases h
    · next m₁ w₁ he =>
      obtain ⟨⟨-, hn, -, hd⟩, hi, -⟩ := emitElem_ok he
      have hrest := ih h
      rw [hi, hn, hd] at hrest
      intro j h₁ h₂ hg
      by_cases hj : j = w.i
      · subst hj
        unfold emitElem at he
        split at he
        · cases he
        · next w₂ hf =>
          obtain ⟨⟨-, fn, -, fd⟩, fi, -⟩ := fetchDelta_ok hf
          unfold emitRecord at he
          split at he
          · cases he
          · next hp =>
            obtain ⟨-, rfl, -⟩ := packOf_ok hp
            rcases flushTag_ok he with ⟨-, -, -, h₄⟩ | ⟨h₄, -⟩
            · simpa [Work.addTag, fd, fi] using h₄
            · exact absurd (by simpa [Work.addTag, fn, fi] using hg) h₄
      · exact hrest j (by omega) (by omega) hg

/-- The decode pass reads the tag byte and writes the word of every element. -/
theorem decLoop_admitted {p : Platform} {k : Nat} {m m' : Memory} {w w' : Work} (h : decLoop p k m w = .ok (m', w')) :
    ∀ j, w.i ≤ j → j < w.i + k →
      admits p (w.src + 4 + j / 4) = true ∧ ∀ a, w.dst + 4 * j ≤ a → a < w.dst + 4 * j + 4 → admits p a = true := by
  induction k generalizing m w with
  | zero => intro j h₁ h₂; omega
  | succ k ih =>
    unfold decLoop at h
    split at h
    · cases h
    · next m₁ w₁ he =>
      obtain ⟨⟨-, hn, hs, hd⟩, hi, -⟩ := decElem_ok he
      have hrest := ih h
      rw [hi, hs, hd] at hrest
      intro j h₁ h₂
      by_cases hj : j = w.i
      · subst hj
        unfold decElem at he
        split at he
        · cases he
        · next w₂ hf =>
          obtain ⟨rfl, ht⟩ := fetchTag_ok hf
          unfold decRecord at he
          split at he
          · cases he
          · next hu =>
            obtain ⟨rfl, -⟩ := unpackOf_ok hu
            exact ⟨ht, (accumulate_ok he).2.2⟩
      · exact hrest j (by omega) (by omega)

/-- ENC that ends with success had its input, its header and its tag region admitted (R146). -/
theorem encPasses_admitted {p : Platform} {m m' : Memory} {w w' : Work} (h : encPasses p m w = .ok (m', w'))
    (hi : w.i = 0) :
    (∀ a, w.src ≤ a → a < w.src + 4 * w.n → admits p a = true) ∧
    ∀ a, w.dst ≤ a → a < w.dst + (4 + tagBytes w.n) → admits p a = true := by
  unfold encPasses at h
  split at h
  · cases h
  · next w₁ hh =>
    obtain ⟨⟨-, h₁, h₂, h₃⟩, -⟩ := histLoop_ok hh
    have hin := histLoop_admitted hh
    split at h
    · cases h
    · next m₂ w₂ hl =>
      obtain ⟨-, k₁, k₂, k₃, k₄, -⟩ := layout_ok hl
      have htags := emitLoop_admitted h
      rw [k₄, k₁, h₁, k₃, h₃] at htags
      have hhead : ∀ a, w.dst ≤ a → a < w.dst + 4 → admits p a = true := by
        unfold layout at hl
        split at hl
        · cases hl
        · next hw => rw [← h₃]; simpa using (memWrite_ok hw).2
      refine ⟨fun a g₁ g₂ => hin a (by omega) (by omega), fun a g₁ g₂ => ?_⟩
      by_cases ha : a < w.dst + 4
      · exact hhead a g₁ ha
      · have hq : a - (w.dst + 4) < tagBytes w.n := by omega
        unfold tagBytes at hq
        have := htags (min (4 * (a - (w.dst + 4)) + 3) (w.n - 1)) (by omega) (by omega) (by omega)
        rwa [show w.dst + 4 + min (4 * (a - (w.dst + 4)) + 3) (w.n - 1) / 4 = a by omega] at this

/-- DEC that ends with success had its header, its tag region and its output admitted (R201). -/
theorem decPasses_admitted {p : Platform} {m m' : Memory} {w w₁ w' : Work} (hr : readHeader p m w = .ok w₁)
    (h : decLoop p w₁.n m w₁ = .ok (m', w')) :
    (∀ a, w.src ≤ a → a < w.src + (4 + tagBytes w.n) → admits p a = true) ∧
    ∀ a, w.dst ≤ a → a < w.dst + 4 * w.n → admits p a = true := by
  obtain ⟨-, h₁, h₂, h₃, h₄, -⟩ := readHeader_ok hr
  have hloop := decLoop_admitted h
  rw [h₁, h₂, h₃, h₄] at hloop
  have hhead : ∀ a, w.src ≤ a → a < w.src + 4 → admits p a = true := by
    unfold readHeader at hr
    split at hr
    · cases hr
    · next hw => exact (streamRead_ok hw).2
  refine ⟨fun a g₁ g₂ => ?_, fun a g₁ g₂ => ?_⟩
  · by_cases ha : a < w.src + 4
    · exact hhead a g₁ ha
    · have hq : a - (w.src + 4) < tagBytes w.n := by omega
      unfold tagBytes at hq
      have := (hloop (4 * (a - (w.src + 4))) (by omega) (by omega)).1
      rwa [show w.src + 4 + 4 * (a - (w.src + 4)) / 4 = a by omega] at this
  · exact (hloop ((a - w.dst) / 4) (by omega) (by omega)).2 a (by omega) (by omega)

/-- A codec command that its checks let run, and one of whose surely touched bytes is refused, does not end with success:
it ends in ACCESS_FAULT at a refused byte of its ranges. -/
theorem exec_codec_refused {s : State} {i : Instr} (hi : isCodec i = true) (h₁ : OperandsLegal i s)
    (h₂ : RangesOrdinary i s) (h₃ : RangesDisjoint i s)
    (h : someByteRefused s.plat s.inst.src.toNat (rangesOf i s.inst.count.toNat).sureIn ∨
      someByteRefused s.plat s.inst.dst.toNat (rangesOf i s.inst.count.toNat).sureOut) :
    ∃ a, admits s.plat a = false ∧
      (s.inst.src.toNat ≤ a ∧ a < s.inst.src.toNat + (rangesOf i s.inst.count.toNat).inLen ∨
       s.inst.dst.toNat ≤ a ∧ a < s.inst.dst.toNat + (rangesOf i s.inst.count.toNat).outLen) ∧
      exec i s = .next (endAccessFault s a s.inst.dst.toNat (rangesOf i s.inst.count.toNat).outLen) := by
  have hn := h₁.1
  have enc : ∀ j, j = Instr.encS ∨ j = .encU → OperandsLegal j s → RangesOrdinary j s → RangesDisjoint j s →
      someByteRefused s.plat s.inst.src.toNat (4 * s.inst.count.toNat) ∨
        someByteRefused s.plat s.inst.dst.toNat (4 + tagBytes s.inst.count.toNat) →
      ∃ a, admits s.plat a = false ∧
        (s.inst.src.toNat ≤ a ∧ a < s.inst.src.toNat + 4 * s.inst.count.toNat ∨
         s.inst.dst.toNat ≤ a ∧ a < s.inst.dst.toNat + maxPrecodedSize s.inst.count.toNat) ∧
        exec j s = .next (endAccessFault s a s.inst.dst.toNat (maxPrecodedSize s.inst.count.toNat)) := by
    intro j hj g₁ g₂ g₃ hb
    rw [exec_enc_of_running hj (startEnc_of_ready hj g₁ g₂ g₃)]
    cases he : encPasses s.plat s.mem (encWork s) with
    | error a =>
      obtain ⟨k₁, k₂⟩ := encPasses_error he rfl
      exact ⟨a, k₂, by rw [maxPrecodedSize_pos hn]; exact k₁, rfl⟩
    | ok x =>
      obtain ⟨k₁, k₂⟩ := encPasses_admitted he rfl
      rcases hb with ⟨a, b₁, b₂, b₃⟩ | ⟨a, b₁, b₂, b₃⟩
      · rw [k₁ a b₁ b₂] at b₃; cases b₃
      · rw [k₂ a b₁ b₂] at b₃; cases b₃
  have dec : ∀ j, j = Instr.decS ∨ j = .decU → OperandsLegal j s → RangesOrdinary j s → RangesDisjoint j s →
      someByteRefused s.plat s.inst.src.toNat (4 + tagBytes s.inst.count.toNat) ∨
        someByteRefused s.plat s.inst.dst.toNat (4 * s.inst.count.toNat) →
      ∃ a, admits s.plat a = false ∧
        (s.inst.src.toNat ≤ a ∧ a < s.inst.src.toNat + maxPrecodedSize s.inst.count.toNat ∨
         s.inst.dst.toNat ≤ a ∧ a < s.inst.dst.toNat + 4 * s.inst.count.toNat) ∧
        exec j s = .next (endAccessFault s a s.inst.dst.toNat (4 * s.inst.count.toNat)) := by
    intro j hj g₁ g₂ g₃ hb
    have hrun := startDec_of_ready hj g₁ g₂ g₃
    rw [exec_dec_of_running hj hrun]
    cases hr : readHeader s.plat s.mem (decWork s) with
    | error a =>
      obtain ⟨k₁, k₂, k₃⟩ := readHeader_error hr
      simp only [Work.start] at k₁ k₂
      exact ⟨a, k₃, .inl ⟨k₁, by rw [maxPrecodedSize_pos hn]; omega⟩, rfl⟩
    | ok w₁ =>
      simp only
      cases he : decLoop s.plat w₁.n s.mem w₁ with
      | error a =>
        obtain ⟨c₀, c₁, c₂, c₃, c₄, c₅⟩ := readHeader_ok hr
        obtain ⟨k₁, k₂⟩ := decLoop_error he (by rw [c₅, c₂, c₁]) (by omega)
        simp only [Work.start] at c₁ c₂ c₃ c₅
        rw [c₅, c₂, c₁, c₃] at k₁
        exact ⟨a, k₂, by rw [maxPrecodedSize_pos hn]; omega, by simp [decEnd, Work.outLen, c₀, c₁, c₃]⟩
      | ok x =>
        obtain ⟨k₁, k₂⟩ := decPasses_admitted hr he
        rcases hb with ⟨a, b₁, b₂, b₃⟩ | ⟨a, b₁, b₂, b₃⟩
        · rw [k₁ a b₁ b₂] at b₃; cases b₃
        · rw [k₂ a b₁ b₂] at b₃; cases b₃
  cases i with
  | encS => exact enc _ (.inl rfl) h₁ h₂ h₃ h
  | encU => exact enc _ (.inr rfl) h₁ h₂ h₃ h
  | decS => exact dec _ (.inl rfl) h₁ h₂ h₃ h
  | decU => exact dec _ (.inr rfl) h₁ h₂ h₃ h
  | szp | szw | tCom | tS8 | tS16 | tS32 => cases hi

end Sys2Proof.Machine
end

