-- ==== Sys2Proof/Tests/Slice0.lean ====
section
/-! SUPPORT. Tests and witnesses. Expected results come from spec/95_test_vectors.md (the vector is named) or from a rule's
own words, never from a run of the model. A `witness_` theorem shows a concrete case that meets all the hypotheses of the
statement it names. -/

namespace Sys2Proof.Tests

open Sys2Proof Sys2Proof.Machine

set_option maxRecDepth 20000

/-! ## Helpers -/

/-- Memory with these bytes in it. -/
def memOf (cs : List (Nat × List Byte)) : Memory := cs.foldl (fun m c => m.writeBytes c.1 c.2) []

/-- The reset machine with operands written and some bytes in memory. -/
def ops (src dst n : Nat) (cs : List (Nat × List Byte)) : State :=
  { State.reset with
    inst := { State.reset.inst with src := BitVec.ofNat 64 src, dst := BitVec.ofNat 64 dst, count := BitVec.ofNat 64 n }
    mem := memOf cs }

/-- The same with another admission. -/
def opsAdm (rs : List Region) (src dst n : Nat) (cs : List (Nat × List Byte)) : State :=
  { ops src dst n cs with plat := { Config.reference with admits := rs } }

/-- A number list of what follows an outcome, empty at a stop. -/
def look (f : State → List Nat) : Host.Outcome State Fault Refusal → List Nat
  | .next t => f t
  | .fault _ => []
  | .refused _ => []

/-- RESULT, STATUS, FADDR. -/
def ends (t : State) : List Nat := [t.inst.result.toNat, t.inst.status.toNat, t.inst.faddr.toNat]

/-- The bytes at an address. -/
def bytesAt (a n : Nat) (t : State) : List Nat := (t.mem.readBytes a n).map BitVec.toNat

/-- A running command at element `i` of `n`, its residual cursor at `cur`. -/
def workAt (pass : Pass) (n i src dst cur : Nat) (common acc delta : Word) (tagByte : Byte) : Work :=
  { pass := pass, n := n, src := src, dst := dst, prev := 0#32, acc := acc, common := common, delta := delta, tag := .com,
    i := i, tagByte := tagByte, resCur := cur, hist := [], view := 0 }

/-- The reset machine with that command running. -/
def running (w : Work) (cs : List (Nat × List Byte)) : State :=
  { ops 0 0 0 cs with inst := { State.reset.inst with work := some w } }

/-- Accumulator, residual cursor and element index of the running command. -/
def cursor (t : State) : List Nat :=
  match t.inst.work with
  | none => []
  | some w => [w.acc.toNat, w.resCur, w.i]

/-- Tag byte, residual cursor and element index of the running command. -/
def packer (t : State) : List Nat :=
  match t.inst.work with
  | none => []
  | some w => [w.tagByte.toNat, w.resCur, w.i]

/-- The number of an instruction read, one more, and 0 for none. -/
def numOf : Option Instr → Nat
  | none => 0
  | some i => i.code + 1

/-! ## Well-formedness: each check refuses a bad term -/

/-- R88: a T.S8 record carries one byte, not two. -/
theorem test_wf_rec_payload : Rec.wellFormed ⟨.s8, [1#8, 2#8]⟩ = false ∧ Rec.wellFormed ⟨.s8, [1#8]⟩ = true := by decide

/-- R84: the common value is omitted exactly when there is no element. -/
theorem test_wf_stream_header :
    Stream.wellFormed ⟨some 0#32, []⟩ = false ∧ Stream.wellFormed ⟨none, [⟨.com, []⟩]⟩ = false ∧
      Stream.wellFormed ⟨none, []⟩ = true := by decide

/-- R88: a stream with one bad record is bad. -/
theorem test_wf_stream_record : Stream.wellFormed ⟨some 0#32, [⟨.com, []⟩, ⟨.s16, [1#8]⟩]⟩ = false := by decide

/-- R5: 32 <= AW <= 64, and the worst-case size of NMAX elements is below 2^AW. -/
theorem test_wf_platform :
    Config.reference.wellFormed = true ∧ Platform.wellFormed { Config.reference with aw := 31 } = false ∧
      Platform.wellFormed { Config.reference with aw := 65 } = false ∧
      Platform.wellFormed { Config.reference with nmax := 2 ^ 62 } = false := by decide

/-! ## Decoding: words written out from the encodings -/

/-- R80: bits 31:8 zero, bits 7:5 zero, bit 4 is U, bits 3:0 the operation. -/
theorem test_decode_commands :
    decodeTableWord 32 0b00000000000000000000000000000001 = some .encS ∧
    decodeTableWord 32 0b00000000000000000000000000010001 = some .encU ∧
    decodeTableWord 32 0b00000000000000000000000000000010 = some .decS ∧
    decodeTableWord 32 0b00000000000000000000000000010010 = some .decU ∧
    decodeTableWord 32 0b00000000000000000000000000000011 = some .szp ∧
    decodeTableWord 32 0b00000000000000000000000000000100 = some .szw := by decide

/-- R81, V-FLT-1 to V-FLT-5, V-SZ-2: words one bit away from legal ones. -/
theorem test_decode_illegal :
    [0x00000000, 0x00000005, 0x00000021, 0x80000001, 0x00000014, 0x00000013, 0x00000101].map
      (fun w => numOf (decodeTableWord 32 w)) = [0, 0, 0, 0, 0, 0, 0] := by decide

/-- R87, R88: the tags 00, 01, 10, 11. -/
theorem test_decode_tags :
    decodeTableWord 2 0b00 = some .tCom ∧ decodeTableWord 2 0b01 = some .tS8 ∧ decodeTableWord 2 0b10 = some .tS16 ∧
      decodeTableWord 2 0b11 = some .tS32 := by decide

/-- V-PK-2: extraction from 0xE4 and from 0xC1. -/
theorem test_decode_lanes :
    (unpackTags 4 [0xE4#8]) = [.com, .s8, .s16, .s32] ∧ (unpackTags 4 [0xC1#8]) = [.s8, .com, .com, .s32] := by decide

/-- V-PK-2: assembly, eight bytes of the table. -/
theorem test_pack_lanes :
    [[Tag.s8, .com, .com, .com], [.com, .s8, .com, .com], [.com, .com, .com, .s16], [.s32, .s32, .s32, .s32],
     [.s8, .s16, .s32, .com], [.s8, .com, .com, .s32], [.com, .s8, .s16, .s32], [.com, .com, .s16, .com]].map
      (fun ts => (tagByteOf ts).toNat) = [0x01, 0x04, 0x80, 0xFF, 0x39, 0xC1, 0xE4, 0x20] := by decide

/-- V-PK-2: insertion one tag after another gives the same byte. -/
theorem test_insert_lanes :
    insertTag (insertTag (insertTag (insertTag 0#8 .s8 0) .s16 1) .s32 2) .com 3 = 0x39#8 := by decide

/-! ## Arithmetic and classification -/

/-- V-BC-2: two deltas that wrap. -/
theorem test_deltas : deltaOf 0x0001871E#32 0x0000272A#32 = 0xFFFEA00C#32 ∧ deltaOf 0x10#32 0#32 = 0xFFFFFFF0#32 := by decide

/-- V-BC-4. -/
theorem test_sign_extension :
    sext8 0x7F = 0x7F#32 ∧ sext8 0x80 = 0xFFFFFF80#32 ∧ sext16 0x8000 = 0xFFFF8000#32 ∧ sext16 0xFF7F = 0xFFFFFF7F#32 ∧
      sext16 0x80 = 0x80#32 := by decide

/-- V-PK-1: the boundary deltas with common value 0. -/
theorem test_classify :
    [0, 127, 0xFFFFFF80, 128, 0xFFFFFF7F, 0x7FFF, 0xFFFF8000, 0x8000, 0xFFFF7FFF, 0x80000000].map
      (fun d => (classify 0#32 (BitVec.ofNat 32 d)).code.toNat) = [0, 1, 1, 2, 2, 2, 2, 3, 3, 3] := by decide

/-- V-PK-1: the test for the common value comes first. -/
theorem test_classify_common : classify 1#32 1#32 = .com ∧ classify 0x80000000#32 0x80000000#32 = .com := by decide

/-- V-ENC-5c: three modes, the smallest signed one is taken. -/
theorem test_tie_lowest : tieChoice .lowest (histOf [0x7FFFFFFF#32, 1#32, 0xFFFFFFFF#32]) = 0xFFFFFFFF#32 := by decide

/-! ## ENC.S, ENC.U, DEC.S, DEC.U, SZP, SZW -/

/-- S2, corrected: ENC.S on the seven words of scenario 2. -/
theorem test_encS_scenario2 :
    look (fun t => ends t ++ bytesAt 0x2000 14 t)
      (exec .encS (ops 0x1000 0x2000 7
        [(0x1000, [123, 124, 125, 100125, 100125, 100126, 100126].flatMap (leBytes 4)), (0x200D, [0xEE#8])])) =
      [13, 1, 0, 0x01, 0, 0, 0, 0xC1, 0x11, 0x7B, 0xA0, 0x86, 1, 0, 0, 0, 0xEE] := by decide

/-- V-ENC-5a: a tie, the lowest mode taken. -/
theorem test_encS_tie :
    look (fun t => ends t ++ bytesAt 0x2000 7 t)
      (exec .encS (ops 0x1000 0x2000 4 [(0x1000, [3, 6, 5, 4].flatMap (leBytes 4))])) =
      [7, 1, 0, 0xFF, 0xFF, 0xFF, 0xFF, 0x05, 3, 3] := by decide

/-- V-ENC-14: unaligned addresses, and the bytes past the stream are not written. -/
theorem test_encU_unaligned :
    look (fun t => ends t ++ bytesAt 0x2003 9 t)
      (exec .encU (ops 0x1001 0x2003 3
        [(0x1001, [0xFFFFFFF0, 0x10, 0].flatMap (leBytes 4)), (0x2003, List.replicate 9 0xAA#8)])) =
      [6, 1, 0, 0xF0, 0xFF, 0xFF, 0xFF, 0x04, 0x20, 0xAA, 0xAA, 0xAA] := by decide

/-- V-FLT-14: the lowest refused byte of the second word read. -/
theorem test_encU_access_fault :
    look ends (exec .encU (opsAdm [⟨0, 0x1006⟩, ⟨0x1007, 0x10000⟩] 0x1000 0x2000 4 [])) = [0, 0x21, 0x1006] := by decide

/-- V-DEC-4: the accumulator wraps. -/
theorem test_decS_wraps :
    look (fun t => ends t ++ bytesAt 0x3000 8 t)
      (exec .decS (ops 0x2000 0x3000 2 [(0x2000, [0x00#8, 0x00#8, 0x00#8, 0x80#8, 0x04#8, 0xFF#8])])) =
      [2, 1, 0, 0, 0, 0, 0x80, 0xFF, 0xFF, 0xFF, 0x7F] := by decide

/-- V-DEC-8e: padding lanes that hold ones, and a negative payload byte. -/
theorem test_decS_padding :
    look (fun t => ends t ++ bytesAt 0x3000 4 t)
      (exec .decS (ops 0x2000 0x3000 1 [(0x2000, [7#8, 0#8, 0#8, 0#8, 0xFD#8, 0xF9#8])])) =
      [1, 1, 0, 0xF9, 0xFF, 0xFF, 0xFF] := by decide

/-- V-DEC-11: a stream no encoder writes. -/
theorem test_decU_noncanonical :
    look (fun t => ends t ++ bytesAt 0x3000 20 t)
      (exec .decU (ops 0x2000 0x3000 5
        [(0x2000, [0#8, 0#8, 0#8, 0x40#8, 0xE0#8, 0xFD#8, 5#8, 0#8, 0#8, 0#8, 0#8, 0x40#8, 0xFB#8])])) =
      [5, 1, 0, 0, 0, 0, 0x40, 0, 0, 0, 0x80, 5, 0, 0, 0x80, 5, 0, 0, 0xC0, 0, 0, 0, 0xC0] := by decide

/-- V-DEC-14 (R198): DEC reads whatever bytes are there. -/
theorem test_decU_short_stream :
    look (fun t => ends t ++ bytesAt 0x3000 16 t)
      (exec .decU (ops 0x2000 0x3000 4 [(0x2000, [0#8, 0#8, 0#8, 0#8, 0x55#8, 1#8, 2#8, 3#8, 4#8])])) =
      [4, 1, 0, 1, 0, 0, 0, 3, 0, 0, 0, 6, 0, 0, 0, 10, 0, 0, 0] := by decide

/-- U1: a payload byte outside the stream's buffer is taken as any value; the command ends as V-DEC-14 says all the same. -/
theorem test_decS_undeclared :
    look ends (exec .decS { ops 0x2000 0x3000 1 [(0x2000, [0#8, 0#8, 0#8, 0#8, 0x01#8, 9#8])] with
      plat := { Config.reference with streams := [⟨0x2000, 5⟩] } }) = [1, 1, 0] := by decide

/-- U1: of two buffers declared side by side, the one that holds SRC is the stream's, and the other's bytes are any value. -/
theorem test_own_buffer_only :
    [0x1FFF, 0x2000, 0x2004, 0x2005, 0x200C].map (declared { Config.reference with streams := [⟨0x2005, 8⟩, ⟨0x2000, 5⟩] } 0x2000) =
        [false, true, true, false, false] ∧
      [0x2004, 0x2005].map (declared { Config.reference with streams := [⟨0x2005, 8⟩] } 0x2000) = [false, false] := by decide

/-- V-SZ-1. -/
theorem test_szp :
    [0, 1, 2, 3, 4, 5, 7, 8, 9].map (fun n => look ends (exec .szp (ops 1 2 n []))) =
      [[0, 1, 0], [9, 1, 0], [13, 1, 0], [17, 1, 0], [21, 1, 0], [26, 1, 0], [34, 1, 0], [38, 1, 0], [43, 1, 0]] := by decide

/-- V-FLT-7 and V-SZ-2: NMAX and one more. -/
theorem test_szp_nmax :
    look ends (exec .szp (ops 0 0 (2 ^ 60) [])) = [0x4400000000000004, 1, 0] ∧
      look ends (exec .szp (ops 0 0 (2 ^ 60 + 1) [])) = [0, 0x41, 0] := by decide

/-- V-SZ-1. -/
theorem test_szw :
    look ends (exec .szw (ops 0 0 1024 [])) = [4356, 1, 0] ∧ look ends (exec .szw (ops 0 0 10000 [])) = [42504, 1, 0] := by decide

/-! ## T.COM, T.S8, T.S16, T.S32: executed (program P2's trace) and packed (scenario 2) -/

/-- P2, element 1: common 0x40000000 added to 0x40000000. -/
theorem test_tCom_execute :
    look (fun t => cursor t ++ bytesAt 0x3004 4 t)
      (exec .tCom (running (workAt .dec 5 1 0x2000 0x3000 0x2006 0x40000000#32 0x40000000#32 0#32 0#8) [])) =
      [0x80000000, 0x2006, 2, 0, 0, 0, 0x80] := by decide

/-- R164: T.COM packed at element 1 of 7: no payload, lane 1 stays 0. -/
theorem test_tCom_pack :
    look (fun t => packer t ++ bytesAt 0x2007 1 t)
      (exec .tCom (running (workAt .emit 7 1 0x1000 0x2000 0x2007 1#32 0#32 1#32 0x01#8) [])) =
      [0x01, 0x2007, 2, 0] := by decide

/-- P2, element 4: -5. -/
theorem test_tS8_execute :
    look (fun t => cursor t ++ bytesAt 0x3010 4 t)
      (exec .tS8 (running (workAt .dec 5 4 0x2000 0x3000 0x200C 0x40000000#32 0xC0000005#32 0#32 0#8) [(0x200C, [0xFB#8])])) =
      [0xC0000000, 0x200D, 5, 0, 0, 0, 0xC0] := by decide

/-- S2, element 6, the last: lane 2 of the second tag byte, which is then stored. -/
theorem test_tS8_pack :
    look (fun t => packer t ++ bytesAt 0x2005 1 t ++ bytesAt 0x200C 1 t)
      (exec .tS8 (running (workAt .emit 7 6 0x1000 0x2000 0x200C 1#32 0#32 0#32 0x01#8) [(0x200C, [0xEE#8])])) =
      [0, 0x200D, 7, 0x11, 0] := by decide

/-- P2, element 2: 5 in two bytes. -/
theorem test_tS16_execute :
    look (fun t => cursor t ++ bytesAt 0x3008 4 t)
      (exec .tS16 (running (workAt .dec 5 2 0x2000 0x3000 0x2006 0x40000000#32 0x80000000#32 0#32 0#8) [(0x2006, [5#8, 0#8])])) =
      [0x80000005, 0x2008, 3, 5, 0, 0, 0x80] := by decide

/-- V-PK-1: -129 packed as `7F FF`, tag 10 in lane 3, which ends the group. -/
theorem test_tS16_pack :
    look (fun t => packer t ++ bytesAt 0x2004 1 t ++ bytesAt 0x2010 3 t)
      (exec .tS16 (running (workAt .emit 9 3 0x1000 0x2000 0x2010 0#32 0#32 0xFFFFFF7F#32 0#8) [(0x2012, [0xEE#8])])) =
      [0, 0x2012, 4, 0x80, 0x7F, 0xFF, 0xEE] := by decide

/-- P2, element 3: 0x40000000 in four bytes. -/
theorem test_tS32_execute :
    look (fun t => cursor t ++ bytesAt 0x300C 4 t)
      (exec .tS32 (running (workAt .dec 5 3 0x2000 0x3000 0x2008 0x40000000#32 0x80000005#32 0#32 0#8)
        [(0x2008, [0#8, 0#8, 0#8, 0x40#8])])) =
      [0xC0000005, 0x200C, 4, 5, 0, 0, 0xC0] := by decide

/-- S2, element 3: 100000, tag 11 in lane 3 over 01 in lane 0: the tag byte 0xC1. -/
theorem test_tS32_pack :
    look (fun t => packer t ++ bytesAt 0x2004 1 t ++ bytesAt 0x2007 4 t)
      (exec .tS32 (running (workAt .emit 7 3 0x1000 0x2000 0x2007 1#32 0#32 100000#32 0x01#8) [])) =
      [0, 0x200B, 4, 0xC1, 0xA0, 0x86, 1, 0] := by decide

/-! ## Registers, faults, reset, the fetch -/

/-- The first step with one pending action. -/
def act (a : HostAction) (s : State) : Host.Outcome State Fault Refusal := step { s with queue := [a] }

/-- V-FLT-2: RESULT 0, STATUS 0x11, and CMD reads 5. -/
theorem test_illegal_word :
    look (fun t => ends t ++ [t.inst.cmd.toNat]) (act (.regWrite 0xF0000000 5#64) State.reset) = [0, 0x11, 0, 5] := by decide

/-- V-FLT-8: BAD_RANGE. -/
theorem test_bad_range :
    look ends (exec .encS (ops (2 ^ 64 - 8) 0x2000 3 [])) = [0, 0x51, 0] ∧
      look ends (exec .decS (ops (2 ^ 64 - 16) 0x3000 3 [])) = [0, 0x51, 0] := by decide

/-- V-FLT-12: with N = 0 the addresses are not examined. -/
theorem test_empty_list :
    look ends (exec .encS (ops (2 ^ 64 - 1) (2 ^ 64 - 1) 0 [])) = [0, 1, 0] ∧
      look ends (exec .decU (ops (2 ^ 64 - 1) (2 ^ 64 - 1) 0 [])) = [0, 1, 0] := by decide

/-- V-FLT-15: the write of element 2 is refused. -/
theorem test_decode_access_fault :
    look ends (exec .decS (opsAdm [⟨0, 0x3008⟩, ⟨0x300C, 0x10000⟩] 0x2000 0x3000 4 [(0x2000, [1#8, 0#8, 0#8, 0#8, 0#8])])) =
      [0, 0x21, 0x3008] := by decide

/-- R29: a byte of the slot that has no register reads 0 and ignores a store. -/
theorem test_unnamed_byte :
    look (fun t => [t.hostIn.toNat]) (act (.load 0xF0000039) { ops 0 0 0 [(0xF0000039, [7#8])] with hostIn := 5#64 }) = [0] ∧
      look (bytesAt 0xF000003F 1) (act (.store 0xF000003F 7#8) State.reset) = [0] := by decide

/-- V-REG-2: a write of STATUS is ignored; V-REG-3: SRC is stored and reads back (the slot at offset 8). -/
theorem test_register_access :
    look ends (act (.regWrite 0xF0000028 0xFFFFFFFF#64) State.reset) = [0, 0, 0] ∧
      look (fun t => [t.inst.src.toNat]) (act (.regWrite 0xF0000008 0x1000#64) State.reset) = [0x1000] ∧
      look (fun t => [t.hostIn.toNat]) (act (.regRead 0xF0000008) (ops 0x1000 0 0 [])) = [0x1000] := by decide

/-- P5, its last step: reset clears the registers and leaves memory. -/
theorem test_reset :
    look (fun t => ends t ++ [t.inst.count.toNat] ++ bytesAt 0x1000 1 t)
      (act (.reset 0xF0000000) (ops 0x1000 0x2000 1 [(0x1000, [5#8])])) = [0, 0, 0, 0, 5] := by decide

/-- V-HW-1: the toy compressor. -/
def toy : FastCompressor := ⟨id, id, fun b cap => if b.length ≤ cap then some b else none⟩

/-- What a host operation returns, and some bytes after it. -/
def opResult (a n : Nat) : Host.Outcome (State × Nat) Fault Refusal → List Nat
  | .next (t, r) => r :: bytesAt a n t
  | .fault _ => []
  | .refused _ => []

/-- V-HW-1: the list of S2 is compressed to its stream, and its sizes are asked for. -/
theorem test_wrapper_compress :
    opResult 0x5000 13 (compressUnsigned toy 0x1000 7 0x5000 0x2000
      (ops 0 0 0 [(0x1000, [123, 124, 125, 100125, 100125, 100126, 100126].flatMap (leBytes 4))])) =
      [13, 1, 0, 0, 0, 0xC1, 0x11, 0x7B, 0xA0, 0x86, 1, 0, 0, 0] ∧
    opResult 0 0 (getCompressedBufferSize toy 7 State.reset) = [34] ∧
    opResult 0 0 (getDecompressionWorkingSpaceSize 7 State.reset) = [34] := by decide

/-- V-HW-1: the stream of S2 gives the list back; no compressed bytes give 0 and nothing is written. -/
theorem test_wrapper_decompress :
    opResult 0x6000 8 (decompressUnsigned toy 0x5000 13 0x6000 7 none 0x7000
      (ops 0 0 0 [(0x5000, [1#8, 0#8, 0#8, 0#8, 0xC1#8, 0x11#8, 0x7B#8, 0xA0#8, 0x86#8, 1#8, 0#8, 0#8, 0#8])])) =
      [7, 123, 0, 0, 0, 124, 0, 0, 0] ∧
    opResult 0x6000 2 (decompressUnsigned toy 0x5000 0 0x6000 7 none 0x7000 (ops 0 0 0 [(0x6000, [9#8])])) = [0, 9, 0] := by
  decide

/-- The fetch of a command word: SZP 0 runs as the first step. -/
theorem test_fetch_command :
    look (fun t => ends t ++ [t.inst.cmd.toNat]) (step (State.reset.withFetchWord 32 3)) = [0, 1, 0, 3] := by decide

/-- The fetch of a tag: T.S16 runs as the first step, its payload of two zeros read. -/
theorem test_fetch_record : look cursor (step (State.reset.withFetchWord 2 2)) = [0, 7, 1] := by decide

/-! ## Witnesses: a case that meets every hypothesis of each statement -/

theorem admits_reference {a : Nat} (h : a < 2 ^ 64) : admits Config.reference a = true := by
  simpa [admits, Config.reference, Region.has] using h

theorem declared_reference {src a : Nat} (hs : src < 2 ^ 64) (h : a < 2 ^ 64) : declared Config.reference src a = true := by
  have hb : streamBuffer Config.reference src = some ⟨0, 2 ^ 64⟩ := by
    simpa [streamBuffer, Config.reference, Region.has] using hs
  simpa [declared, hb, Region.has] using h

/-- On the platform at reset, legal operands in ordinary, disjoint ranges are all the host's duties. -/
theorem runnable_reference {i : Instr} {s : State} {m n : Nat} (hp : s.plat = Config.reference) (h₁ : OperandsLegal i s)
    (h₂ : RangesOrdinary i s) (h₃ : RangesDisjoint i s) (hm : m ≤ (rangesOf i s.inst.count.toNat).inLen)
    (hn : n ≤ (rangesOf i s.inst.count.toNat).outLen) : Runnable i s m n := by
  have haw : s.plat.aw = 64 := by rw [hp]; rfl
  refine ⟨h₁, h₂, h₃, fun a _ h => ?_, fun a _ h => ?_⟩ <;> rw [hp] <;> apply admits_reference <;>
    have := h₁.2.2.1 <;> have := h₁.2.2.2 <;> rw [haw] at * <;> omega

/-- Three words at 0x1000, the output at the very top of the address space: D + 17 = 2^64 (V-FLT-10). -/
def topState : State := ops 0x1000 (2 ^ 64 - 17) 3 [(0x1000, [5#8])]

theorem legal_top {i : Instr} (hi : i = .encS ∨ i = .encU) :
    OperandsLegal i topState ∧ RangesOrdinary i topState ∧ RangesDisjoint i topState := by
  rcases hi with rfl | rfl <;>
    exact ⟨⟨by decide, by decide, by decide, by decide⟩, ⟨by decide, by decide⟩, by simp only [RangesDisjoint]; decide⟩

/-- A stream of three elements read from the very top: S + 17 = 2^64. -/
def topStream : State := ops (2 ^ 64 - 17) 0x3000 3 []

theorem witness_TagLaneSelectsRecord : (3 : Nat) < 4 ∧ (0xE4#8).toNat / 4 ^ 3 % 4 = 3 ∧ (0xE4#8).toNat / 4 ^ 0 % 4 = 0 := by
  decide

theorem witness_InstructionsDecodeBack : Instr.wellFormed .tS32 = true ∧ Instr.wellFormed .encU = true ∧ (3 : Nat) < 4 := by
  decide

theorem witness_CommandWordsDecodeExactly :
    (0x13#32 : Word) ≠ 0x00000001#32 ∧ (0x13#32 : Word) ≠ 0x00000011#32 ∧ (0x13#32 : Word) ≠ 0x00000002#32 ∧
      (0x13#32 : Word) ≠ 0x00000012#32 ∧ (0x13#32 : Word) ≠ 0x00000003#32 ∧ (0x13#32 : Word) ≠ 0x00000004#32 := by decide

theorem witness_StreamParsesBack :
    Stream.wellFormed ⟨some 7#32, [⟨.com, []⟩, ⟨.s8, [1#8]⟩, ⟨.s16, [1#8, 2#8]⟩, ⟨.s32, [1#8, 2#8, 3#8, 4#8]⟩, ⟨.s8, [9#8]⟩]⟩ = true ∧
      Stream.wellFormed ⟨none, []⟩ = true := by decide

theorem witness_ParsingStopsAtLastPayload :
    ∃ st rest, parseStream 1 [7#8, 0#8, 0#8, 0#8, 0xFD#8, 0xF9#8] = .ok (st, rest) := ⟨_, _, rfl⟩

theorem witness_PaddingLanesIgnored :
    ∀ i, i < 1 → (([0xFD#8] : List Byte).getD (i / 4) 0#8).toNat / 4 ^ (i % 4) % 4 =
      (([0x01#8] : List Byte).getD (i / 4) 0#8).toNat / 4 ^ (i % 4) % 4 := by decide

theorem witness_DecoderIsTotal :
    0 < 1 ∧ 4 + tagBytes 1 + 4 * 1 ≤ [0#8, 0#8, 0#8, 0#8, 0xFF#8, 1#8, 2#8, 3#8, 4#8].length := by decide

theorem witness_BitCastIsBijection :
    (-2147483648 ≤ (-2147483648 : Int) ∧ (-2147483648 : Int) ≤ 2147483647) ∧
      (-2147483648 ≤ (2147483647 : Int) ∧ (2147483647 : Int) ≤ 2147483647) := by decide

theorem witness_RangeTestsAreSignExtension : fits8 0xFFFFFF80#32 = true ∧ fits8 128#32 = false ∧ fits16 128#32 = true := by decide

theorem witness_CommonValueIsMode : ([3#32, 0xFFFFFFFF#32] : List Word) ≠ [] := by decide

/-- A list, and a mode of it that is not the one chosen. -/
theorem witness_LowestTakesSmallestMode :
    ([3#32, 0xFFFFFFFF#32] : List Word) ≠ [] ∧ 3#32 ∈ ([3#32, 0xFFFFFFFF#32] : List Word) ∧
      ∀ u, ([3#32, 0xFFFFFFFF#32] : List Word).count u ≤ ([3#32, 0xFFFFFFFF#32] : List Word).count 3#32 := by
  refine ⟨by decide, by decide, fun u => ?_⟩
  have := List.nodup_iff_count_le_one.mp (show ([3#32, 0xFFFFFFFF#32] : List Word).Nodup by decide) u
  exact this

theorem witness_CommonValueIgnoresOrder :
    ∀ v, ([3#32, 5#32, 3#32] : List Word).count v = ([5#32, 3#32, 3#32] : List Word).count v :=
  fun v => (List.Perm.swap 5#32 3#32 [3#32]).count_eq v

theorem witness_EncodedLengthBounds : ([3#32, 5#32] : List Word) ≠ [] := by decide

/-- V-HW-1: the toy compressor meets R211 to R213, its bound is monotone, and it keeps within the capacity. -/
theorem toy_lawful : toy.Lawful ∧ toy.Monotone ∧ toy.WithinCapacity := by
  refine ⟨⟨fun _ => Nat.le_refl _, fun _ => Nat.le_refl _, fun _ _ h => if_pos h, fun b cap bs h => ?_⟩, fun _ _ h => h,
    fun c cap bs h => ?_⟩
  · simp only [toy, id] at h
    split at h <;> cases h
    rfl
  · simp only [toy] at h
    split at h
    · next hl => cases h; exact hl
    · cases h

/-- R210: R211 to R213 do not keep a compressor within the capacity; `Lawful` leaves that one in. -/
theorem test_lawful_beyond_capacity :
    (⟨id, id, fun b _ => some b⟩ : FastCompressor).Lawful ∧ ¬(⟨id, id, fun b _ => some b⟩ : FastCompressor).WithinCapacity :=
  ⟨⟨fun _ => Nat.le_refl _, fun _ => Nat.le_refl _, fun _ _ _ => rfl, fun _ _ _ h => by cases h; rfl⟩,
    fun h => absurd (h [0#8] 0 [0#8] rfl) (by decide)⟩

/-- The stream of [3, 5] has 6 bytes (deltas 3 and 2, both modes, 2 the lowest): a capacity of 6, and one of 5. -/
theorem witness_RoundTripThroughCompressor :
    toy.Lawful ∧ toy.Monotone ∧ toy.WithinCapacity ∧ (encodeList .lowest [3#32, 5#32]).length ≤ 6 ∧
      5 < (encodeList .lowest [3#32, 5#32]).length :=
  ⟨toy_lawful.1, toy_lawful.2.1, toy_lawful.2.2, by decide, by decide⟩

/-- Both clauses at the boundary: COUNT = NMAX and NMAX + 1. -/
theorem witness_SizingCommandsGiveSize :
    Config.reference.wellFormed = true ∧ (ops 0 0 (2 ^ 60) []).inst.count.toNat ≤ Config.reference.nmax ∧
      Config.reference.nmax < (ops 0 0 (2 ^ 60 + 1) []).inst.count.toNat := by decide

/-- Deltas 5, -5, 0, all distinct; the lowest, -5, is the common value: `FB FF FF FF | 11 | 05 00`. -/
theorem witness_EncWritesEncodedStream :
    topState.plat.wellFormed = true ∧ topState.mem.wf = true ∧
      [5#32, 0#32, 0#32] = topState.mem.words topState.inst.src.toNat topState.inst.count.toNat ∧
      [0xFB#8, 0xFF#8, 0xFF#8, 0xFF#8, 0x11#8, 0x05#8, 0x00#8] = encodeList topState.plat.tie [5#32, 0#32, 0#32] ∧
      Runnable .encS topState (4 * topState.inst.count.toNat) 7 ∧ Runnable .encU topState (4 * topState.inst.count.toNat) 7 :=
  ⟨by decide, by decide, by decide, by decide,
    runnable_reference rfl (legal_top (.inl rfl)).1 (legal_top (.inl rfl)).2.1 (legal_top (.inl rfl)).2.2 (by decide) (by decide),
    runnable_reference rfl (legal_top (.inr rfl)).1 (legal_top (.inr rfl)).2.1 (legal_top (.inr rfl)).2.2 (by decide) (by decide)⟩

/-- A stream of 5 bytes at the very top, read by DEC.S and by DEC.U. -/
theorem witness_DecWritesDecodedWords :
    topStream.plat.wellFormed = true ∧ topStream.mem.wf = true ∧
      (∃ st rest, parseStream topStream.inst.count.toNat (seenBytes topStream.plat topStream.mem topStream.draws
          topStream.inst.src.toNat topStream.inst.src.toNat (maxPrecodedSize topStream.inst.count.toNat)) = .ok (st, rest) ∧
        allDeclared topStream.plat topStream.inst.src.toNat (maxPrecodedSize topStream.inst.count.toNat - rest.length) ∧
        Runnable .decS topStream (maxPrecodedSize topStream.inst.count.toNat - rest.length) 12 ∧
        Runnable .decU topStream (maxPrecodedSize topStream.inst.count.toNat - rest.length) 12) :=
  ⟨by decide, by decide, _, _, rfl,
    fun _ _ h => declared_reference (by decide) (Nat.lt_of_lt_of_le h (by decide)),
    runnable_reference rfl ⟨by decide, by decide, by decide, by decide⟩ ⟨by decide, by decide⟩
      (by simp only [RangesDisjoint]; decide) (Nat.sub_le _ _) (by decide),
    runnable_reference rfl ⟨by decide, by decide, by decide, by decide⟩ ⟨by decide, by decide⟩
      (by simp only [RangesDisjoint]; decide) (Nat.sub_le _ _) (by decide)⟩

/-- The list [5] is encoded at 0x2000 and may be decoded to 0x3000. -/
theorem witness_DecAfterEncRestoresList :
    Runnable .encS (ops 0x1000 0x2000 1 [(0x1000, [5#8])]) 4 (encodeList .lowest [5#32]).length ∧
    ∃ t, exec .encS (ops 0x1000 0x2000 1 [(0x1000, [5#8])]) = .next t ∧
      allDeclared t.plat 0x2000 t.inst.result.toNat ∧
      Runnable .decS { t with inst := { t.inst with src := 0x2000#64, dst := 0x3000#64 } } t.inst.result.toNat 4 := by
  refine ⟨runnable_reference rfl ⟨by decide, by decide, by decide, by decide⟩ ⟨by decide, by decide⟩
    (by simp only [RangesDisjoint]; decide) (by decide) (by decide), ?_⟩
  refine ⟨_, rfl, fun _ _ h => declared_reference (by decide) (Nat.lt_of_lt_of_le h (by decide)),
    runnable_reference rfl ⟨?_, ?_, ?_, ?_⟩ ⟨?_, ?_⟩ ?_ ?_ ?_⟩ <;>
    first | decide | (simp only [RangesDisjoint]; decide)

/-- The three clauses of the checks: COUNT = NMAX + 1; COUNT = 0; a range one byte too long, and one at the other end. -/
theorem witness_CodecChecksInOrder :
    isCodec .decU = true ∧ Config.reference.nmax < (ops (2 ^ 64 - 1) 0 (2 ^ 60 + 1) []).inst.count.toNat ∧
      (ops (2 ^ 64 - 1) (2 ^ 64 - 1) 0 []).inst.count.toNat = 0 ∧
      (2 ^ 64 < (2 ^ 64 - 8) + (rangesOf .encS 3).inLen ∧ ¬ 2 ^ 64 < (2 ^ 64 - 12) + (rangesOf .encS 3).inLen) ∧
      (2 ^ 64 < (2 ^ 64 - 16) + (rangesOf .encS 3).outLen ∧ ¬ 2 ^ 64 < (2 ^ 64 - 17) + (rangesOf .encS 3).outLen) := by decide

/-- Legal operands with the output in the register block, and legal operands in ordinary memory. -/
theorem witness_DeviceRangesRefused :
    OperandsLegal .encS (ops 0x1000 0xF0000000 1 []) ∧ ¬ RangesOrdinary .encS (ops 0x1000 0xF0000000 1 []) ∧
      OperandsLegal .encS topState ∧ RangesOrdinary .encS topState := by
  refine ⟨⟨by decide, by decide, by decide, by decide⟩, ?_, (legal_top (.inl rfl)).1, (legal_top (.inl rfl)).2.1⟩
  simp only [RangesOrdinary]; decide

/-- The output range starts inside the input range. -/
theorem witness_OverlapStaysInOutputRange :
    Config.reference.wellFormed = true ∧ OperandsLegal .encS (ops 0x1000 0x1004 2 []) ∧
      RangesOrdinary .encS (ops 0x1000 0x1004 2 []) ∧ ¬ RangesDisjoint .encS (ops 0x1000 0x1004 2 []) :=
  ⟨by decide, ⟨by decide, by decide, by decide, by decide⟩, ⟨by decide, by decide⟩, by simp only [RangesDisjoint]; decide⟩

/-! ### Records -/

/-- A DEC of five elements at element 1, and an ENC of seven at its last element. -/
def decWork1 : Work := workAt .dec 5 1 0x2000 0x3000 0x2006 0x40000000#32 0x40000000#32 0#32 0#8
def emitWork6 : Work := workAt .emit 7 6 0x1000 0x2000 0x200C 1#32 0#32 0#32 0x01#8

/-- The hypotheses of the four record statements, for the longest payload. -/
theorem witness_records_execute :
    (running decWork1 []).inst.work = some decWork1 ∧ decWork1.pass = .dec ∧ decWork1.i < decWork1.n ∧
      allAdmitted (running decWork1 []).plat decWork1.resCur 4 ∧
      allAdmitted (running decWork1 []).plat (decWork1.dst + 4 * decWork1.i) 4 := by
  refine ⟨rfl, rfl, by decide, fun a _ h => admits_reference (Nat.lt_trans h (by decide)),
    fun a _ h => admits_reference (Nat.lt_trans h (by decide))⟩

theorem witness_RecordsPackTagAndPayload :
    (Instr.tS8, Tag.s8) ∈ [(Instr.tCom, Tag.com), (.tS8, .s8), (.tS16, .s16), (.tS32, .s32)] ∧
    (running emitWork6 []).inst.work = some emitWork6 ∧ emitWork6.pass = .emit ∧ emitWork6.i < emitWork6.n ∧
      allAdmitted (running emitWork6 []).plat emitWork6.resCur (resLen .s8) ∧ emitWork6.i + 1 = emitWork6.n ∧
      admits (running emitWork6 []).plat (emitWork6.dst + 4 + emitWork6.i / 4) = true :=
  ⟨by decide, rfl, rfl, by decide, fun a _ h => admits_reference (Nat.lt_trans h (by decide)), by decide,
    admits_reference (by decide)⟩

/-- The fault clause of T.S8, T.S16 and T.S32: the first, the second, the fourth payload byte is refused. -/
theorem witness_records_refused :
    someByteRefused { Config.reference with admits := [⟨0, 0x2006⟩] } decWork1.resCur 1 ∧
      someByteRefused { Config.reference with admits := [⟨0, 0x2007⟩] } decWork1.resCur 2 ∧
      someByteRefused { Config.reference with admits := [⟨0, 0x2009⟩] } decWork1.resCur 4 :=
  ⟨⟨0x2006, by decide⟩, ⟨0x2007, by decide⟩, ⟨0x2009, by decide⟩⟩

/-- The decode pass: a refused payload byte, a refused output byte. The emission pass: a refused payload byte, and a refused
tag byte where the list ends. -/
theorem witness_RefusedPayloadEndsCommand :
    (Instr.tS16, Tag.s16) ∈ [(Instr.tCom, Tag.com), (.tS8, .s8), (.tS16, .s16), (.tS32, .s32)] ∧
    someByteRefused { Config.reference with admits := [⟨0, 0x2007⟩] } decWork1.resCur (resLen .s16) ∧
    someByteRefused { Config.reference with admits := [⟨0, 0x3005⟩] } (decWork1.dst + 4 * decWork1.i) 4 ∧
    emitWork6.pass = .emit ∧ emitWork6.i < emitWork6.n ∧
    someByteRefused { Config.reference with admits := [⟨0, 0x200D⟩] } emitWork6.resCur (resLen .s16) ∧
    emitWork6.i + 1 = emitWork6.n ∧
    admits { Config.reference with admits := [⟨0, 0x2005⟩] } (emitWork6.dst + 4 + emitWork6.i / 4) = false :=
  ⟨by decide, ⟨0x2007, by decide⟩, ⟨0x3005, by decide⟩, rfl, by decide, ⟨0x200D, by decide⟩, by decide, by decide⟩

/-- Both sides: no command running, and one with elements left. -/
theorem witness_RecordNeedsRunningCommand :
    (¬ ∃ w, State.reset.inst.work = some w ∧ w.i < w.n ∧ (w.pass = .dec ∨ w.pass = .emit)) ∧
      ∃ w, (running decWork1 []).inst.work = some w ∧ w.i < w.n ∧ (w.pass = .dec ∨ w.pass = .emit) :=
  ⟨(fun ⟨_, h, _⟩ => by cases h), decWork1, rfl, by decide, .inl rfl⟩

/-! ### Rules over all instructions -/

theorem witness_NoInstructionChangesOperands : ∃ t, exec .szp (ops 1 2 7 []) = .next t := ⟨_, rfl⟩

/-- ENC of one word at 0x1000: the byte after its output range is no byte it may write. -/
theorem witness_NoInstructionWritesOutsideOutput :
    (ops 0x1000 0x2000 1 []).fits = true ∧ (∃ t, exec .encS (ops 0x1000 0x2000 1 []) = .next t) ∧
      mayWrite .encS (ops 0x1000 0x2000 1 []) 0x2009 = false ∧ mayWrite .encS (ops 0x1000 0x2000 1 []) 0x2008 = true :=
  ⟨by decide, ⟨_, rfl⟩, by decide, by decide⟩

theorem witness_CommandOutcomeInStatus : isCommand .szp = true ∧ ∃ t, exec .szp (ops 0 0 (2 ^ 60 + 1) []) = .next t :=
  ⟨rfl, _, rfl⟩

/-- The state of V-FLT-14. -/
def holed : State := opsAdm [⟨0, 0x1006⟩, ⟨0x1007, 0x10000⟩] 0x1000 0x2000 4 []

/-- ENC there ends in ACCESS_FAULT and writes FADDR. -/
theorem witness_FaddrWrittenOnlyByAccessFault :
    ∃ t, exec .encS holed = .next t ∧ t.inst.faddr ≠ holed.inst.faddr ∧ t.inst.status = 0x21#32 := by
  cases h : exec .encS holed with
  | next t =>
      have h' : look ends (exec .encS holed) = [0, 0x21, 0x1006] := by decide
      rw [h] at h'
      simp only [look, ends, List.cons.injEq, and_true] at h'
      exact ⟨t, rfl, fun e => absurd (e ▸ h'.2.2) (by decide), BitVec.eq_of_toNat_eq h'.2.1⟩
  | fault r =>
      have h' : look ends (exec .encS holed) = [0, 0x21, 0x1006] := by decide
      rw [h] at h'; cases h'
  | refused r =>
      have h' : look ends (exec .encS holed) = [0, 0x21, 0x1006] := by decide
      rw [h] at h'; cases h'

theorem witness_AccessFaultNamesRefusedByte :
    isCodec .encS = true ∧ holed.plat.wellFormed = true ∧ ∃ t, exec .encS holed = .next t ∧ t.inst.status = 0x21#32 :=
  ⟨rfl, by decide, witness_FaddrWrittenOnlyByAccessFault.imp fun _ h => ⟨h.1, h.2.2⟩⟩

theorem witness_AdmittedRangesNeverFault :
    RangesAdmitted .encS (ops 0x1000 0x2000 1 []) ∧ ∃ t, exec .encS (ops 0x1000 0x2000 1 []) = .next t :=
  ⟨⟨fun a _ h => admits_reference (Nat.lt_trans h (by decide)), fun a _ h => admits_reference (Nat.lt_trans h (by decide))⟩,
    _, rfl⟩

/-- Two states with the same inputs and different RESULT, STATUS and FADDR. -/
theorem witness_OutcomeDependsOnInputsOnly :
    isCommand .szw = true ∧ (∃ t, exec .szw (ops 1 2 7 []) = .next t) ∧
      SameInputs (ops 1 2 7 []) { ops 1 2 7 [] with
        inst := { (ops 1 2 7 []).inst with result := 9#64, status := 0x21#32, faddr := 0x44#64 } } :=
  ⟨rfl, ⟨_, rfl⟩, rfl, rfl, rfl, rfl, rfl, rfl, rfl⟩

/-! ### Reset, the host's accesses, steps -/

/-- A reset of the instance in focus, and of another one, the one in focus idle and running. -/
theorem witness_ResetBetweenCommands :
    Idle (ops 1 2 3 []) ∧ (∀ x ∈ [Inst.atReset 0x100, Inst.atReset 0x200], x.work = none) ∧
      0xF0000000 = (ops 1 2 3 []).inst.base ∧ 0x200 ≠ (ops 1 2 3 []).inst.base ∧
      (running decWork1 []).inst.work ≠ none ∧ 0x200 ≠ (running decWork1 []).inst.base :=
  ⟨rfl, by decide, rfl, by decide, by decide, by decide⟩

theorem witness_ResetCutsCommandOff :
    (running decWork1 []).inst.work = some decWork1 ∧
      ({ running decWork1 [] with queue := [.reset 0xF0000000] } : State).queue = [.reset (running decWork1 []).inst.base] :=
  ⟨rfl, rfl⟩

/-- The first and the last of the slots, and of the offsets in the slot that has no register. -/
theorem witness_register_accesses :
    Idle State.reset ∧ 0 < 1 ∧ 1 < 8 ∧ 7 < 8 ∧ 56 ≤ 57 ∧ 57 < 64 ∧ 56 ≤ 63 ∧ 63 < 64 ∧
      ({ State.reset with queue := [.regWrite 0xF0000030 1#64] } : State).queue =
        [.regWrite (State.reset.inst.base + 8 * 6) 1#64] ∧
      ({ State.reset with queue := [.regWrite 0xF000003F 1#64] } : State).queue =
        [.regWrite (State.reset.inst.base + 63) 1#64] ∧
      ({ State.reset with queue := [.regRead 0xF0000000] } : State).queue = [.regRead (State.reset.inst.base + 8 * 0)] ∧
      ({ State.reset with queue := [.regRead 0xF0000039] } : State).queue = [.regRead (State.reset.inst.base + 57)] :=
  ⟨rfl, by decide⟩

/-- Three instances; the third is brought into focus at its CMD, SRC, last register and first and last unnamed offset, and a
legal and an illegal word are at hand. The same premises are RegisterReadsReturnSlot's. -/
def three : State := { State.reset with others := [Inst.atReset 0x100, Inst.atReset 0x200] }

theorem witness_OtherInstanceRegisterWrite :
    Idle three ∧
    (∀ j, j ∈ [0, 8, 48, 56, 63] →
      BroughtIntoFocus three { three with inst := Inst.atReset 0x200, others := [Inst.atReset 0x100, three.inst] } (0x200 + j)) ∧
    decodeCommand ((0x12#64 : BitVec 64).setWidth 32) = .ok .decU ∧
    ∃ e, decodeCommand ((0x13#64 : BitVec 64).setWidth 32) = .error e := by
  refine ⟨rfl, fun j hj => ⟨[Inst.atReset 0x100], Inst.atReset 0x200, [], rfl, ?_, ?_, rfl⟩, by decide, _, rfl⟩
  · simp only [List.mem_cons, List.not_mem_nil, or_false] at hj
    rcases hj with rfl | rfl | rfl | rfl | rfl <;> decide
  · simp only [List.mem_cons, List.not_mem_nil, or_false] at hj
    rcases hj with rfl | rfl | rfl | rfl | rfl <;> decide

/-- V-REG-3 on another instance: its SRC is written and read back, and SZP 0 runs on it. -/
theorem test_other_instance :
    look (fun t => [t.inst.base, t.inst.src.toNat]) (act (.regWrite 0x208 0x1000#64) three) = [0x200, 0x1000] ∧
      look (fun t => [t.hostIn.toNat]) (act (.regRead 0x208) { three with
        others := [Inst.atReset 0x100, { Inst.atReset 0x200 with src := 7#64 }] }) = [7] ∧
      look (fun t => t.inst.base :: ends t) (act (.regWrite 0x200 3#64) three) = [0x200, 0, 1, 0] := by decide

/-- Byte addresses of every kind: the last one that exists is ordinary memory and the next one does not exist; the last byte of
FADDR and the first of the slot without a register, of the instance in focus and of another; a device byte. -/
theorem witness_HostByteAccess :
    Idle State.reset ∧ 2 ^ 64 - 1 < 2 ^ State.reset.plat.aw ∧ touchesDevice State.reset ⟨2 ^ 64 - 1, 1⟩ = false ∧
      2 ^ State.reset.plat.aw ≤ 2 ^ 64 ∧
      (State.instances { State.reset with others := [Inst.atReset 0x100] }).find? (fun y => y.block.has 0x137) =
        some (Inst.atReset 0x100) ∧ 0x137 < (Inst.atReset 0x100).base + 56 ∧
      State.reset.instances.find? (fun y => y.block.has 0xF0000038) = some State.reset.inst ∧
      State.reset.inst.base + 56 ≤ 0xF0000038 ∧
      (∀ x ∈ State.reset.instances, x.block.has 0x9000 = false) ∧
      ∃ r ∈ [Region.mk 0x9000 16], r.has 0x9000 = true := by
  refine ⟨rfl, ?_⟩
  decide

theorem witness_CmdWriteRunsCommand :
    Idle State.reset ∧ decodeCommand ((0x12#64 : BitVec 64).setWidth 32) = .ok .decU := ⟨rfl, by decide⟩

theorem witness_IllegalWordFaults :
    Idle State.reset ∧ ∃ e, decodeCommand ((0x13#64 : BitVec 64).setWidth 32) = .error e := ⟨rfl, _, rfl⟩

/-- DEC of one element whose tag is 01; ENC of seven words, at the last. -/
theorem witness_ElementStepRunsRecord :
    (running decWork1 []).queue = [] ∧ decWork1.i < decWork1.n ∧
      allAdmitted (running decWork1 []).plat (decWork1.src + 4 + decWork1.i / 4) 1 ∧
      (∃ i rest, decodeBytes (.lane (decWork1.i % 4))
        (seenBytes (running decWork1 []).plat (running decWork1 []).mem decWork1.view decWork1.src
          (decWork1.src + 4 + decWork1.i / 4) 1) =
          .ok (i, rest)) ∧
      emitWork6.i < emitWork6.n ∧ allAdmitted (running emitWork6 []).plat (emitWork6.src + 4 * emitWork6.i) 4 :=
  ⟨rfl, by decide, fun a _ h => admits_reference (Nat.lt_trans h (by decide)), ⟨_, _, rfl⟩, by decide,
    fun a _ h => admits_reference (Nat.lt_trans h (by decide))⟩

/-- The invariants hold in a state with a command running, which takes a step. -/
theorem witness_invariants :
    (running decWork1 []).mem.wf = true ∧ (running decWork1 []).statusesLegal = true ∧ (running decWork1 []).fits = true ∧
      ∃ t, step (running decWork1 []) = .next t := ⟨by decide, by decide, by decide, _, rfl⟩

/-- Admission changes, the declaration changes, and the focus changes. -/
theorem witness_StepKeepsParameters :
    (∃ t, act (.regRead 0x208) three = .next t ∧ t.instances.map Inst.base ≠ three.instances.map Inst.base) ∧
    (∃ t, act (.setAdmits []) State.reset = .next t ∧ t.plat.admits ≠ State.reset.plat.admits) ∧
      ∃ t, act (.declare []) State.reset = .next t ∧ t.plat.streams ≠ State.reset.plat.streams :=
  ⟨⟨_, rfl, by decide⟩, ⟨_, rfl, by decide⟩, _, rfl, by decide⟩

theorem witness_RunningCommandEnds :
    (running decWork1 []).inst.work = some decWork1 ∧ ∀ b q, (running decWork1 []).queue ≠ .reset b :: q :=
  ⟨rfl, fun _ _ h => by cases h⟩

/-- ENC and DEC of one word start, and end with success. -/
theorem witness_SteppedCommandAgrees :
    (ops 0x1000 0x2000 1 []).queue = [] ∧ (∃ w, startEnc (ops 0x1000 0x2000 1 []) = .running w) ∧
      (∃ w, startDec (ops 0x1000 0x2000 1 []) = .running w) ∧
      (∃ t, exec .encS (ops 0x1000 0x2000 1 []) = .next t ∧ t.inst.status = 0x00000001#32) ∧
      ∃ t, exec .decS (ops 0x1000 0x2000 1 []) = .next t ∧ t.inst.status = 0x00000001#32 :=
  ⟨rfl, ⟨_, rfl⟩, ⟨_, rfl⟩, ⟨_, rfl, by decide⟩, _, rfl, by decide⟩

/-- One word: ENC with a refused input byte and with a refused tag byte; DEC with a refused header byte and with a refused
output byte. -/
theorem witness_RefusedSureByteFaults :
    (isCodec .encS = true ∧ isCodec .decU = true) ∧
    (∀ i, i = Instr.encS ∨ i = .decU →
      OperandsLegal i (ops 0x1000 0x2000 1 []) ∧ RangesOrdinary i (ops 0x1000 0x2000 1 []) ∧
      RangesDisjoint i (ops 0x1000 0x2000 1 [])) ∧
    someByteRefused { Config.reference with admits := [⟨0, 0x1003⟩] } 0x1000 (4 * 1) ∧
    someByteRefused { Config.reference with admits := [⟨0, 0x2004⟩] } 0x2000 (4 + (1 + 3) / 4) ∧
    someByteRefused { Config.reference with admits := [⟨0, 0x1003⟩] } 0x1000 (4 + (1 + 3) / 4) ∧
    someByteRefused { Config.reference with admits := [⟨0, 0x2003⟩] } 0x2000 (4 * 1) := by
  refine ⟨by decide, ?_, ⟨0x1003, by decide⟩, ⟨0x2004, by decide⟩, ⟨0x1003, by decide⟩, ⟨0x2003, by decide⟩⟩
  rintro i (rfl | rfl) <;>
    exact ⟨⟨by decide, by decide, by decide, by decide⟩, ⟨by decide, by decide⟩, by simp only [RangesDisjoint]; decide⟩

/-- The list [5] at 0x1000, its compressed stream (the toy's: the stream itself, `05 00 00 00 | 00`) at 0x5000; both halves
with n = 1, and with n = 0. -/
def hosted : State := ops 0 0 0 [(0x1000, [5#8]), (0x5000, [5#8])]

theorem witness_CompressorWrapperRoundTrip :
    toy.Lawful ∧ Idle hosted ∧ hosted.plat.wellFormed = true ∧ hosted.mem.wf = true ∧ 1 ≤ hosted.plat.nmax ∧
    0x6000 < 2 ^ hosted.plat.aw ∧ (0x00000001#32, Instr.encS) ∈ [(0x00000001#32, Instr.encS), (0x00000011#32, .encU)] ∧
    [5#32] = hosted.mem.words 0x1000 1 ∧
    Runnable .encS (hosted.withOperands 0x00000001#32 0x1000 0x2000 1) (4 * 1) (encodeList hosted.plat.tie [5#32]).length ∧
    (0x00000012#32, Instr.decU) ∈ [(0x00000002#32, Instr.decS), (0x00000012#32, .decU)] ∧
    hosted.mem.readBytes 0x5000 5 = toy.compress (encodeList .lowest [5#32]) ∧
    workspaceOf none 0x7000 1 = (0x7000, 9) ∧ (encodeList .lowest [5#32]).length ≤ 9 ∧
    Runnable .decU (hosted.withOperands 0x00000012#32 0x7000 0x6000 1) (encodeList .lowest [5#32]).length (4 * 1) := by
  refine ⟨toy_lawful.1, rfl, by decide, by decide, by decide, by decide, by decide, by decide,
    runnable_reference rfl ⟨?_, ?_, ?_, ?_⟩ ⟨?_, ?_⟩ ?_ ?_ ?_, by decide, by decide, by decide, by decide,
    runnable_reference rfl ⟨?_, ?_, ?_, ?_⟩ ⟨?_, ?_⟩ ?_ ?_ ?_⟩ <;>
    first | decide | (simp only [RangesDisjoint]; decide)

end Sys2Proof.Tests
end

section

namespace Sys2Proof.Machine

/-! The state after reset meets the invariants: the parts of an instance and of the parameters, then the obligation. -/

/-- R5: the parameters the model chooses at reset (logs 1, 3) meet their constraints. -/
theorem reference_wellFormed : Config.reference.wellFormed = true := by decide

/-- R40: the registers of an instance at reset are 0 and no command runs, so they fit whatever width AW is. -/
@[simp] theorem fits_atReset (p : Platform) (base : Nat) : (Inst.atReset base).fits p = true := by
  have hpos : 0 < 2 ^ p.aw := Nat.two_pow_pos p.aw
  simp [Inst.fits, Inst.atReset, hpos]

/-- R27, R40: STATUS is 0 at reset, the one legal value without DONE. -/
@[simp] theorem statusLegal_atReset (base : Nat) : statusLegal (Inst.atReset base).status = true := rfl

/-- Settles O55: no byte is listed at reset, and the one instance present is `Inst.atReset`, which meets the invariants on
STATUS and on the registers. -/
theorem resetMeetsInvariants : Obligations.ResetMeetsInvariants := by
  have hmem : State.reset.mem.wf = true := rfl
  have hinst : State.reset.instances = [Inst.atReset Config.referenceBase] := rfl
  have hothers : State.reset.others = [] := rfl
  have hplat : State.reset.plat.wellFormed = true := reference_wellFormed
  have hstatus : State.reset.statusesLegal = true := by simp [State.statusesLegal, hinst]
  have hfits : State.reset.fits = true := by simp [State.fits, hinst, hothers, hplat]
  exact ⟨hmem, hstatus, hfits⟩

end Sys2Proof.Machine

end

section
/-! SUPPORT. Everything a command, a record and a part of a running command can leave behind, said once: how a command ends,
how a part goes on, and the bounds on both. The invariants and frames over all instructions follow from it. -/

namespace Sys2Proof.Machine

/-! ## How a command ends -/

/-- The ends of a command that `exec` knows, from the state it ran in: success, a failed check, or ACCESS_FAULT. Under the
condition `bounded`, RESULT is at most the worst-case size of a list of NMAX words and FADDR is an address below 2^AW. -/
inductive CommandEnd (bounded : Prop) (s : State) : State → Prop
  | success (m : Memory) (res d : Nat) (h : bounded → res ≤ 4 + tagBytes s.plat.nmax + 4 * s.plat.nmax) :
      CommandEnd bounded s (endOK { s with draws := d } m res)
  | badCount : CommandEnd bounded s (endFault s .badCount)
  | badRange : CommandEnd bounded s (endFault s .badRange)
  | accessFault (a d out len : Nat) (h : bounded → a < 2 ^ s.plat.aw) :
      CommandEnd bounded s (endAccessFault { s with draws := d } a out len)

namespace CommandEnd
variable {b : Prop} {s t : State}

/-- R30: an ended command has changed no operand and nothing of the host's side. -/
theorem hostSideKept (h : CommandEnd b s t) : HostSideKept s t := by
  cases h <;> exact ⟨rfl, rfl, rfl, rfl, rfl, rfl, rfl, rfl, rfl⟩

theorem work_eq_none (h : CommandEnd b s t) : t.inst.work = none := by cases h <;> rfl

theorem statusLegal_status (h : CommandEnd b s t) : statusLegal t.inst.status = true := by cases h <;> rfl

/-- R27, R236: the four values of STATUS, RESULT after a fault, and the ghost record. -/
theorem outcome (h : CommandEnd b s t) :
    t.inst.status = 0x00000001#32 ∧ t.faultLog = s.faultLog ∨
     t.inst.result = 0#64 ∧
      (t.inst.status = 0x00000021#32 ∧ t.faultLog = .accessFault :: s.faultLog ∨
       t.inst.status = 0x00000041#32 ∧ t.faultLog = .badCount :: s.faultLog ∨
       t.inst.status = 0x00000051#32 ∧ t.faultLog = .badRange :: s.faultLog) := by
  cases h with
  | success => exact .inl ⟨rfl, rfl⟩
  | badCount => exact .inr ⟨rfl, .inr (.inl ⟨rfl, rfl⟩)⟩
  | badRange => exact .inr ⟨rfl, .inr (.inr ⟨rfl, rfl⟩)⟩
  | accessFault => exact .inr ⟨rfl, .inl ⟨rfl, rfl⟩⟩

/-- R28: only ACCESS_FAULT writes FADDR. -/
theorem faddr_eq_or_accessFault (h : CommandEnd b s t) :
    t.inst.faddr = s.inst.faddr ∨ t.inst.status = 0x00000021#32 := by
  cases h with
  | success | badCount | badRange => exact .inl rfl
  | accessFault => exact .inr rfl

end CommandEnd

/-- RESULT of a codec command is at most the worst-case size of its list, and its list has at most NMAX words. -/
theorem rangesOf_hi_le (i : Instr) {n nmax : Nat} (h : n ≤ nmax) : (rangesOf i n).hi ≤ 4 + tagBytes nmax + 4 * nmax := by
  have hn : n ≤ 4 + tagBytes nmax + 4 * nmax := by omega
  have hmax : maxPrecodedSize n ≤ 4 + tagBytes nmax + 4 * nmax := by
    unfold maxPrecodedSize tagBytes; split <;> omega
  cases i with
  | encS | encU => exact hmax
  | decS | decU | szp | szw | tCom | tS8 | tS16 | tS32 => exact hn

/-- The parts of its ranges a command surely touches, and its bounds of RESULT, lie as `overlapEnd_cases` wants them. -/
theorem rangesOf_ordered (i : Instr) {n : Nat} (hn : 0 < n) :
    0 < (rangesOf i n).inLen ∧ 0 < (rangesOf i n).outLen ∧ (rangesOf i n).sureIn ≤ (rangesOf i n).inLen ∧
      (rangesOf i n).sureOut ≤ (rangesOf i n).outLen ∧ (rangesOf i n).lo ≤ (rangesOf i n).hi := by
  have hm := maxPrecodedSize_pos hn
  cases i with
  | encS | encU => simp only [rangesOf, encRanges, hm]; omega
  | decS | decU | szp | szw | tCom | tS8 | tS16 | tS32 => simp only [rangesOf, decRanges, hm]; omega

theorem lt_of_refused_in_ranges {s : State} {i : Instr} {a : Nat} (hl : OperandsLegal i s)
    (ha : s.inst.src.toNat ≤ a ∧ a < s.inst.src.toNat + (rangesOf i s.inst.count.toNat).inLen ∨
      s.inst.dst.toNat ≤ a ∧ a < s.inst.dst.toNat + (rangesOf i s.inst.count.toNat).outLen) : a < 2 ^ s.plat.aw := by
  obtain ⟨-, -, hsrc, hdst⟩ := hl
  omega

/-- A codec command that answers a next state has ended, with bounds. -/
theorem exec_codec_commandEnd {i : Instr} {s t : State} (hi : isCodec i = true) (h : exec i s = .next t) :
    CommandEnd True s t := by
  rcases exec_codec_cases s i hi with ⟨-, e⟩ | ⟨-, e⟩ | ⟨-, -, -, e⟩ | ⟨-, -, e⟩ | ⟨hl, -, -, e⟩ | ⟨hl, -, -, hr⟩
  · rw [e] at h; cases h; exact .badCount
  · rw [e] at h; cases h; exact .success _ 0 s.draws fun _ => Nat.zero_le _
  · rw [e] at h; cases h; exact .badRange
  · rw [e] at h; cases h
  · rw [e] at h
    obtain ⟨hin, hout, hsi, hso, hlo⟩ := rangesOf_ordered i hl.1
    rcases overlapEnd_cases s _ hin hout hsi hso hlo with ⟨a, -, ha, he⟩ | ⟨res, -, hhi, he⟩ <;>
      rw [he] at h <;> cases h
    · exact .accessFault a _ _ _ fun _ => lt_of_refused_in_ranges hl ha
    · exact .success _ res _ fun _ => Nat.le_trans hhi (rangesOf_hi_le i hl.2.1)
  · rcases hr with ⟨a, -, ha, e⟩ | ⟨m, res, d, -, -, hhi, -, -, e⟩ <;> rw [e] at h <;> cases h
    · exact .accessFault a s.draws _ _ fun _ => lt_of_refused_in_ranges hl ha
    · exact .success m res d fun _ => Nat.le_trans hhi (rangesOf_hi_le i hl.2.1)

/-- A sizing command that answers a next state has ended, with bounds (R116, R117). -/
theorem sizeQuery_commandEnd {s t : State} (h : sizeQuery maxPrecodedSize s = .next t) : CommandEnd True s t := by
  unfold sizeQuery at h
  split at h <;> cases h
  · exact .badCount
  · next hn => exact .success _ _ s.draws fun _ => rangesOf_hi_le .encS (Nat.le_of_not_gt hn)

/-- Everything a command can answer as a next state. -/
theorem exec_commandEnd {i : Instr} {s t : State} (hi : isCommand i = true) (h : exec i s = .next t) :
    CommandEnd True s t := by
  cases i with
  | encS | encU | decS | decU => exact exec_codec_commandEnd rfl h
  | szp | szw => exact sizeQuery_commandEnd h
  | tCom | tS8 | tS16 | tS32 => cases hi

/-! ## The bounds of the working values -/

section inBounds
variable {p : Platform} {w : Work}

theorem inBounds_hist (hp : w.pass = .hist) : w.inBounds p = true ↔
    0 < w.n ∧ w.n ≤ p.nmax ∧ w.i ≤ w.n ∧ w.src + 4 * w.n ≤ 2 ^ p.aw ∧ w.dst + maxPrecodedSize w.n ≤ 2 ^ p.aw := by
  simp [Work.inBounds, hp, and_assoc]

theorem inBounds_emit (hp : w.pass = .emit) : w.inBounds p = true ↔
    0 < w.n ∧ w.n ≤ p.nmax ∧ w.i ≤ w.n ∧ w.src + 4 * w.n ≤ 2 ^ p.aw ∧ w.dst + maxPrecodedSize w.n ≤ 2 ^ p.aw ∧
      w.dst + 4 + tagBytes w.n ≤ w.resCur ∧ w.resCur ≤ w.dst + 4 + tagBytes w.n + 4 * w.i := by
  simp [Work.inBounds, hp, and_assoc]

theorem inBounds_header (hp : w.pass = .header) : w.inBounds p = true ↔
    0 < w.n ∧ w.n ≤ p.nmax ∧ w.i ≤ w.n ∧ w.src + maxPrecodedSize w.n ≤ 2 ^ p.aw ∧ w.dst + 4 * w.n ≤ 2 ^ p.aw := by
  simp [Work.inBounds, hp, and_assoc]

theorem inBounds_dec (hp : w.pass = .dec) : w.inBounds p = true ↔
    0 < w.n ∧ w.n ≤ p.nmax ∧ w.i ≤ w.n ∧ w.src + maxPrecodedSize w.n ≤ 2 ^ p.aw ∧ w.dst + 4 * w.n ≤ 2 ^ p.aw ∧
      w.src + 4 + tagBytes w.n ≤ w.resCur ∧ w.resCur ≤ w.src + 4 + tagBytes w.n + 4 * w.i := by
  simp [Work.inBounds, hp, and_assoc]

end inBounds

section left
variable {w : Work}

theorem left_hist (hp : w.pass = .hist) : w.left = (w.n - w.i) + 1 + w.n + 1 := by simp [Work.left, hp]
theorem left_emit (hp : w.pass = .emit) : w.left = (w.n - w.i) + 1 := by simp [Work.left, hp]
theorem left_header (hp : w.pass = .header) : w.left = w.n + 2 := by simp [Work.left, hp]
theorem left_dec (hp : w.pass = .dec) : w.left = (w.n - w.i) + 1 := by simp [Work.left, hp]

end left

/-! ## A part of a running command -/

/-- What a part of the running command with working values `w` leaves: the command has ended, or it goes on within its
bounds, if it was within them, and with less left to do. -/
inductive PartEnd (s : State) (w : Work) : State → Prop
  | ends {t : State} (h : CommandEnd (w.inBounds s.plat = true) s t) : PartEnd s w t
  | goesOn (m : Memory) (w' : Work) (hb : w.inBounds s.plat = true → w'.inBounds s.plat = true)
      (hl : w'.left < w.left) : PartEnd s w (({ s with mem := m }).setWork w')

namespace PartEnd
variable {s t : State} {w : Work}

theorem accessFault (a out len : Nat) (h : w.inBounds s.plat = true → a < 2 ^ s.plat.aw) :
    PartEnd s w (endAccessFault s a out len) := .ends (.accessFault a s.draws out len h)

theorem hostSideKept (h : PartEnd s w t) : HostSideKept s t := by
  cases h with
  | ends h => exact h.hostSideKept
  | goesOn => exact ⟨rfl, rfl, rfl, rfl, rfl, rfl, rfl, rfl, rfl⟩

/-- R28: only ACCESS_FAULT, which ends the command, writes FADDR. -/
theorem faddr_eq_or_accessFault (h : PartEnd s w t) :
    t.inst.faddr = s.inst.faddr ∨ t.inst.status = 0x00000021#32 ∧ t.inst.work = none := by
  cases h with
  | ends h => exact h.faddr_eq_or_accessFault.imp id fun hs => ⟨hs, h.work_eq_none⟩
  | goesOn => exact .inl rfl

/-- Fetching a delta or a tag changes working values that bound nothing, so the part may as well start after it. -/
theorem of_fetched {w' : Work} (hs : w.SameOperands w') (hi : w'.i = w.i) (hr : w'.resCur = w.resCur)
    (h : PartEnd (s.setWork w') w' t) : PartEnd s w t := by
  obtain ⟨hp, hn, hsrc, hdst⟩ := hs
  have hb : w'.inBounds s.plat = w.inBounds s.plat := by simp only [Work.inBounds, hp, hn, hsrc, hdst, hi, hr]
  have hl : w'.left = w.left := by simp only [Work.left, hp, hn, hi]
  cases h with
  | ends h =>
    refine .ends ?_
    cases h with
    | success m res d h => exact .success m res d (hb ▸ h)
    | badCount => exact .badCount
    | badRange => exact .badRange
    | accessFault a d out len h => exact .accessFault a d out len (hb ▸ h)
  | goesOn m v hv hlt => exact .goesOn m v (hb ▸ hv) (hl ▸ hlt)

end PartEnd

/-- A record packed in the emission pass: one element less is left, or the command has ended at a refused byte. -/
theorem emitRecord_partEnd {s : State} {w : Work} (t : Tag) (hp : w.pass = .emit) (hi : w.i < w.n) :
    PartEnd s w (afterRecord s w (emitRecord (packOf t) s.plat s.mem w)) := by
  have hlen := resLen_le t
  cases he : emitRecord (packOf t) s.plat s.mem w with
  | error a =>
    obtain ⟨ha, -⟩ := emitRecord_error he
    refine .accessFault a _ _ fun hb => ?_
    obtain ⟨hn, -, -, -, hdst, -, hcur⟩ := (inBounds_emit hp).mp hb
    rw [maxPrecodedSize_pos hn] at hdst
    have : w.i / 4 < tagBytes w.n := by unfold tagBytes; omega
    omega
  | ok x =>
    obtain ⟨m, w'⟩ := x
    obtain ⟨⟨hp', hn', hs', hd'⟩, hi', hr', -⟩ := emitRecord_ok he
    rw [hp] at hp'
    refine .goesOn m w' (fun hb => ?_) ?_
    · obtain ⟨hn, hmax, -, hsrc, hdst, hlo, hhi⟩ := (inBounds_emit hp).mp hb
      rw [inBounds_emit hp', hn', hs', hd', hi', hr']
      exact ⟨hn, hmax, hi, hsrc, hdst, by omega, by omega⟩
    · rw [left_emit hp, left_emit hp', hn', hi']; omega

/-- A record executed in the decode pass: one element less is left, or the command has ended at a refused byte. -/
theorem decRecord_partEnd {s : State} {w : Work} (t : Tag) (hp : w.pass = .dec) (hi : w.i < w.n) :
    PartEnd s w (afterRecord s w (decRecord (unpackOf t) s.plat s.mem w)) := by
  have hlen := resLen_le t
  cases he : decRecord (unpackOf t) s.plat s.mem w with
  | error a =>
    obtain ⟨ha, -⟩ := decRecord_error he
    refine .accessFault a _ _ fun hb => ?_
    obtain ⟨hn, -, -, hsrc, hdst, -, hcur⟩ := (inBounds_dec hp).mp hb
    rw [maxPrecodedSize_pos hn] at hsrc
    omega
  | ok x =>
    obtain ⟨m, w'⟩ := x
    obtain ⟨⟨hp', hn', hs', hd'⟩, hi', hr', -⟩ := decRecord_ok he
    rw [hp] at hp'
    refine .goesOn m w' (fun hb => ?_) ?_
    · obtain ⟨hn, hmax, -, hsrc, hdst, hlo, hhi⟩ := (inBounds_dec hp).mp hb
      rw [inBounds_dec hp', hn', hs', hd', hi', hr']
      exact ⟨hn, hmax, hi, hsrc, hdst, by omega, by omega⟩
    · rw [left_dec hp, left_dec hp', hn', hi']; omega

/-- The record of a tag, executed and packed by the arms of that tag (R88). -/
theorem exec_ofTag (t : Tag) (s : State) : exec (Instr.ofTag t) s = execRecord (unpackOf t) (packOf t) s := by
  cases t <;> rfl

/-- A record in a pass with an element left does a part of the command. -/
theorem exec_ofTag_partEnd {s : State} {w : Work} (t : Tag) (hw : s.inst.work = some w) (hi : w.i < w.n)
    (hp : w.pass = .dec ∨ w.pass = .emit) : ∃ u, exec (Instr.ofTag t) s = .next u ∧ PartEnd s w u := by
  rw [exec_ofTag]
  obtain ⟨-, hno⟩ | ⟨v, hv, -, hpass⟩ := execRecord_cases t s
  · obtain ⟨hdec, hemit⟩ := hno w hw hi
    exact absurd hp (by simp [hdec, hemit])
  · obtain rfl : v = w := by rw [hw] at hv; exact (Option.some.inj hv).symm
    obtain ⟨hp, e⟩ | ⟨hp, e⟩ := hpass
    · exact ⟨_, e, decRecord_partEnd t hp hi⟩
    · exact ⟨_, e, emitRecord_partEnd t hp hi⟩

/-- An instruction is a command or the record of a tag (R80, R88). -/
theorem isCommand_or_ofTag (i : Instr) : isCommand i = true ∨ ∃ t, i = Instr.ofTag t := by
  cases i with
  | encS | encU | decS | decU | szp | szw => exact .inl rfl
  | tCom => exact .inr ⟨.com, rfl⟩
  | tS8 => exact .inr ⟨.s8, rfl⟩
  | tS16 => exact .inr ⟨.s16, rfl⟩
  | tS32 => exact .inr ⟨.s32, rfl⟩

/-- A record is refused exactly when no command is in a pass with an element left (R31, R160; log 13). -/
theorem exec_ofTag_refused_iff (t : Tag) (s : State) :
    exec (Instr.ofTag t) s = .refused .recordOutsidePass ↔
      ¬ ∃ w, s.inst.work = some w ∧ w.i < w.n ∧ (w.pass = .dec ∨ w.pass = .emit) := by
  constructor
  · rintro h ⟨w, hw, hi, hp⟩
    obtain ⟨u, hu, -⟩ := exec_ofTag_partEnd t hw hi hp
    rw [h] at hu
    cases hu
  · intro h
    rw [exec_ofTag]
    obtain ⟨e, -⟩ | ⟨w, hw, hi, hpass⟩ := execRecord_cases t s
    · exact e
    · exact absurd ⟨w, hw, hi, hpass.imp And.left And.left⟩ h

/-- Everything an instruction can answer as a next state: its command has ended, or it has done a part of the command that
was running. -/
theorem exec_next_cases {i : Instr} {s t : State} (h : exec i s = .next t) :
    CommandEnd True s t ∨ ∃ w, s.inst.work = some w ∧ PartEnd s w t := by
  rcases isCommand_or_ofTag i with hi | ⟨tag, rfl⟩
  · exact .inl (exec_commandEnd hi h)
  · by_cases hw : ∃ w, s.inst.work = some w ∧ w.i < w.n ∧ (w.pass = .dec ∨ w.pass = .emit)
    · obtain ⟨w, hw, hi, hp⟩ := hw
      obtain ⟨u, hu, hpart⟩ := exec_ofTag_partEnd tag hw hi hp
      rw [h] at hu
      cases hu
      exact .inr ⟨w, hw, hpart⟩
    · rw [(exec_ofTag_refused_iff tag s).mpr hw] at h
      cases h

/-- Fetching the record of an element and running it does a part of the command (R137, R169, R196). -/
theorem runElement_partEnd {s : State} {w : Work} {x : Except Nat Work} (hi : w.i < w.n)
    (hp : w.pass = .dec ∨ w.pass = .emit)
    (hok : ∀ w', x = .ok w' → w.SameOperands w' ∧ w'.i = w.i ∧ w'.resCur = w.resCur)
    (herr : ∀ a, x = .error a → w.inBounds s.plat = true → a < 2 ^ s.plat.aw) :
    ∃ t, runElement s w x = .next t ∧ PartEnd s w t := by
  cases x with
  | error a => exact ⟨_, rfl, .accessFault a _ _ (herr a rfl)⟩
  | ok w' =>
    obtain ⟨hs, hi', hr'⟩ := hok w' rfl
    obtain ⟨hp', hn', -⟩ := id hs
    obtain ⟨t, ht, hpart⟩ := exec_ofTag_partEnd w'.tag (setWork_work s w') (by omega) (by rwa [hp'])
    exact ⟨t, ht, hpart.of_fetched hs hi' hr'⟩

/-- A part that changes only working values has done its part or has ended the command. -/
theorem afterPart_partEnd {s : State} {w : Work} {x : Except Nat Work}
    (hok : ∀ w', x = .ok w' → (w.inBounds s.plat = true → w'.inBounds s.plat = true) ∧ w'.left < w.left)
    (herr : ∀ a, x = .error a → w.inBounds s.plat = true → a < 2 ^ s.plat.aw) :
    PartEnd s w (afterPart s w x) := by
  cases x with
  | error a => exact .accessFault a _ _ (herr a rfl)
  | ok w' => exact .goesOn s.mem w' (hok w' rfl).1 (hok w' rfl).2

theorem histElem_partEnd {s : State} {w : Work} (hp : w.pass = .hist) (hi : w.i < w.n) :
    PartEnd s w (afterPart s w (histElem s.plat s.mem w)) := by
  refine afterPart_partEnd (fun w' he => ?_) (fun a he hb => ?_)
  · obtain ⟨⟨hp', hn', hs', hd'⟩, hi'⟩ := histElem_ok he
    rw [hp] at hp'
    rw [inBounds_hist hp, inBounds_hist hp', left_hist hp, left_hist hp', hn', hs', hd', hi']
    exact ⟨fun ⟨h₁, h₂, _, h₃⟩ => ⟨h₁, h₂, hi, h₃⟩, by omega⟩
  · obtain ⟨-, -, -, hsrc, -⟩ := (inBounds_hist hp).mp hb
    obtain ⟨-, ha, -⟩ := histElem_error he
    omega

theorem layout_partEnd {s : State} {w : Work} (hp : w.pass = .hist) :
    PartEnd s w (afterRecord s w (layout s.plat s.mem w)) := by
  cases he : layout s.plat s.mem w with
  | error a =>
    refine .accessFault a _ _ fun hb => ?_
    obtain ⟨hn, -, -, -, hdst⟩ := (inBounds_hist hp).mp hb
    obtain ⟨-, ha, -⟩ := layout_error he
    rw [maxPrecodedSize_pos hn] at hdst
    omega
  | ok x =>
    obtain ⟨m, w'⟩ := x
    obtain ⟨hp', hn', hs', hd', hi', hr', -⟩ := layout_ok he
    refine .goesOn m w' (fun hb => ?_) ?_
    · obtain ⟨hn, hmax, -, hsrc, hdst⟩ := (inBounds_hist hp).mp hb
      rw [inBounds_emit hp', hn', hs', hd', hi', hr']
      exact ⟨hn, hmax, Nat.zero_le _, hsrc, hdst, Nat.le_refl _, Nat.le_add_right _ _⟩
    · rw [left_hist hp, left_emit hp', hn', hi']; omega

theorem readHeader_partEnd {s : State} {w : Work} (hp : w.pass = .header) :
    PartEnd s w (afterPart s w (readHeader s.plat s.mem w)) := by
  refine afterPart_partEnd (fun w' he => ?_) (fun a he hb => ?_)
  · obtain ⟨hp', hn', hs', hd', hi', hr'⟩ := readHeader_ok he
    refine ⟨fun hb => ?_, by rw [left_header hp, left_dec hp', hn', hi']; omega⟩
    obtain ⟨hn, hmax, -, hsrc, hdst⟩ := (inBounds_header hp).mp hb
    rw [inBounds_dec hp', hn', hs', hd', hi', hr']
    exact ⟨hn, hmax, Nat.zero_le _, hsrc, hdst, Nat.le_refl _, Nat.le_add_right _ _⟩
  · obtain ⟨hn, -, -, hsrc, -⟩ := (inBounds_header hp).mp hb
    obtain ⟨-, ha, -⟩ := readHeader_error he
    rw [maxPrecodedSize_pos hn] at hsrc
    omega

/-- ENC ends with the length of the stream it wrote, within the worst case (R138, R176). -/
theorem endEnc_partEnd {s : State} {w : Work} (hp : w.pass = .emit) : PartEnd s w (endOK s s.mem (w.resCur - w.dst)) := by
  refine .ends (.success s.mem _ s.draws fun hb => ?_)
  obtain ⟨-, hmax, hi, -, -, -, hcur⟩ := (inBounds_emit hp).mp hb
  have : tagBytes w.n ≤ tagBytes s.plat.nmax := by unfold tagBytes; omega
  omega

theorem endDec_partEnd {s : State} {w : Work} (hp : w.pass = .dec) : PartEnd s w (endDec s s.mem w.n) := by
  refine .ends (.success s.mem _ (s.draws + 1) fun hb => ?_)
  obtain ⟨-, hmax, -⟩ := (inBounds_dec hp).mp hb
  omega

/-- Fetching a tag changes no operand, no index and no cursor. -/
theorem fetchTag_sameOperands {p : Platform} {m : Memory} {w w' : Work} (h : fetchTag p m w = .ok w') :
    w.SameOperands w' ∧ w'.i = w.i ∧ w'.resCur = w.resCur := by
  obtain ⟨rfl, -⟩ := fetchTag_ok h
  exact ⟨⟨rfl, rfl, rfl, rfl⟩, rfl, rfl⟩

/-- Everything a step of a running command can do: it answers a next state, in which its part is done. -/
theorem advance_partEnd (s : State) (w : Work) : ∃ t, advance s w = .next t ∧ PartEnd s w t := by
  unfold advance
  cases hp : w.pass with
  | hist =>
    by_cases hi : w.i < w.n
    · exact ⟨_, if_pos hi, histElem_partEnd hp hi⟩
    · exact ⟨_, if_neg hi, layout_partEnd hp⟩
  | emit =>
    by_cases hi : w.i < w.n
    · simp only [if_pos hi]
      refine runElement_partEnd hi (.inr hp) (fun w' => fetchDelta_ok) fun a he hb => ?_
      obtain ⟨-, ha, -⟩ := fetchDelta_error he
      obtain ⟨-, -, -, hsrc, -⟩ := (inBounds_emit hp).mp hb
      omega
    · exact ⟨_, if_neg hi, endEnc_partEnd hp⟩
  | header => exact ⟨_, rfl, readHeader_partEnd hp⟩
  | dec =>
    by_cases hi : w.i < w.n
    · simp only [if_pos hi]
      refine runElement_partEnd hi (.inl hp) (fun w' => fetchTag_sameOperands) fun a he hb => ?_
      obtain ⟨ha, -⟩ := fetchTag_error he
      obtain ⟨hn, -, -, hsrc, -⟩ := (inBounds_dec hp).mp hb
      rw [maxPrecodedSize_pos hn] at hsrc
      have : w.i / 4 < tagBytes w.n := by unfold tagBytes; omega
      omega
    · exact ⟨_, if_neg hi, endDec_partEnd hp⟩

end Sys2Proof.Machine

end

section
/-! SUPPORT. Everything one step of the machine can do, said once: a part of the running command, a reset, a register access,
a command begun, or an action of the host or the platform that leaves every instance alone. The step invariants follow. -/

namespace Sys2Proof.Machine

/-! ## A command begun by a write to CMD -/

/-- What a write to CMD leaves, from the state with the word stored: its command has ended, the word was illegal, or the
command is left running within its bounds (R22, R233; log 11). -/
inductive Begun (s : State) : State → Prop
  | ends {t : State} (h : CommandEnd True s t) : Begun s t
  | illegal : Begun s (endFault s .illegalCmd)
  | runs (w : Work) (h : w.inBounds s.plat = true) : Begun s (s.setWork w)

theorem Begun.hostSideKept {s t : State} (h : Begun s t) : HostSideKept s t := by
  cases h with
  | ends h => exact h.hostSideKept
  | illegal | runs => exact ⟨rfl, rfl, rfl, rfl, rfl, rfl, rfl, rfl, rfl⟩

/-- The checks let a command run only with the working values given, and only when its operands pass (R234, R235). -/
theorem startCodec_running {s : State} {r : Ranges} {w v : Work} (h : startCodec s r w = .running v) :
    v = w ∧ 0 < s.inst.count.toNat ∧ s.inst.count.toNat ≤ s.plat.nmax ∧
      s.inst.src.toNat + r.inLen ≤ 2 ^ s.plat.aw ∧ s.inst.dst.toNat + r.outLen ≤ 2 ^ s.plat.aw := by
  rcases startCodec_cases s r w with ⟨-, e⟩ | ⟨-, e⟩ | ⟨hn, hmax, ⟨-, e⟩ | ⟨hin, hout, ⟨-, e⟩ | ⟨-, -, ⟨-, e⟩ | ⟨-, e⟩⟩⟩⟩ <;>
    rw [e] at h <;> cases h
  exact ⟨rfl, hn, hmax, hin, hout⟩

theorem startEnc_running {s : State} {w : Work} (h : startEnc s = .running w) :
    w = encWork s ∧ w.inBounds s.plat = true := by
  obtain ⟨rfl, hn, hmax, hin, hout⟩ := startCodec_running h
  exact ⟨rfl, (inBounds_hist rfl).mpr ⟨hn, hmax, Nat.zero_le _, hin, hout⟩⟩

theorem startDec_running {s : State} {w : Work} (h : startDec s = .running w) :
    w = decWork s ∧ w.inBounds s.plat = true := by
  obtain ⟨rfl, hn, hmax, hin, hout⟩ := startCodec_running h
  exact ⟨rfl, (inBounds_header rfl).mpr ⟨hn, hmax, Nat.zero_le _, hin, hout⟩⟩

/-- A command word decodes to a command (R80). -/
theorem isCommand_of_decodeCommand {w : Word} {i : Instr} (h : decodeCommand w = .ok i) : isCommand i = true := by
  unfold decodeCommand at h
  split_ifs at h <;> cases h <;> rfl

theorem runCommand_begun {s t : State} (h : runCommand s = .next t) : Begun s t := by
  unfold runCommand at h
  split at h
  · next hd => exact .ends (exec_commandEnd (isCommand_of_decodeCommand hd) h)
  · cases h; exact .illegal

/-- A codec command left running: it has ended at its checks, as `exec` would have ended it, or it runs. -/
theorem beginStepped_begun {s t : State} {i : Instr} {st : Start} (hi : isCodec i = true)
    (hended : ∀ o, st = .ended o → exec i s = o) (hrun : ∀ w, st = .running w → w.inBounds s.plat = true)
    (h : beginStepped s st = .next t) : Begun s t := by
  cases st with
  | ended o => exact .ends (exec_codec_commandEnd hi ((hended o rfl).trans h))
  | running w => cases h; exact .runs w (hrun w rfl)

theorem startCommand_begun {s t : State} (h : startCommand s = .next t) : Begun s t := by
  have enc : beginStepped s (startEnc s) = .next t → Begun s t :=
    beginStepped_begun (i := .encS) rfl (fun _ => exec_enc_of_ended (.inl rfl)) fun _ hw => (startEnc_running hw).2
  have dec : beginStepped s (startDec s) = .next t → Begun s t :=
    beginStepped_begun (i := .decS) rfl (fun _ => exec_dec_of_ended (.inl rfl)) fun _ hw => (startDec_running hw).2
  unfold startCommand at h
  split at h
  · exact enc h
  · exact enc h
  · exact dec h
  · exact dec h
  · exact runCommand_begun h

/-! ## The focus, and reset -/

/-- The parameters and, up to order, the instances are the same: what an access by address keeps, though another one may
come into focus (R39; log 12). -/
def Refocused (s u : State) : Prop := u.plat = s.plat ∧ u.instances.Perm s.instances

theorem Refocused.of_inst {s u : State} (hp : u.plat = s.plat) (hi : u.inst = s.inst) (ho : u.others = s.others) :
    Refocused s u := ⟨hp, by rw [State.instances, State.instances, hi, ho]⟩

theorem locate_plat {s u : State} {addr k : Nat} (h : locate s addr = .ok (u, k)) : u.plat = s.plat := by
  unfold locate at h
  split at h
  · cases h
  · next hf =>
    split at h <;> cases h
    unfold focusOn at hf
    split at hf
    · cases hf; rfl
    · split at hf <;> cases hf; rfl

theorem locate_refocused {s u : State} {addr k : Nat} (h : locate s addr = .ok (u, k)) : Refocused s u :=
  ⟨locate_plat h, locate_perm h⟩

/-- The reset of the instance at `b`, in focus or not (R260). -/
def resetAt (s : State) (b : Nat) : State := if s.inst.base = b then resetFocused s else resetOther s b

section resetAt
variable (s : State) (b : Nat)

theorem resetFocused_inst : (resetFocused s).inst = s.inst.cleared := by unfold resetFocused; split <;> rfl
theorem resetFocused_others : (resetFocused s).others = s.others := by unfold resetFocused; split <;> rfl
theorem resetFocused_plat : (resetFocused s).plat = s.plat := by unfold resetFocused; split <;> rfl

theorem resetAt_plat : (resetAt s b).plat = s.plat := by
  unfold resetAt; split
  · exact resetFocused_plat s
  · rfl

theorem resetAt_inst : (resetAt s b).inst = s.inst ∨ (resetAt s b).inst = s.inst.cleared := by
  unfold resetAt; split
  · exact .inr (resetFocused_inst s)
  · exact .inl rfl

/-- Another instance after a reset is one of those before, or has its reset values. -/
theorem mem_others_resetAt {x : Inst} (h : x ∈ (resetAt s b).others) : x ∈ s.others ∨ ∃ y : Inst, x = y.cleared := by
  unfold resetAt at h; split at h
  · rw [resetFocused_others] at h; exact .inl h
  · obtain ⟨y, hy, rfl⟩ := List.mem_map.mp h
    split
    · exact .inr ⟨y, rfl⟩
    · exact .inl hy

theorem mem_instances_resetAt {x : Inst} (h : x ∈ (resetAt s b).instances) :
    x ∈ s.instances ∨ ∃ y : Inst, x = y.cleared := by
  rcases List.mem_cons.mp h with rfl | h
  · rcases resetAt_inst s b with e | e
    · exact .inl (e ▸ List.mem_cons_self)
    · exact .inr ⟨_, e⟩
  · exact (mem_others_resetAt s b h).imp_left (List.mem_cons_of_mem _)

/-- A reset moves no register block (R40, R51). -/
theorem resetAt_bases : (resetAt s b).instances.map Inst.base = s.instances.map Inst.base := by
  unfold resetAt; split
  · simp [State.instances, resetFocused_inst, resetFocused_others, Inst.cleared, Inst.atReset]
  · have : ∀ x : Inst, (if x.base = b then x.cleared else x).base = x.base := fun x => by split <;> rfl
    simp [State.instances, resetOther, this]

end resetAt

/-! ## One step -/

/-- Everything a step can do. -/
inductive StepTo (s : State) : State → Prop
  /-- The running command does a part; a `tick` is taken off the queue. -/
  | part {w : Work} {t : State} (q : List HostAction) (hw : s.inst.work = some w)
      (h : PartEnd { s with queue := q } w t) : StepTo s t
  | reset (b : Nat) (q : List HostAction) : StepTo s (resetAt { s with queue := q } b)
  /-- The host reads a register, or accesses a byte, or nothing happens. -/
  | access {t : State} (hidle : Idle s) (h : Refocused s t) : StepTo s t
  | write {u : State} (k : Nat) (v : BitVec 64) (hidle : Idle s) (h : Refocused s u) : StepTo s (writeSlot u k v)
  | command {u t : State} (k : Nat) (v : BitVec 64) (hidle : Idle s) (h : Refocused s u)
      (hrun : Begun (writeSlot u k v) t) : StepTo s t
  | setAdmits (rs : List Region) (q : List HostAction) (hidle : Idle s) (hq : s.queue = .setAdmits rs :: q) :
      StepTo s { s with queue := q, plat := { s.plat with admits := rs } }
  | declare (rs : List Region) (q : List HostAction) (hidle : Idle s) (hq : s.queue = .declare rs :: q) :
      StepTo s { s with queue := q, plat := { s.plat with streams := rs } }

theorem stepTo_of_hostWrite {s t : State} {run : State → Host.Outcome State Fault Refusal} {q : List HostAction} {addr : Nat}
    {v : BitVec 64} (hidle : Idle s) (hrun : ∀ {u t : State}, run u = .next t → Begun u t)
    (h : hostWrite run { s with queue := q } addr v = .next t) : StepTo s t := by
  unfold hostWrite at h
  split at h
  · cases h
  · next u k hl =>
    have hf := locate_refocused hl
    split at h
    · exact .command k v hidle hf (hrun h)
    · cases h; exact .write k v hidle hf

theorem stepTo_of_hostRead {s t : State} {q : List HostAction} {addr : Nat} (hidle : Idle s)
    (h : hostRead { s with queue := q } addr = .next t) : StepTo s t := by
  unfold hostRead at h
  split at h
  · cases h
  · next hl =>
    have hf := locate_refocused hl
    cases h
    exact .access hidle hf

theorem stepTo_of_hostStore {s t : State} {q : List HostAction} {addr : Nat} {b : Byte} (hidle : Idle s)
    (h : hostStore { s with queue := q } addr b = .next t) : StepTo s t := by
  unfold hostStore at h
  split at h <;> cases h <;> exact .access hidle (.of_inst rfl rfl rfl)

theorem stepTo_of_hostLoad {s t : State} {q : List HostAction} {addr : Nat} (hidle : Idle s)
    (h : hostLoad { s with queue := q } addr = .next t) : StepTo s t := by
  unfold hostLoad at h
  split at h <;> cases h <;> exact .access hidle (.of_inst rfl rfl rfl)

/-- The first action of an idle machine is done, and taken off the queue. -/
theorem step_of_queue {s : State} {a : HostAction} {q : List HostAction} (h : Idle s) (hq : s.queue = a :: q) :
    step s = hostStep { s with queue := q } a := by
  obtain ⟨inst, others, mem, plat, queue, hostIn, draws, faultLog⟩ := s
  cases hq
  exact step_idle (s := ⟨inst, others, mem, plat, [], hostIn, draws, faultLog⟩) h a q

theorem idle_stepTo {s t : State} (hidle : Idle s) (h : step s = .next t) : StepTo s t := by
  cases hq : s.queue with
  | nil =>
    have he : step s = idleStep s := by unfold Idle at hidle; simp only [step, hidle]
    rw [he, idleStep, hq] at h
    cases h
    exact .access hidle ⟨rfl, .refl _⟩
  | cons a q =>
    rw [step_of_queue hidle hq] at h
    cases a with
    | regWrite addr v => exact stepTo_of_hostWrite hidle runCommand_begun h
    | regWriteStepped addr v => exact stepTo_of_hostWrite hidle startCommand_begun h
    | tick => cases h; exact .access hidle (.of_inst rfl rfl rfl)
    | regRead addr => exact stepTo_of_hostRead hidle h
    | store addr b => exact stepTo_of_hostStore hidle h
    | load addr => exact stepTo_of_hostLoad hidle h
    | reset b => cases h; exact .reset b q
    | setAdmits rs => cases h; exact .setAdmits rs q hidle hq
    | declare rs => cases h; exact .declare rs q hidle hq

/-- A running command does a part, the queue being as it was or one `tick` shorter, unless a reset is the next action. -/
theorem step_running {s : State} {w : Work} (hw : s.inst.work = some w) :
    (∃ q, step s = advance { s with queue := q } w) ∨
      ∃ b q, s.queue = .reset b :: q ∧ step s = .next (resetAt { s with queue := q } b) := by
  have he : step s = runningStep s w := by simp only [step, hw]
  rw [he]
  unfold runningStep
  split
  · next q hq => exact .inl ⟨q, rfl⟩
  · next b q hq => exact .inr ⟨b, q, hq, rfl⟩
  · exact .inl ⟨s.queue, rfl⟩

theorem running_stepTo {s t : State} {w : Work} (hw : s.inst.work = some w) (h : step s = .next t) : StepTo s t := by
  obtain ⟨q, e⟩ | ⟨b, q, -, e⟩ := step_running hw
  · obtain ⟨u, hu, hpart⟩ := advance_partEnd { s with queue := q } w
    rw [e, hu] at h
    cases h
    exact .part q hw hpart
  · rw [e] at h
    cases h
    exact .reset b q

theorem step_stepTo {s t : State} (h : step s = .next t) : StepTo s t := by
  cases hw : s.inst.work with
  | none => exact idle_stepTo hw h
  | some w => exact running_stepTo hw h

end Sys2Proof.Machine

end

section
/-! SUPPORT. The step invariants on STATUS, on the registers and working values, and on the parameters (O53, O54, O56), each by
cases on what a step can do. -/

namespace Sys2Proof.Machine

/-! ## STATUS -/

theorem statusesLegal_iff (s : State) : s.statusesLegal = true ↔ ∀ x ∈ s.instances, statusLegal x.status = true := by
  simp [State.statusesLegal]

/-- What holds of the other instances, which a state keeps, and of the one in focus holds of all. -/
theorem forall_instances_of_inst {P : Inst → Prop} {s t : State} (h : ∀ x ∈ s.instances, P x) (ho : t.others = s.others)
    (hi : P t.inst) : ∀ x ∈ t.instances, P x := by
  intro x hx
  rcases List.mem_cons.mp hx with rfl | hx
  · exact hi
  · exact h x (List.mem_cons_of_mem _ (ho ▸ hx))

@[simp] theorem regWrite_status (p : Platform) (x : Inst) (k : Nat) (v : BitVec 64) :
    (x.regWrite p k v).status = x.status := by unfold Inst.regWrite; split_ifs <;> rfl

@[simp] theorem regWrite_base (p : Platform) (x : Inst) (k : Nat) (v : BitVec 64) :
    (x.regWrite p k v).base = x.base := by unfold Inst.regWrite; split_ifs <;> rfl

section statusesLegal
variable {s t u : State}

theorem Refocused.statusesLegal (h : Refocused s u) (hs : s.statusesLegal = true) : u.statusesLegal = true := by
  rw [statusesLegal_iff] at hs ⊢
  exact fun x hx => hs x (h.2.mem_iff.mp hx)

theorem statusesLegal_writeSlot (hs : s.statusesLegal = true) (k : Nat) (v : BitVec 64) :
    (writeSlot s k v).statusesLegal = true := by
  rw [statusesLegal_iff] at hs ⊢
  refine forall_instances_of_inst hs rfl ?_
  simpa [writeSlot] using hs s.inst List.mem_cons_self

theorem CommandEnd.statusesLegal {b : Prop} (h : CommandEnd b s t) (hs : s.statusesLegal = true) :
    t.statusesLegal = true := by
  obtain ⟨-, -, -, -, -, ho, -⟩ := h.hostSideKept
  rw [statusesLegal_iff] at hs ⊢
  exact forall_instances_of_inst hs ho h.statusLegal_status

theorem PartEnd.statusesLegal {w : Work} (h : PartEnd s w t) (hs : s.statusesLegal = true) : t.statusesLegal = true := by
  cases h with
  | ends h => exact h.statusesLegal hs
  | goesOn => exact hs

theorem Begun.statusesLegal (h : Begun s t) (hs : s.statusesLegal = true) : t.statusesLegal = true := by
  cases h with
  | ends h => exact h.statusesLegal hs
  | illegal =>
    rw [statusesLegal_iff] at hs ⊢
    exact forall_instances_of_inst hs rfl rfl
  | runs => exact hs

theorem statusesLegal_resetAt (hs : s.statusesLegal = true) (b : Nat) : (resetAt s b).statusesLegal = true := by
  rw [statusesLegal_iff] at hs ⊢
  intro x hx
  rcases mem_instances_resetAt s b hx with hx | ⟨y, rfl⟩
  · exact hs x hx
  · exact statusLegal_atReset y.base

end statusesLegal

/-- Settles O53, by cases on what the step did: only the end of a command writes STATUS, with a code that is produced, and a
reset clears it. -/
theorem stepKeepsStatusLegal : Obligations.StepKeepsStatusLegal := by
  intro s t hs h
  cases step_stepTo h with
  | part q _ hpart => exact hpart.statusesLegal hs
  | reset b q => exact statusesLegal_resetAt (s := { s with queue := q }) hs b
  | access _ hf => exact hf.statusesLegal hs
  | write k v _ hf => exact statusesLegal_writeSlot (hf.statusesLegal hs) k v
  | command k v _ hf hrun => exact hrun.statusesLegal (statusesLegal_writeSlot (hf.statusesLegal hs) k v)
  | setAdmits | declare => exact hs

/-! ## The registers and the working values -/

/-- R21, R33: the registers of an instance fit AW bits and a running command is within its bounds. -/
theorem inst_fits_iff (p : Platform) (x : Inst) : x.fits p = true ↔
    x.src.toNat < 2 ^ p.aw ∧ x.dst.toNat < 2 ^ p.aw ∧ x.count.toNat < 2 ^ p.aw ∧ x.result.toNat < 2 ^ p.aw ∧
      x.faddr.toNat < 2 ^ p.aw ∧ ∀ w, x.work = some w → w.inBounds p = true := by
  cases hw : x.work <;> simp [Inst.fits, hw, and_assoc]

theorem state_fits_iff (s : State) : s.fits = true ↔
    s.plat.wellFormed = true ∧ (∀ x ∈ s.instances, x.fits s.plat = true) ∧ ∀ x ∈ s.others, x.work = none := by
  simp [State.fits, and_assoc]

/-- A value below 2^AW fits a register of AW bits, whatever AW is (R21). -/
theorem toNat_ofNat_lt {v aw : Nat} (h : v < 2 ^ aw) : (BitVec.ofNat 64 v).toNat < 2 ^ aw := by
  rw [BitVec.toNat_ofNat]
  exact Nat.lt_of_le_of_lt (Nat.mod_le _ _) h

theorem truncAW_lt (p : Platform) (v : Nat) : (truncAW p v).toNat < 2 ^ p.aw :=
  toNat_ofNat_lt (Nat.mod_lt _ (Nat.two_pow_pos _))

theorem fits_regWrite {p : Platform} {x : Inst} (h : x.fits p = true) (k : Nat) (v : BitVec 64) :
    (x.regWrite p k v).fits p = true := by
  have hv := truncAW_lt p v.toNat
  rw [inst_fits_iff] at h ⊢
  obtain ⟨hsrc, hdst, hcount, hrest⟩ := h
  unfold Inst.regWrite
  split_ifs
  · exact ⟨hsrc, hdst, hcount, hrest⟩
  · exact ⟨hv, hdst, hcount, hrest⟩
  · exact ⟨hsrc, hv, hcount, hrest⟩
  · exact ⟨hsrc, hdst, hv, hrest⟩
  · exact ⟨hsrc, hdst, hcount, hrest⟩

theorem nmax_size_lt {p : Platform} (h : p.wellFormed = true) : 4 + tagBytes p.nmax + 4 * p.nmax < 2 ^ p.aw := by
  simp only [Platform.wellFormed, Bool.and_eq_true, decide_eq_true_eq] at h
  exact h.2

section fits
variable {s t u : State}

/-- A state that keeps the parameters and the other instances fits if its focused instance does. -/
theorem fits_of_inst (hs : s.fits = true) (hp : t.plat = s.plat) (ho : t.others = s.others)
    (hi : t.inst.fits s.plat = true) : t.fits = true := by
  rw [state_fits_iff] at hs ⊢
  obtain ⟨hwf, hall, hidle⟩ := hs
  rw [hp, ho]
  exact ⟨hwf, forall_instances_of_inst hall ho hi, hidle⟩

theorem inst_fits_of_fits (hs : s.fits = true) : s.inst.fits s.plat = true :=
  ((state_fits_iff s).mp hs).2.1 _ List.mem_cons_self

/-- Whichever idle instance comes into focus, the others are idle (log 12). -/
theorem Refocused.fits (h : Refocused s u) (hidle : Idle s) (hs : s.fits = true) : u.fits = true := by
  obtain ⟨hp, hperm⟩ := h
  rw [state_fits_iff] at hs ⊢
  obtain ⟨hwf, hall, hothers⟩ := hs
  rw [hp]
  refine ⟨hwf, fun x hx => hall x (hperm.mem_iff.mp hx), fun x hx => ?_⟩
  rcases List.mem_cons.mp (hperm.mem_iff.mp (List.mem_cons_of_mem _ hx)) with rfl | hx
  · exact hidle
  · exact hothers x hx

theorem fits_writeSlot (hs : s.fits = true) (k : Nat) (v : BitVec 64) : (writeSlot s k v).fits = true :=
  fits_of_inst hs rfl rfl (fits_regWrite (inst_fits_of_fits hs) k v)

theorem fits_setWork (hs : s.fits = true) {w : Work} (hw : w.inBounds s.plat = true) : (s.setWork w).fits = true := by
  obtain ⟨hsrc, hdst, hcount, hresult, hfaddr, -⟩ := (inst_fits_iff _ _).mp (inst_fits_of_fits hs)
  refine fits_of_inst hs rfl rfl ((inst_fits_iff _ _).mpr ⟨hsrc, hdst, hcount, hresult, hfaddr, fun v hv => ?_⟩)
  cases hv
  exact hw

/-- RESULT is within the worst-case size of NMAX words, which fits AW bits (R5), and FADDR is an address. -/
theorem CommandEnd.fits {b : Prop} (h : CommandEnd b s t) (hb : b) (hs : s.fits = true) : t.fits = true := by
  obtain ⟨hsrc, hdst, hcount, -, hfaddr, -⟩ := (inst_fits_iff _ _).mp (inst_fits_of_fits hs)
  have hzero : (0 : Slot).toNat < 2 ^ s.plat.aw := Nat.two_pow_pos _
  have hwork : ∀ w : Work, none = some w → w.inBounds s.plat = true := fun _ h => by cases h
  have hmax := nmax_size_lt ((state_fits_iff s).mp hs).1
  cases h with
  | success m res d hres =>
    have hr : (BitVec.ofNat 64 res).toNat < 2 ^ s.plat.aw := toNat_ofNat_lt (Nat.lt_of_le_of_lt (hres hb) hmax)
    exact fits_of_inst hs rfl rfl ((inst_fits_iff _ _).mpr ⟨hsrc, hdst, hcount, hr, hfaddr, hwork⟩)
  | badCount | badRange =>
    exact fits_of_inst hs rfl rfl ((inst_fits_iff _ _).mpr ⟨hsrc, hdst, hcount, hzero, hfaddr, hwork⟩)
  | accessFault a d out len ha =>
    exact fits_of_inst hs rfl rfl
      ((inst_fits_iff _ _).mpr ⟨hsrc, hdst, hcount, hzero, toNat_ofNat_lt (ha hb), hwork⟩)

theorem PartEnd.fits {w : Work} (h : PartEnd s w t) (hw : s.inst.work = some w) (hs : s.fits = true) : t.fits = true := by
  obtain ⟨-, -, -, -, -, hin⟩ := (inst_fits_iff _ _).mp (inst_fits_of_fits hs)
  cases h with
  | ends h => exact h.fits (hin w hw) hs
  | goesOn m w' hb => exact fits_setWork (s := { s with mem := m }) hs (hb (hin w hw))

theorem Begun.fits (h : Begun s t) (hs : s.fits = true) : t.fits = true := by
  cases h with
  | ends h => exact h.fits trivial hs
  | illegal =>
    obtain ⟨hsrc, hdst, hcount, -, hfaddr, -⟩ := (inst_fits_iff _ _).mp (inst_fits_of_fits hs)
    exact fits_of_inst hs rfl rfl
      ((inst_fits_iff _ _).mpr ⟨hsrc, hdst, hcount, Nat.two_pow_pos _, hfaddr, fun _ h => by cases h⟩)
  | runs w hw => exact fits_setWork hs hw

theorem fits_resetAt (hs : s.fits = true) (b : Nat) : (resetAt s b).fits = true := by
  rw [state_fits_iff] at hs ⊢
  obtain ⟨hwf, hall, hidle⟩ := hs
  rw [resetAt_plat]
  refine ⟨hwf, fun x hx => ?_, fun x hx => ?_⟩
  · rcases mem_instances_resetAt s b hx with hx | ⟨y, rfl⟩
    · exact hall x hx
    · exact fits_atReset s.plat y.base
  · rcases mem_others_resetAt s b hx with hx | ⟨y, rfl⟩
    · exact hidle x hx
    · rfl

end fits

/-- Settles O54, by cases on what the step did: a write keeps the low AW bits, a part of a command keeps its working values
within their bounds and ends with RESULT and FADDR in range, and the focus changes only while nothing runs. -/
theorem stepKeepsRegistersAndCursor : Obligations.StepKeepsRegistersAndCursor := by
  intro s t hs h
  cases step_stepTo h with
  | part q hw hpart => exact hpart.fits hw hs
  | reset b q => exact fits_resetAt (s := { s with queue := q }) hs b
  | access hidle hf => exact hf.fits hidle hs
  | write k v hidle hf => exact fits_writeSlot (hf.fits hidle hs) k v
  | command k v hidle hf hrun => exact hrun.fits (fits_writeSlot (hf.fits hidle hs) k v)
  | setAdmits | declare => exact hs

/-! ## The parameters -/

/-- What keeps the host's side of a state keeps the IDP_BASEs. -/
theorem HostSideKept.bases {s t : State} (h : HostSideKept s t) : t.instances.map Inst.base = s.instances.map Inst.base := by
  obtain ⟨hb, -, -, -, -, ho, -⟩ := h
  simp only [State.instances, List.map_cons, hb, ho]

theorem HostSideKept.plat_eq {s t : State} (h : HostSideKept s t) : t.plat = s.plat := by
  obtain ⟨-, -, -, -, -, -, hp, -⟩ := h
  exact hp

theorem writeSlot_bases (s : State) (k : Nat) (v : BitVec 64) :
    (writeSlot s k v).instances.map Inst.base = s.instances.map Inst.base := by
  simp [State.instances, writeSlot]

/-- A step keeps the parameters; only the platform changes admission, and only the host's own action its declaration. -/
theorem StepTo.plat_cases {s t : State} (h : StepTo s t) :
    (t.plat = s.plat ∧ (t.instances.map Inst.base).Perm (s.instances.map Inst.base)) ∨
    (Idle s ∧ ∃ rs q, s.queue = .setAdmits rs :: q ∧
      t = { s with queue := q, plat := { s.plat with admits := rs } }) ∨
    (Idle s ∧ ∃ rs q, s.queue = .declare rs :: q ∧ t = { s with queue := q, plat := { s.plat with streams := rs } }) := by
  cases h with
  | part q _ h =>
    have hk := h.hostSideKept
    exact .inl ⟨hk.plat_eq, .of_eq hk.bases⟩
  | reset b q => exact .inl ⟨resetAt_plat _ b, .of_eq (resetAt_bases { s with queue := q } b)⟩
  | access _ hf => exact .inl ⟨hf.1, hf.2.map _⟩
  | write k v _ hf => exact .inl ⟨hf.1, (List.Perm.of_eq (writeSlot_bases _ k v)).trans (hf.2.map _)⟩
  | command k v _ hf hrun =>
    have hk := hrun.hostSideKept
    exact .inl ⟨hk.plat_eq.trans hf.1, (List.Perm.of_eq (hk.bases.trans (writeSlot_bases _ k v))).trans (hf.2.map _)⟩
  | setAdmits rs q hidle hq => exact .inr (.inl ⟨hidle, rs, q, hq, rfl⟩)
  | declare rs q hidle hq => exact .inr (.inr ⟨hidle, rs, q, hq, rfl⟩)

/-- Settles O56: every step but the platform's own action and the host's declaration keeps the whole platform, and these two
come only between commands. -/
theorem stepKeepsParameters : Obligations.StepKeepsParameters := by
  intro s t h
  rcases (step_stepTo h).plat_cases with ⟨hp, hb⟩ | ⟨hidle, rs, q, hq, rfl⟩ | ⟨hidle, rs, q, hq, rfl⟩
  · rw [hp]
    exact ⟨rfl, rfl, rfl, rfl, hb, fun hne => absurd rfl hne, fun hne => absurd rfl hne⟩
  · exact ⟨rfl, rfl, rfl, rfl, .refl _, fun _ => ⟨hidle, rs, q, hq, rfl⟩, fun hne => absurd rfl hne⟩
  · exact ⟨rfl, rfl, rfl, rfl, .refl _, fun hne => absurd rfl hne, fun _ => ⟨hidle, rs, q, hq, rfl⟩⟩

end Sys2Proof.Machine

end

section
/-! SUPPORT. What every instruction keeps and how every command ends (O34, O35, O37, O38), the progress of a running command
(O57), and the registers at reset (O42). -/

namespace Sys2Proof.Machine

/-- Settles O35: a command that has ended and a part of a running one keep the operands and the host's side. -/
theorem noInstructionChangesOperands : Obligations.NoInstructionChangesOperands := by
  intro i s t h
  rcases exec_next_cases h with h | ⟨w, -, h⟩ <;> exact h.hostSideKept

/-- Settles O37, by the ends of a command. -/
theorem commandOutcomeInStatus : Obligations.CommandOutcomeInStatus := by
  intro i s t hi h
  have hend := exec_commandEnd hi h
  exact ⟨hend.work_eq_none, hend.outcome⟩

/-- Settles O38: of the ends of a command and of a part of one only ACCESS_FAULT writes FADDR. -/
theorem faddrWrittenOnlyByAccessFault : Obligations.FaddrWrittenOnlyByAccessFault := by
  intro i s t h hne
  rcases exec_next_cases h with h | ⟨w, -, h⟩
  · exact ⟨h.faddr_eq_or_accessFault.resolve_left hne, h.work_eq_none⟩
  · exact h.faddr_eq_or_accessFault.resolve_left hne

/-- Settles O57: each part of a running command ends it or leaves less to do. -/
theorem runningCommandEnds : Obligations.RunningCommandEnds := by
  intro s w hw hq
  rcases step_running hw with ⟨q, e⟩ | ⟨b, q, hq', -⟩
  · obtain ⟨t, ht, hpart⟩ := advance_partEnd { s with queue := q } w
    refine ⟨t, e.trans ht, ?_⟩
    cases hpart with
    | ends h => exact .inl h.work_eq_none
    | goesOn m w' _ hl => exact .inr ⟨w', rfl, hl⟩
  · exact absurd hq' (hq b q)

/-- Settles O34, by the case distinction of the records. -/
theorem recordNeedsRunningCommand : Obligations.RecordNeedsRunningCommand := by
  rintro s i (rfl | rfl | rfl | rfl)
  · exact exec_ofTag_refused_iff .com s
  · exact exec_ofTag_refused_iff .s8 s
  · exact exec_ofTag_refused_iff .s16 s
  · exact exec_ofTag_refused_iff .s32 s

/-- Settles O42: the instance in focus at reset is `Inst.atReset`, whose registers are given as 0. -/
theorem resetRegistersAreZero : Obligations.ResetRegistersAreZero := by
  have hinst : State.reset.inst = Inst.atReset Config.referenceBase := rfl
  unfold Obligations.ResetRegistersAreZero
  rw [hinst]
  exact ⟨rfl, rfl, rfl, rfl, rfl, rfl, rfl, rfl⟩

end Sys2Proof.Machine

end

section
/-! SUPPORT. The outcome of a command depends on its inputs only (O41): two states with the same inputs pass the checks alike,
run alike and end alike. -/

namespace Sys2Proof.Machine

/-- The ends of one command from two states agree: memory, RESULT, STATUS, the counter of free values, and FADDR after
ACCESS_FAULT. -/
def SameOutcome (t t' : State) : Prop :=
  t'.mem = t.mem ∧ t'.inst.result = t.inst.result ∧ t'.inst.status = t.inst.status ∧ t'.draws = t.draws ∧
    (t.inst.status = 0x00000021#32 → t'.inst.faddr = t.inst.faddr)

/-- What the one answers as a next state, the other answers with the same outcome. -/
def SameAnswer (o o' : Host.Outcome State Fault Refusal) : Prop :=
  ∀ t, o = .next t → ∃ t', o' = .next t' ∧ SameOutcome t t'

/-- Both commands have ended at their checks, alike, or both run with the same working values. -/
inductive SameStart : Start → Start → Prop
  | ended {o o' : Host.Outcome State Fault Refusal} (h : SameAnswer o o') : SameStart (.ended o) (.ended o')
  | running (w : Work) : SameStart (.running w) (.running w)

theorem sameAnswer_next {t t' : State} (h : SameOutcome t t') : SameAnswer (.next t) (.next t') := by
  rintro _ ⟨⟩
  exact ⟨t', rfl, h⟩

theorem sameAnswer_refused (r : Refusal) (o : Host.Outcome State Fault Refusal) : SameAnswer (.refused r) o := by
  rintro _ ⟨⟩

/-- A command answers alike if it starts alike and, where it runs, runs alike. -/
theorem SameStart.sameAnswer {st st' : Start} (h : SameStart st st') {o o' : Host.Outcome State Fault Refusal}
    (hended : ∀ a, st = .ended a → o = a) (hended' : ∀ a, st' = .ended a → o' = a)
    (hrun : ∀ w, st = .running w → st' = .running w → SameAnswer o o') : SameAnswer o o' := by
  cases h with
  | ended h => rwa [hended _ rfl, hended' _ rfl]
  | running w => exact hrun w rfl rfl

section ends
variable {s s' : State}

theorem endOK_sameOutcome (hd : s.draws = s'.draws) (m : Memory) (r : Nat) :
    SameOutcome (endOK s m r) (endOK s' m r) :=
  ⟨rfl, rfl, rfl, hd.symm, fun h => absurd h (by decide : statusWord codeOK ≠ 0x00000021#32)⟩

theorem endFault_sameOutcome (hm : s.mem = s'.mem) (hd : s.draws = s'.draws) {e : Err}
    (he : statusWord e.code ≠ 0x00000021#32) : SameOutcome (endFault s e) (endFault s' e) :=
  ⟨hm.symm, rfl, rfl, hd.symm, fun h => absurd h he⟩

theorem endAccessFault_sameOutcome (hm : s.mem = s'.mem) (hd : s.draws = s'.draws) (a out len : Nat) :
    SameOutcome (endAccessFault s a out len) (endAccessFault s' a out len) := by
  simp [SameOutcome, hm, hd]

/-- The free choices of an overlapping command are those of the counter, which the two states share (log 8). -/
theorem overlapEnd_sameOutcome (h : SameInputs s s') (r : Ranges) : SameOutcome (overlapEnd s r) (overlapEnd s' r) := by
  obtain ⟨hm, hp, hd, hsrc, hdst, -, -⟩ := h
  simp only [overlapEnd, overlapFaddr, hp, hd, hsrc, hdst, hm]
  split
  · exact endAccessFault_sameOutcome (by rfl) (by rfl) _ _ _
  · exact endOK_sameOutcome (by rfl) _ _

theorem startCodec_sameStart (h : SameInputs s s') (r : Ranges) (w : Work) :
    SameStart (startCodec s r w) (startCodec s' r w) := by
  obtain ⟨hm, hp, hd, hsrc, hdst, hcount, hdev⟩ := id h
  have htouch : ∀ q, touchesDevice s q = touchesDevice s' q := fun q => by simp only [touchesDevice, hdev]
  simp only [startCodec, hp, hsrc, hdst, hcount, htouch]
  split_ifs
  · exact .ended (sameAnswer_next (endFault_sameOutcome hm hd (by decide)))
  · rw [hm]; exact .ended (sameAnswer_next (endOK_sameOutcome hd _ _))
  · exact .ended (sameAnswer_next (endFault_sameOutcome hm hd (by decide)))
  · exact .ended (sameAnswer_refused _ _)
  · exact .ended (sameAnswer_next (overlapEnd_sameOutcome h r))
  · exact .running w

theorem startEnc_sameStart (h : SameInputs s s') : SameStart (startEnc s) (startEnc s') := by
  obtain ⟨-, -, hd, hsrc, hdst, hcount, -⟩ := id h
  simp only [startEnc, hd, hsrc, hdst, hcount]
  exact startCodec_sameStart h _ _

theorem startDec_sameStart (h : SameInputs s s') : SameStart (startDec s) (startDec s') := by
  obtain ⟨-, -, hd, hsrc, hdst, hcount, -⟩ := id h
  simp only [startDec, hd, hsrc, hdst, hcount]
  exact startCodec_sameStart h _ _

theorem encEnd_sameOutcome (h : SameInputs s s') (w : Work) :
    SameOutcome (encEnd s w (encPasses s.plat s.mem w)) (encEnd s' w (encPasses s'.plat s'.mem w)) := by
  obtain ⟨hm, hp, hd, -⟩ := h
  rw [← hm, ← hp]
  cases encPasses s.plat s.mem w with
  | error a => exact endAccessFault_sameOutcome hm hd _ _ _
  | ok x => exact endOK_sameOutcome hd _ _

theorem decEnd_sameOutcome (h : SameInputs s s') (w : Work) :
    SameOutcome (decEnd s w (decLoop s.plat w.n s.mem w)) (decEnd s' w (decLoop s'.plat w.n s'.mem w)) := by
  obtain ⟨hm, hp, hd, -⟩ := h
  rw [← hm, ← hp]
  cases decLoop s.plat w.n s.mem w with
  | error a => exact endAccessFault_sameOutcome hm hd _ _ _
  | ok x => exact endOK_sameOutcome (congrArg (· + 1) hd) _ _

theorem exec_enc_sameAnswer {i : Instr} (hi : i = .encS ∨ i = .encU) (h : SameInputs s s') :
    SameAnswer (exec i s) (exec i s') := by
  refine (startEnc_sameStart h).sameAnswer (fun _ => exec_enc_of_ended hi) (fun _ => exec_enc_of_ended hi)
    fun w hs hs' => ?_
  rw [exec_enc_of_running hi hs, exec_enc_of_running hi hs']
  exact sameAnswer_next (encEnd_sameOutcome h w)

theorem exec_dec_sameAnswer {i : Instr} (hi : i = .decS ∨ i = .decU) (h : SameInputs s s') :
    SameAnswer (exec i s) (exec i s') := by
  refine (startDec_sameStart h).sameAnswer (fun _ => exec_dec_of_ended hi) (fun _ => exec_dec_of_ended hi)
    fun w hs hs' => ?_
  obtain ⟨hm, hp, hd, -⟩ := id h
  rw [exec_dec_of_running hi hs, exec_dec_of_running hi hs', ← hp, ← hm]
  cases readHeader s.plat s.mem w with
  | error a => exact sameAnswer_next (endAccessFault_sameOutcome hm hd _ _ _)
  | ok w' =>
    have hend := decEnd_sameOutcome h w'
    rw [← hp, ← hm] at hend
    exact sameAnswer_next hend

/-- A size depends on COUNT and NMAX alone (R116, R117). -/
theorem sizeQuery_sameAnswer (h : SameInputs s s') (size : Nat → Nat) :
    SameAnswer (sizeQuery size s) (sizeQuery size s') := by
  obtain ⟨hm, hp, hd, -, -, hcount, -⟩ := h
  simp only [sizeQuery, hp, hcount]
  split
  · exact sameAnswer_next (endFault_sameOutcome hm hd (by decide))
  · rw [hm]; exact sameAnswer_next (endOK_sameOutcome hd _ _)

end ends

/-- Settles O41: with the same inputs the checks and the passes of a command go alike, and so do its ends. -/
theorem outcomeDependsOnInputsOnly : Obligations.OutcomeDependsOnInputsOnly := by
  intro i s s' t hi h
  cases i with
  | encS => exact exec_enc_sameAnswer (.inl rfl) h t
  | encU => exact exec_enc_sameAnswer (.inr rfl) h t
  | decS => exact exec_dec_sameAnswer (.inl rfl) h t
  | decU => exact exec_dec_sameAnswer (.inr rfl) h t
  | szp | szw => exact sizeQuery_sameAnswer h _ t
  | tCom | tS8 | tS16 | tS32 => cases hi

end Sys2Proof.Machine

end

section
/-! SUPPORT. The element-by-element view of a command (log 11) runs the passes of the command, one part a step, and ends in the
state in which the command run in one step ends (O58). -/

namespace Sys2Proof.Machine

/-- In the middle of a command: memory and the working values have moved on, and nothing else. -/
def State.midway (s : State) (m : Memory) (w : Work) : State := ({ s with mem := m }).setWork w

section midway
variable (s : State) (m : Memory) (w : Work)
@[simp] theorem midway_mem : (s.midway m w).mem = m := rfl
@[simp] theorem midway_plat : (s.midway m w).plat = s.plat := rfl
@[simp] theorem midway_work : (s.midway m w).inst.work = some w := rfl
theorem midway_self : s.midway s.mem w = s.setWork w := rfl
end midway

/-- A step that answers a next state is the first of a run, of any machine. -/
theorem coreRun_succ {M : Host.Core} {s t : M.State} (h : M.step s = .next t) (k : Nat) : M.run (k + 1) s = M.run k t := by
  simp only [Host.Core.run, h]

/-- With no action pending, a step of a running command does one part. -/
theorem run_midway {s t : State} {m : Memory} {w : Work} (hq : s.queue = []) (h : advance (s.midway m w) w = .next t)
    (k : Nat) : core.run (k + 1) (s.midway m w) = core.run k t := by
  have hq' : (s.midway m w).queue = [] := hq
  have hstep : step (s.midway m w) = .next t := by simp only [step, midway_work, runningStep, hq', h]
  exact coreRun_succ (M := core) (s := s.midway m w) (t := t) hstep k

/-! ## The parts of ENC -/

theorem advance_hist {s : State} {m : Memory} {w w' : Work} (hp : w.pass = .hist) (hi : w.i < w.n)
    (h : histElem s.plat m w = .ok w') : advance (s.midway m w) w = .next (s.midway m w') := by
  simp only [advance, hp, if_pos hi, midway_plat, midway_mem, h]
  rfl

theorem advance_layout {s : State} {m m' : Memory} {w w' : Work} (hp : w.pass = .hist) (hi : w.i = w.n)
    (h : layout s.plat m w = .ok (m', w')) : advance (s.midway m w) w = .next (s.midway m' w') := by
  simp only [advance, hp, hi, Nat.lt_irrefl, if_false, midway_plat, midway_mem, h]
  rfl

theorem advance_emit {s : State} {m m' : Memory} {w w' : Work} (hp : w.pass = .emit) (hi : w.i < w.n)
    (h : emitElem s.plat m w = .ok (m', w')) : advance (s.midway m w) w = .next (s.midway m' w') := by
  unfold emitElem at h
  split at h
  · cases h
  · next v hf =>
    obtain ⟨⟨hp', hn', -⟩, hi', -⟩ := fetchDelta_ok hf
    have hlt : v.i < v.n := by omega
    simp only [advance, hp, if_pos hi, midway_plat, midway_mem, hf, runElement, exec_ofTag, execRecord, setWork_work,
      if_pos hlt, hp', setWork_plat, setWork_mem, h]
    rfl

theorem advance_endEnc {s : State} {m : Memory} {w : Work} (hp : w.pass = .emit) (hi : w.i = w.n) :
    advance (s.midway m w) w = .next (endOK s m (w.resCur - w.dst)) := by
  simp only [advance, hp, hi, Nat.lt_irrefl, if_false]
  rfl

/-! ## The parts of DEC -/

theorem advance_header {s : State} {m : Memory} {w w' : Work} (hp : w.pass = .header)
    (h : readHeader s.plat m w = .ok w') : advance (s.midway m w) w = .next (s.midway m w') := by
  simp only [advance, hp, midway_plat, midway_mem, h]
  rfl

theorem advance_dec {s : State} {m m' : Memory} {w w' : Work} (hp : w.pass = .dec) (hi : w.i < w.n)
    (h : decElem s.plat m w = .ok (m', w')) : advance (s.midway m w) w = .next (s.midway m' w') := by
  unfold decElem at h
  split at h
  · cases h
  · next v hf =>
    obtain ⟨⟨hp', hn', -⟩, hi', -⟩ := fetchTag_sameOperands hf
    have hlt : v.i < v.n := by omega
    simp only [advance, hp, if_pos hi, midway_plat, midway_mem, hf, runElement, exec_ofTag, execRecord, setWork_work,
      if_pos hlt, hp', setWork_plat, setWork_mem, h]
    rfl

theorem advance_endDec {s : State} {m : Memory} {w : Work} (hp : w.pass = .dec) (hi : w.i = w.n) :
    advance (s.midway m w) w = .next (endDec s m w.n) := by
  simp only [advance, hp, hi, Nat.lt_irrefl, if_false]
  rfl

/-! ## The passes -/

section passes
variable {s : State} (hq : s.queue = [])
include hq

/-- The histogram pass, one element a step. -/
theorem run_histLoop {m : Memory} {k : Nat} {w w' : Work} (hp : w.pass = .hist) (hi : w.i + k ≤ w.n)
    (h : histLoop s.plat m k w = .ok w') (j : Nat) : core.run (k + j) (s.midway m w) = core.run j (s.midway m w') := by
  induction k generalizing w with
  | zero => cases h; rw [Nat.zero_add]
  | succ k ih =>
    unfold histLoop at h
    split at h
    · cases h
    · next v he =>
      obtain ⟨⟨hp', hn', -⟩, hi'⟩ := histElem_ok he
      rw [Nat.add_right_comm, run_midway hq (advance_hist hp (by omega) he)]
      exact ih (hp'.trans hp) (by omega) h

/-- The emission pass, one element a step. -/
theorem run_emitLoop {k : Nat} {m m' : Memory} {w w' : Work} (hp : w.pass = .emit) (hi : w.i + k ≤ w.n)
    (h : emitLoop s.plat k m w = .ok (m', w')) (j : Nat) :
    core.run (k + j) (s.midway m w) = core.run j (s.midway m' w') := by
  induction k generalizing m w with
  | zero => cases h; rw [Nat.zero_add]
  | succ k ih =>
    unfold emitLoop at h
    split at h
    · cases h
    · next he =>
      obtain ⟨⟨hp', hn', -⟩, hi', -⟩ := emitElem_ok he
      rw [Nat.add_right_comm, run_midway hq (advance_emit hp (by omega) he)]
      exact ih (hp'.trans hp) (by omega) h

/-- The decode pass, one element a step. -/
theorem run_decLoop {k : Nat} {m m' : Memory} {w w' : Work} (hp : w.pass = .dec) (hi : w.i + k ≤ w.n)
    (h : decLoop s.plat k m w = .ok (m', w')) (j : Nat) :
    core.run (k + j) (s.midway m w) = core.run j (s.midway m' w') := by
  induction k generalizing m w with
  | zero => cases h; rw [Nat.zero_add]
  | succ k ih =>
    unfold decLoop at h
    split at h
    · cases h
    · next he =>
      obtain ⟨⟨hp', hn', -⟩, hi', -⟩ := decElem_ok he
      rw [Nat.add_right_comm, run_midway hq (advance_dec hp (by omega) he)]
      exact ih (hp'.trans hp) (by omega) h

/-- ENC that succeeds, element by element: the histogram pass, the layout, the emission pass and the end. -/
theorem run_encPasses {m' : Memory} {w w' : Work} (hp : w.pass = .hist) (hi : w.i = 0)
    (h : encPasses s.plat s.mem w = .ok (m', w')) :
    core.run w.left (s.setWork w) = .next (endOK s m' (w'.resCur - w'.dst)) := by
  unfold encPasses at h
  split at h
  · cases h
  · next w₁ hh =>
    obtain ⟨⟨hp₁, hn₁, -⟩, hi₁⟩ := histLoop_ok hh
    split at h
    · cases h
    · next m₂ w₂ hl =>
      obtain ⟨hp₂, hn₂, -, hd₂, hi₂, hr₂, -⟩ := layout_ok hl
      obtain ⟨⟨hp₃, hn₃, -⟩, hi₃, -⟩ := emitLoop_ok h (by rw [hr₂, hd₂, hn₂]) (by omega)
      have hleft : w.left = w.n + ((w₂.n + 1) + 1) := by rw [left_hist hp]; omega
      rw [hleft, ← midway_self, run_histLoop hq hp (by omega) hh, run_midway hq (advance_layout (hp₁.trans hp) (by omega) hl),
        run_emitLoop hq hp₂ (by omega) h, run_midway hq (advance_endEnc (hp₃.trans hp₂) (by omega))]
      rfl

/-- DEC that succeeds, element by element: the header read, the decode pass and the end. -/
theorem run_decPasses {m' : Memory} {w w₁ w' : Work} (hp : w.pass = .header) (hr : readHeader s.plat s.mem w = .ok w₁)
    (h : decLoop s.plat w₁.n s.mem w₁ = .ok (m', w')) :
    core.run w.left (s.setWork w) = .next (endDec s m' w'.n) := by
  obtain ⟨hp₁, hn₁, -, -, hi₁, -⟩ := readHeader_ok hr
  obtain ⟨⟨hp₂, hn₂, -⟩, hi₂, -⟩ := decLoop_ok h
  have hleft : w.left = (w₁.n + 1) + 1 := by rw [left_header hp]; omega
  rw [hleft, ← midway_self, run_midway hq (advance_header hp hr), run_decLoop hq hp₁ (by omega) h,
    run_midway hq (advance_endDec (hp₂.trans hp₁) (by omega))]
  rfl

/-- ENC, watched and run in one step. -/
theorem run_enc_agrees {t : State} {i : Instr} {w : Work} (hi : i = .encS ∨ i = .encU) (hst : startEnc s = .running w)
    (h : exec i s = .next t) (hok : t.inst.status = 0x00000001#32) : core.run w.left (s.setWork w) = .next t := by
  obtain ⟨rfl, -⟩ := startEnc_running hst
  rw [exec_enc_of_running hi hst] at h
  cases he : encPasses s.plat s.mem (encWork s) with
  | error a => rw [he] at h; cases h; cases hok
  | ok x =>
    obtain ⟨m, w'⟩ := x
    rw [he] at h
    cases h
    exact run_encPasses hq rfl rfl he

/-- DEC, watched and run in one step. -/
theorem run_dec_agrees {t : State} {i : Instr} {w : Work} (hi : i = .decS ∨ i = .decU) (hst : startDec s = .running w)
    (h : exec i s = .next t) (hok : t.inst.status = 0x00000001#32) : core.run w.left (s.setWork w) = .next t := by
  obtain ⟨rfl, -⟩ := startDec_running hst
  rw [exec_dec_of_running hi hst] at h
  cases hr : readHeader s.plat s.mem (decWork s) with
  | error a => rw [hr] at h; cases h; cases hok
  | ok w₁ =>
    rw [hr] at h
    cases he : decLoop s.plat w₁.n s.mem w₁ with
    | error a => simp only [he] at h; cases h; cases hok
    | ok x =>
      obtain ⟨m, w'⟩ := x
      simp only [he] at h
      cases h
      exact run_decPasses hq rfl hr he

end passes

/-- Settles O58: the steps of the watched command are the elements of the passes that the command in one step loops over. -/
theorem steppedCommandAgrees : Obligations.SteppedCommandAgrees := by
  intro s t i w hi hq hst h hok
  cases i with
  | encS => exact run_enc_agrees hq (.inl rfl) hst h hok
  | encU => exact run_enc_agrees hq (.inr rfl) hst h hok
  | decS => exact run_dec_agrees hq (.inl rfl) hst h hok
  | decU => exact run_dec_agrees hq (.inr rfl) hst h hok
  | szp | szw | tCom | tS8 | tS16 | tS32 => cases hi

end Sys2Proof.Machine

end

section
/-! SUPPORT. The host's register accesses, of the instance in focus and of another, said once for a read and once for a write
(O45, O46, O47, O49), and its accesses of bytes (O48). -/

namespace Sys2Proof.Machine

/-! ## Which register an address names -/

theorem slotOf_mul (k : Nat) : slotOf (8 * k) = some k := by
  rw [slotOf, if_pos (by omega), Nat.mul_div_cancel_left _ (by decide)]

/-- R29: every offset in the last slot names it. -/
theorem slotOf_unnamed {j : Nat} (h : 56 ≤ j) (hj : j < 64) : slotOf j = some 7 := by
  unfold slotOf
  split_ifs
  · rw [show j / 8 = 7 by omega]
  · rfl

/-- The host accesses offset `j` in the register block of an instance, in focus or not; `u` is the state with that instance in
focus (R39; log 12). -/
def Accesses (s u : State) (j : Nat) : Prop := u = s ∨ BroughtIntoFocus s u (u.inst.base + j)

theorem block_has_iff {x : Inst} {a : Nat} : x.block.has a = true ↔ x.base ≤ a ∧ a < x.base + 64 := by
  simp only [Region.has, Bool.and_eq_true, decide_eq_true_eq]
  rfl

section Accesses
variable {s u : State} {j k : Nat}

/-- Which instance comes into focus does not depend on what the host does next. -/
theorem Accesses.withQueue (h : Accesses s u j) (q : List HostAction) :
    Accesses { s with queue := q } { u with queue := q } j := by
  rcases h with rfl | ⟨xs, y, ys, ho, hx, hy, rfl⟩
  · exact .inl rfl
  · exact .inr ⟨xs, y, ys, ho, hx, hy, rfl⟩

theorem Accesses.plat_eq (h : Accesses s u j) : u.plat = s.plat := by
  rcases h with rfl | ⟨xs, y, ys, -, -, -, rfl⟩ <;> rfl

theorem Accesses.faultLog_eq (h : Accesses s u j) : u.faultLog = s.faultLog := by
  rcases h with rfl | ⟨xs, y, ys, -, -, -, rfl⟩ <;> rfl

/-- The access finds its instance and its slot (R21, R39). -/
theorem Accesses.locate (h : Accesses s u j) (hj : j < 64) (hk : slotOf j = some k) :
    locate s (u.inst.base + j) = .ok (u, k) := by
  rcases h with rfl | h
  · have hb : u.inst.block.has (u.inst.base + j) = true := block_has_iff.mpr ⟨by omega, by omega⟩
    simp only [Machine.locate, focusOn, hb, if_true, Nat.add_sub_cancel_left, hk]
  · rw [locate_other h, hk]

/-- A write to a slot stores its value there; at CMD the command of the word runs (R22 to R25, R29). -/
theorem step_regWrite_accesses (hidle : Idle s) (h : Accesses s u j) (hj : j < 64) (hk : slotOf j = some k)
    {v : BitVec 64} {q : List HostAction} (hq : s.queue = .regWrite (u.inst.base + j) v :: q) :
    step s = if k = cmdSlot then runCommand (writeSlot { u with queue := q } k v)
      else .next (writeSlot { u with queue := q } k v) := by
  have hl := (h.withQueue q).locate hj hk
  rw [step_of_queue hidle hq]
  simp only [hostStep, hostWrite, hl]

/-- A read returns what stands in the slot and changes nothing but the focus and what the host has read (R22, R29). -/
theorem step_regRead_accesses (hidle : Idle s) (h : Accesses s u j) (hj : j < 64) (hk : slotOf j = some k)
    {q : List HostAction} (hq : s.queue = .regRead (u.inst.base + j) :: q) :
    step s = .next { u with queue := q, hostIn := u.inst.regRead k } := by
  have hl := (h.withQueue q).locate hj hk
  rw [step_of_queue hidle hq]
  simp only [hostStep, hostRead, hl]

/-- R23 to R25, R29: below CMD only SRC, DST and COUNT can be written, and hold AW bits. -/
theorem regWrite_of_pos (p : Platform) (x : Inst) (h : 0 < k) (v : BitVec 64) :
    x.regWrite p k v = { x with
      src := if k = 1 then BitVec.ofNat 64 (v.toNat % 2 ^ p.aw) else x.src
      dst := if k = 2 then BitVec.ofNat 64 (v.toNat % 2 ^ p.aw) else x.dst
      count := if k = 3 then BitVec.ofNat 64 (v.toNat % 2 ^ p.aw) else x.count } := by
  rcases (by omega : k = 1 ∨ k = 2 ∨ k = 3 ∨ 3 < k) with rfl | rfl | rfl | hk
  · rfl
  · rfl
  · rfl
  · have h₁ : k ≠ 1 := by omega
    have h₂ : k ≠ 2 := by omega
    have h₃ : k ≠ 3 := by omega
    simp only [Inst.regWrite, Nat.ne_of_gt h, h₁, h₂, h₃, if_false]

/-- A write to slots 1 to 7 (R23 to R25, R29). -/
theorem step_operandWrite (hidle : Idle s) (h : Accesses s u (8 * k)) (h₀ : 0 < k) (hk : k < 8) {v : BitVec 64}
    {q : List HostAction} (hq : s.queue = .regWrite (u.inst.base + 8 * k) v :: q) :
    step s = .next { u with
      queue := q
      inst := { u.inst with
        src := if k = 1 then BitVec.ofNat 64 (v.toNat % 2 ^ s.plat.aw) else u.inst.src
        dst := if k = 2 then BitVec.ofNat 64 (v.toNat % 2 ^ s.plat.aw) else u.inst.dst
        count := if k = 3 then BitVec.ofNat 64 (v.toNat % 2 ^ s.plat.aw) else u.inst.count } } := by
  rw [step_regWrite_accesses hidle h (by omega) (slotOf_mul k) hq, if_neg (Nat.ne_of_gt h₀ : k ≠ cmdSlot), ← h.plat_eq]
  simp only [writeSlot, regWrite_of_pos _ _ h₀]

/-- A write to the slot that has no register is ignored (R29). -/
theorem step_unnamedWrite (hidle : Idle s) (h : Accesses s u j) (h₁ : 56 ≤ j) (h₂ : j < 64) {v : BitVec 64}
    {q : List HostAction} (hq : s.queue = .regWrite (u.inst.base + j) v :: q) : step s = .next { u with queue := q } := by
  rw [step_regWrite_accesses hidle h h₂ (slotOf_unnamed h₁ h₂) hq, if_neg (by decide)]
  rfl

/-- A write to CMD stores the word and runs its command (R22, R233). -/
theorem step_commandWrite (hidle : Idle s) (h : Accesses s u 0) {v : BitVec 64} {q : List HostAction}
    (hq : s.queue = .regWrite u.inst.base v :: q) :
    step s = runCommand { u with queue := q, inst := { u.inst with cmd := v.setWidth 32 } } :=
  step_regWrite_accesses (k := 0) hidle h (by decide) rfl hq

end Accesses

theorem runCommand_of_decode {s : State} {i : Instr} (h : decodeCommand s.inst.cmd = .ok i) : runCommand s = exec i s := by
  simp only [runCommand, h]

theorem runCommand_of_illegal {s : State} {e : DecodeError} (h : decodeCommand s.inst.cmd = .error e) :
    runCommand s = .next (endFault s .illegalCmd) := by
  simp only [runCommand, h]

/-- Settles O45: the instance in focus is the one accessed. -/
theorem registerWritesStoreLowBits : Obligations.RegisterWritesStoreLowBits := by
  intro s q v hidle
  exact ⟨fun k h₀ hk hq => step_operandWrite hidle (.inl rfl) h₀ hk hq,
    fun j h₁ h₂ hq => step_unnamedWrite hidle (.inl rfl) h₁ h₂ hq⟩

/-- Settles O46: an access finds its slot, whichever instance it brings into focus. -/
theorem registerReadsReturnSlot : Obligations.RegisterReadsReturnSlot := by
  intro s u q j hidle hu hq
  constructor
  · rintro k hk rfl
    rw [step_regRead_accesses hidle hu (by omega) (slotOf_mul k) hq]
    interval_cases k <;> rfl
  · intro h₁ h₂
    exact step_regRead_accesses hidle hu h₂ (slotOf_unnamed h₁ h₂) hq

/-- Settles O47: the writes of O45 and the runs of a command, on the instance that comes into focus. -/
theorem otherInstanceRegisterWrite : Obligations.OtherInstanceRegisterWrite := by
  intro s u q v j hidle hu hq
  have ha : Accesses s u j := .inr hu
  refine ⟨?_, fun h₁ h₂ => step_unnamedWrite hidle ha h₁ h₂ hq, ?_, ?_⟩
  · rintro k h₀ hk rfl
    exact step_operandWrite hidle ha h₀ hk hq
  · rintro i rfl hd
    rw [step_commandWrite hidle ha hq]
    exact runCommand_of_decode hd
  · rintro e rfl hd
    rw [step_commandWrite hidle ha hq, runCommand_of_illegal hd, ← ha.faultLog_eq]
    rfl

/-- Settles O49: the write to CMD stores the word, which decodes to the instruction. -/
theorem cmdWriteRunsCommand : Obligations.CmdWriteRunsCommand := by
  intro s q v i hidle hq hd
  rw [step_commandWrite hidle (.inl rfl) hq]
  exact runCommand_of_decode hd

/-! ## Bytes -/

theorem byte_meets (r : Region) (a : Nat) : (Region.mk a 1).meets r = r.has a := by
  rw [Bool.eq_iff_iff]
  simp only [Region.meets, Region.has, decide_eq_true_eq, Bool.and_eq_true]
  omega

/-- A byte is ordinary memory when no register block and no device holds it. -/
theorem touchesDevice_byte (s : State) (a : Nat) : touchesDevice s ⟨a, 1⟩ = false ↔
    (∀ x ∈ s.instances, x.block.has a = false) ∧ ∀ r ∈ s.plat.devices, r.has a = false := by
  simp [touchesDevice, deviceRegions, byte_meets, State.instances, or_imp, forall_and, and_assoc]

section byteAt
variable {s : State} {a : Nat}

theorem byteAt_withQueue (q : List HostAction) : byteAt { s with queue := q } a = byteAt s a := rfl

theorem byteAt_absent (h : 2 ^ s.plat.aw ≤ a) : byteAt s a = .absent := if_pos h

/-- A byte of a register block: a register up to offset 55, the unnamed slot from there on (R29). -/
theorem byteAt_block (h : a < 2 ^ s.plat.aw) {x : Inst} (hx : s.instances.find? (fun y => y.block.has a) = some x) :
    byteAt s a = if 56 ≤ a - x.base then .unnamed else .register := by
  have hx' : (s.inst :: s.others).find? (fun y => y.block.has a) = some x := hx
  rw [byteAt, if_neg (Nat.not_le.mpr h), hx']

theorem byteAt_outside (h : a < 2 ^ s.plat.aw) (hx : ∀ x ∈ s.instances, x.block.has a = false) :
    byteAt s a = if s.plat.devices.any (fun r => r.has a) then .device else .ordinary := by
  have hx' : (s.inst :: s.others).find? (fun y => y.block.has a) = none :=
    List.find?_eq_none.mpr fun x hm => by simp [hx x hm]
  rw [byteAt, if_neg (Nat.not_le.mpr h), hx']

theorem byteAt_device (h : a < 2 ^ s.plat.aw) (hx : ∀ x ∈ s.instances, x.block.has a = false)
    (hd : ∃ r ∈ s.plat.devices, r.has a = true) : byteAt s a = .device := by
  rw [byteAt_outside h hx, if_pos (List.any_eq_true.mpr hd)]

theorem byteAt_ordinary (h : a < 2 ^ s.plat.aw) (ht : touchesDevice s ⟨a, 1⟩ = false) : byteAt s a = .ordinary := by
  obtain ⟨hx, hd⟩ := (touchesDevice_byte s a).mp ht
  rw [byteAt_outside h hx, if_neg (by simpa using hd)]

end byteAt

section hostBytes
variable {s : State} {a : Nat} {b : Byte} {q : List HostAction}

theorem step_byteAccess_absent (hidle : Idle s) (hb : byteAt s a = .absent)
    (hq : s.queue = .store a b :: q ∨ s.queue = .load a :: q) : step s = .fault (.noSuchAddress a) := by
  rcases hq with hq | hq <;> rw [step_of_queue hidle hq] <;>
    simp only [hostStep, hostStore, hostLoad, byteAt_withQueue, hb]

theorem step_byteAccess_register (hidle : Idle s) (hb : byteAt s a = .register)
    (hq : s.queue = .store a b :: q ∨ s.queue = .load a :: q) : step s = .refused (.partialAccess a) := by
  rcases hq with hq | hq <;> rw [step_of_queue hidle hq] <;>
    simp only [hostStep, hostStore, hostLoad, byteAt_withQueue, hb]

/-- A store to the unnamed slot or to a device changes nothing of the machine (R29; log 15). -/
theorem step_store_ignored (hidle : Idle s) (hb : byteAt s a = .unnamed ∨ byteAt s a = .device)
    (hq : s.queue = .store a b :: q) : step s = .next { s with queue := q } := by
  rw [step_of_queue hidle hq]
  rcases hb with hb | hb <;> simp only [hostStep, hostStore, byteAt_withQueue, hb]

theorem step_load_unnamed (hidle : Idle s) (hb : byteAt s a = .unnamed) (hq : s.queue = .load a :: q) :
    step s = .next { s with queue := q, hostIn := 0#64 } := by
  rw [step_of_queue hidle hq]
  simp only [hostStep, hostLoad, byteAt_withQueue, hb]
  rfl

/-- A device answers with a free byte (log 15). -/
theorem step_load_device (hidle : Idle s) (hb : byteAt s a = .device) (hq : s.queue = .load a :: q) :
    step s = .next
      { s with queue := q, hostIn := (Config.freeByte s.draws).setWidth 64, draws := s.draws + 1 } := by
  rw [step_of_queue hidle hq]
  simp only [hostStep, hostLoad, byteAt_withQueue, hb]

theorem step_store_ordinary (hidle : Idle s) (hb : byteAt s a = .ordinary) (hq : s.queue = .store a b :: q) :
    step s = .next { s with queue := q, mem := s.mem.write a b } := by
  rw [step_of_queue hidle hq]
  simp only [hostStep, hostStore, byteAt_withQueue, hb]

theorem step_load_ordinary (hidle : Idle s) (hb : byteAt s a = .ordinary) (hq : s.queue = .load a :: q) :
    step s = .next { s with queue := q, hostIn := (s.mem.read a).setWidth 64 } := by
  rw [step_of_queue hidle hq]
  simp only [hostStep, hostLoad, byteAt_withQueue, hb]

end hostBytes

/-- Settles O48: each clause fixes the kind of the byte, and the kind the answer. -/
theorem hostByteAccess : Obligations.HostByteAccess := by
  intro s q a b hidle
  refine ⟨fun hq h => step_byteAccess_absent hidle (byteAt_absent h) hq, fun ha => ⟨fun ht => ?_, fun x hx => ?_,
    fun hx hd => ?_⟩⟩
  · have hb := byteAt_ordinary ha ht
    exact ⟨step_store_ordinary hidle hb, step_load_ordinary hidle hb⟩
  · have hb := byteAt_block ha hx
    obtain ⟨hbase, -⟩ := block_has_iff.mp (List.find?_some (p := fun y : Inst => y.block.has a) hx)
    constructor
    · intro h
      rw [if_neg (by omega)] at hb
      exact step_byteAccess_register hidle hb
    · intro h
      rw [if_pos (by omega)] at hb
      exact ⟨step_store_ignored hidle (.inl hb), step_load_unnamed hidle hb⟩
  · have hb := byteAt_device ha hx hd
    exact ⟨step_store_ignored hidle (.inr hb), fun hq => ⟨_, step_load_device hidle hb hq⟩⟩

end Sys2Proof.Machine

end

section
/-! SUPPORT. What an instruction does to memory, said once: a byte outside its output range keeps its value, and the canonical
form is kept. The frame over all instructions (O36), the refused bytes of the codec commands (O39, O40, O59), and their refused
ranges (O26) follow. -/

namespace Sys2Proof.Machine

/-! ## Memory before and after -/

theorem within_true_iff {base len a : Nat} : within base len a = true ↔ base ≤ a ∧ a < base + len := by
  simp [within, Region.has]

theorem within_false_iff {base len a : Nat} : within base len a = false ↔ a < base ∨ base + len ≤ a := by
  rw [← Bool.not_eq_true, within_true_iff]
  omega

/-- Memory changes from `m` to `m'` in canonical form and, under the condition `bounded`, only where `may` holds. -/
structure Confined (bounded : Prop) (may : Nat → Bool) (m m' : Memory) : Prop where
  wf : m.wf = true → m'.wf = true
  frame : bounded → ∀ a, may a = false → m'.read a = m.read a

theorem Confined.refl (b : Prop) (may : Nat → Bool) (m : Memory) : Confined b may m m := ⟨id, fun _ _ _ => rfl⟩

/-- Unspecified bytes in a range (R237). -/
theorem Confined.havoc (b : Prop) (m : Memory) (out len k : Nat) : Confined b (within out len) m (m.havoc out len k) :=
  ⟨fun hm => wf_havoc hm out len k, fun _ _ ha => read_havoc_other m out len k (within_false_iff.mp ha)⟩

/-! ## ENC and DEC -/

/-- The output range of a codec command. -/
abbrev codecMay (i : Instr) (s : State) : Nat → Bool :=
  within s.inst.dst.toNat (rangesOf i s.inst.count.toNat).outLen

/-- The address lies in the input or in the output range of a codec command. -/
def InRanges (i : Instr) (s : State) (a : Nat) : Prop :=
  s.inst.src.toNat ≤ a ∧ a < s.inst.src.toNat + (rangesOf i s.inst.count.toNat).inLen ∨
    s.inst.dst.toNat ≤ a ∧ a < s.inst.dst.toNat + (rangesOf i s.inst.count.toNat).outLen

/-- The ends of ENC and DEC and what each has done to memory: a failed check, success, or ACCESS_FAULT at a refused byte of the
ranges. -/
inductive CodecEnd (i : Instr) (s : State) : State → Prop
  | badCount : CodecEnd i s (endFault s .badCount)
  | badRange : CodecEnd i s (endFault s .badRange)
  | success (m : Memory) (res d : Nat) (hm : Confined True (codecMay i s) s.mem m) :
      CodecEnd i s (endOK { s with draws := d } m res)
  | accessFault (a d : Nat) (hl : OperandsLegal i s) (ha : admits s.plat a = false) (hr : InRanges i s a) :
      CodecEnd i s (endAccessFault { s with draws := d } a s.inst.dst.toNat (rangesOf i s.inst.count.toNat).outLen)

theorem exec_codec_codecEnd {i : Instr} {s t : State} (hi : isCodec i = true) (h : exec i s = .next t) :
    CodecEnd i s t := by
  rcases exec_codec_cases s i hi with ⟨-, e⟩ | ⟨-, e⟩ | ⟨-, -, -, e⟩ | ⟨-, -, e⟩ | ⟨hl, -, -, e⟩ | ⟨hl, -, -, hr⟩
  · rw [e] at h; cases h; exact .badCount
  · rw [e] at h; cases h; exact .success s.mem 0 s.draws (.refl _ _ _)
  · rw [e] at h; cases h; exact .badRange
  · rw [e] at h; cases h
  · rw [e] at h
    obtain ⟨hin, hout, hsi, hso, hlo⟩ := rangesOf_ordered i hl.1
    rcases overlapEnd_cases s _ hin hout hsi hso hlo with ⟨a, ha, hr, he⟩ | ⟨res, -, -, he⟩ <;> rw [he] at h <;> cases h
    · exact .accessFault a _ hl ha hr
    · exact .success _ res _ (.havoc _ _ _ _ _)
  · rcases hr with ⟨a, ha, hr, e⟩ | ⟨m, res, d, -, -, -, hwf, hframe, e⟩ <;> rw [e] at h <;> cases h
    · exact .accessFault a s.draws hl ha hr
    · exact .success m res d ⟨hwf, fun _ a ha => hframe a (within_false_iff.mp ha)⟩

theorem CodecEnd.confined {i : Instr} {s t : State} (h : CodecEnd i s t) : Confined True (codecMay i s) s.mem t.mem := by
  cases h with
  | badCount | badRange => exact .refl _ _ _
  | success m res d hm => exact hm
  | accessFault => exact .havoc _ _ _ _ _

/-- R237: of the ends only ACCESS_FAULT has STATUS 0x21, and FADDR then names a refused byte of the ranges. -/
theorem CodecEnd.refused_of_status {i : Instr} {s t : State} (h : CodecEnd i s t) (hst : t.inst.status = 0x00000021#32) :
    ∃ a, OperandsLegal i s ∧ admits s.plat a = false ∧ InRanges i s a ∧ t.inst.faddr = BitVec.ofNat 64 a := by
  cases h with
  | badCount | badRange => rw [endFault_status] at hst; exact absurd hst (by decide)
  | success => rw [endOK_status] at hst; exact absurd hst (by decide)
  | accessFault a d hl ha hr => exact ⟨a, hl, ha, hr, rfl⟩

/-- R5, R21: an address of AW bits fits the 64-bit slot of a register. -/
theorem two_pow_aw_le {p : Platform} (hp : p.wellFormed = true) : 2 ^ p.aw ≤ 2 ^ 64 := by
  simp only [Platform.wellFormed, Bool.and_eq_true, decide_eq_true_eq] at hp
  exact Nat.pow_le_pow_right (by decide) hp.1.2

/-- Settles O26: of the answers of ENC and DEC to legal operands one is a refusal, and its case is that of a range that is not
ordinary. -/
theorem deviceRangesRefused : Obligations.DeviceRangesRefused := by
  intro s i hi hl
  obtain ⟨hn, hmax, -⟩ := id hl
  have hnext : ∀ t, exec i s = .next t → RangesOrdinary i s →
      (exec i s = .refused .deviceRange ↔ ¬ RangesOrdinary i s) ∧ ∀ r, exec i s = .refused r → r = .deviceRange := by
    intro t e ho
    simp [e, ho]
  rcases exec_codec_cases s i hi with ⟨h, -⟩ | ⟨h, -⟩ | ⟨-, -, h, -⟩ | ⟨-, ho, e⟩ | ⟨-, ho, -, e⟩ | ⟨-, ho, -, hr⟩
  · exact absurd hmax (Nat.not_le.mpr h)
  · exact absurd h hn.ne'
  · exact absurd hl h
  · exact ⟨iff_of_true e ho, fun r hr => by rw [e] at hr; cases hr; rfl⟩
  · exact hnext _ e ho
  · rcases hr with ⟨a, -, -, e⟩ | ⟨m, res, d, -, -, -, -, -, e⟩
    · exact hnext _ e ho
    · exact hnext _ e ho

/-- Settles O39: the refused byte is below 2^AW, so FADDR holds it unchanged. -/
theorem accessFaultNamesRefusedByte : Obligations.AccessFaultNamesRefusedByte := by
  intro i s t hi hp h hst
  obtain ⟨a, hl, ha, hr, hf⟩ := (exec_codec_codecEnd hi h).refused_of_status hst
  have hlt : a < 2 ^ s.plat.aw := lt_of_refused_in_ranges hl hr
  have haw := two_pow_aw_le hp
  have hfaddr : t.inst.faddr.toNat = a := by rw [hf, BitVec.toNat_ofNat, Nat.mod_eq_of_lt (by omega)]
  rw [hfaddr]
  exact ⟨ha, hr.imp within_true_iff.mpr within_true_iff.mpr⟩

/-- Settles O40: ACCESS_FAULT has a refused byte in the ranges, and there is none. -/
theorem admittedRangesNeverFault : Obligations.AdmittedRangesNeverFault := by
  rintro i s t hi ⟨hin, hout⟩ h hst
  obtain ⟨a, -, ha, hr, -⟩ := (exec_codec_codecEnd hi h).refused_of_status hst
  have hadm : admits s.plat a = true := hr.elim (fun hr => hin a hr.1 hr.2) fun hr => hout a hr.1 hr.2
  rw [ha] at hadm
  cases hadm

/-- Settles O59: a surely touched byte that is refused ends the command in ACCESS_FAULT, which draws the bytes of the output
range alone. -/
theorem refusedSureByteFaults : Obligations.RefusedSureByteFaults := by
  intro s i hi hl ho hd hb
  have hsure : someByteRefused s.plat s.inst.src.toNat (rangesOf i s.inst.count.toNat).sureIn ∨
      someByteRefused s.plat s.inst.dst.toNat (rangesOf i s.inst.count.toNat).sureOut := by
    cases i with
    | encS | encU | decS | decU => exact hb
    | szp | szw | tCom | tS8 | tS16 | tS32 => cases hi
  obtain ⟨a, ha, hr, e⟩ := exec_codec_refused hi hl ho hd hsure
  refine ⟨_, e, ⟨rfl, rfl, rfl, rfl, ⟨rfl, rfl, rfl, rfl, rfl, rfl, rfl, rfl, rfl⟩, a, ?_, ha, rfl⟩, fun c hc => ?_⟩
  · rw [Bool.or_eq_true]
    exact hr.imp within_true_iff.mpr within_true_iff.mpr
  · exact read_havoc_other _ _ _ _ (within_false_iff.mp hc)

/-! ## The sizing commands and the records -/

theorem sizeQuery_mem {size : Nat → Nat} {s t : State} (h : sizeQuery size s = .next t) : t.mem = s.mem := by
  unfold sizeQuery at h
  split at h <;> cases h <;> rfl

/-- A part of a running command that ends in ACCESS_FAULT draws the bytes of its output range; one that succeeds leaves its own
memory. -/
theorem afterRecord_confined {s : State} {w : Work} {b : Prop} {x : Except Nat (Memory × Work)}
    (hok : ∀ m w', x = .ok (m, w') → Confined b (within w.dst w.outLen) s.mem m) :
    Confined b (within w.dst w.outLen) s.mem (afterRecord s w x).mem := by
  cases x with
  | error a => exact .havoc _ _ _ _ _
  | ok y => exact hok y.1 y.2 rfl

/-- A record executed in the decode pass writes its output word, which is in the output range (R196). -/
theorem decRecord_confined {s : State} {w : Work} (t : Tag) (hp : w.pass = .dec) (hi : w.i < w.n) :
    Confined (w.inBounds s.plat = true) (within w.dst w.outLen) s.mem
      (afterRecord s w (decRecord (unpackOf t) s.plat s.mem w)).mem := by
  refine afterRecord_confined fun m w' he => ?_
  obtain ⟨-, -, -, hwf, hframe⟩ := decRecord_ok he
  refine ⟨hwf, fun _ a ha => hframe a ?_⟩
  have hout : w.outLen = 4 * w.n := by simp [Work.outLen, hp]
  rw [within_false_iff, hout] at ha
  omega

/-- A record packed in the emission pass writes its payload and the tag byte, which are in the output range (R176). -/
theorem emitRecord_confined {s : State} {w : Work} (t : Tag) (hp : w.pass = .emit) (hi : w.i < w.n) :
    Confined (w.inBounds s.plat = true) (within w.dst w.outLen) s.mem
      (afterRecord s w (emitRecord (packOf t) s.plat s.mem w)).mem := by
  refine afterRecord_confined fun m w' he => ?_
  obtain ⟨-, -, -, hwf, hframe⟩ := emitRecord_ok he
  refine ⟨hwf, fun hb a ha => ?_⟩
  obtain ⟨hn, -, -, -, -, hlo, hhi⟩ := (inBounds_emit hp).mp hb
  have hlen := resLen_le t
  have htag : w.i / 4 < tagBytes w.n := by unfold tagBytes; omega
  have hout : w.outLen = 4 + tagBytes w.n + 4 * w.n := by simp [Work.outLen, hp, maxPrecodedSize_pos hn]
  rw [within_false_iff, hout] at ha
  exact hframe a (by omega) (by omega)

/-- A record changes memory only in the output range of the running command. -/
theorem exec_ofTag_confined {tag : Tag} {s t : State} (h : exec (Instr.ofTag tag) s = .next t) :
    ∃ w, s.inst.work = some w ∧ Confined (w.inBounds s.plat = true) (within w.dst w.outLen) s.mem t.mem := by
  rw [exec_ofTag] at h
  obtain ⟨e, -⟩ | ⟨w, hw, hi, ⟨hp, e⟩ | ⟨hp, e⟩⟩ := execRecord_cases tag s <;> rw [e] at h <;> cases h
  · exact ⟨w, hw, decRecord_confined tag hp hi⟩
  · exact ⟨w, hw, emitRecord_confined tag hp hi⟩

/-! ## Every instruction -/

theorem mayWrite_codec {i : Instr} (hi : isCodec i = true) (s : State) : mayWrite i s = codecMay i s := by
  cases i with
  | encS | encU | decS | decU => rfl
  | szp | szw | tCom | tS8 | tS16 | tS32 => cases hi

theorem mayWrite_ofTag (tag : Tag) {s : State} {w : Work} (hw : s.inst.work = some w) :
    mayWrite (Instr.ofTag tag) s = within w.dst w.outLen := by
  funext a
  cases tag <;> simp only [Instr.ofTag, mayWrite, hw]

theorem isCodec_or_sizing {i : Instr} (hi : isCommand i = true) : isCodec i = true ∨ i = .szp ∨ i = .szw := by
  cases i with
  | encS | encU | decS | decU => exact .inl rfl
  | szp => exact .inr (.inl rfl)
  | szw => exact .inr (.inr rfl)
  | tCom | tS8 | tS16 | tS32 => cases hi

/-- A command that answers a next state has written at most its output range; the sizing commands have none (R52). -/
theorem exec_command_confined {i : Instr} {s t : State} (hi : isCommand i = true) (h : exec i s = .next t) :
    Confined True (mayWrite i s) s.mem t.mem := by
  rcases isCodec_or_sizing hi with hi | hi
  · rw [mayWrite_codec hi]
    exact (exec_codec_codecEnd hi h).confined
  · have hm : t.mem = s.mem := by rcases hi with rfl | rfl <;> exact sizeQuery_mem h
    rw [hm]
    exact .refl _ _ _

/-- Whatever it answers, an instruction keeps the canonical form and, in a state that fits, every byte outside its output
range. -/
theorem exec_confined {i : Instr} {s t : State} (h : exec i s = .next t) :
    Confined (s.fits = true) (mayWrite i s) s.mem t.mem := by
  rcases isCommand_or_ofTag i with hi | ⟨tag, rfl⟩
  · have hc := exec_command_confined hi h
    exact ⟨hc.wf, fun _ => hc.frame trivial⟩
  · obtain ⟨w, hw, hc⟩ := exec_ofTag_confined h
    rw [mayWrite_ofTag tag hw]
    refine ⟨hc.wf, fun hs => hc.frame ?_⟩
    obtain ⟨-, -, -, -, -, hin⟩ := (inst_fits_iff _ _).mp (inst_fits_of_fits hs)
    exact hin w hw

/-- Settles O36: in a state that fits, the running command is within its bounds, and so are the bytes its records write. -/
theorem noInstructionWritesOutsideOutput : Obligations.NoInstructionWritesOutsideOutput :=
  fun _ _ _ a hs h ha => (exec_confined h).frame hs a ha

end Sys2Proof.Machine

end

section
/-! SUPPORT. Every step keeps memory in its canonical form (O52): each part of a running command, each action of the host. -/

namespace Sys2Proof.Machine

section canonical
variable {s t u : State} {w : Work}

/-! ## A part of a running command -/

theorem wf_afterPart (hs : s.mem.wf = true) (x : Except Nat Work) : (afterPart s w x).mem.wf = true := by
  cases x with
  | error a => exact wf_havoc hs _ _ _
  | ok w' => exact hs

theorem wf_of_runElement (hs : s.mem.wf = true) {x : Except Nat Work} (h : runElement s w x = .next t) :
    t.mem.wf = true := by
  cases x with
  | error a => cases h; exact wf_havoc hs _ _ _
  | ok w' => exact (exec_confined h).wf hs

theorem wf_afterRecord_layout (hs : s.mem.wf = true) : (afterRecord s w (layout s.plat s.mem w)).mem.wf = true := by
  cases he : layout s.plat s.mem w with
  | error a => exact wf_havoc hs _ _ _
  | ok x =>
    obtain ⟨-, -, -, -, -, -, hwf, -⟩ := layout_ok he
    exact hwf hs

theorem wf_of_advance (hs : s.mem.wf = true) (h : advance s w = .next t) : t.mem.wf = true := by
  unfold advance at h
  split at h
  · split at h <;> cases h
    · exact wf_afterPart hs _
    · exact wf_afterRecord_layout hs
  · split at h
    · exact wf_of_runElement hs h
    · cases h; exact hs
  · cases h; exact wf_afterPart hs _
  · split at h
    · exact wf_of_runElement hs h
    · cases h; exact hs

/-! ## The host's actions -/

theorem wf_resetAt (hs : s.mem.wf = true) (b : Nat) : (resetAt s b).mem.wf = true := by
  unfold resetAt resetFocused
  split
  · split
    · exact hs
    · exact wf_havoc hs _ _ _
  · exact hs

/-- Which instance is in focus does not matter to memory (R39). -/
theorem locate_mem {addr k : Nat} (h : locate s addr = .ok (u, k)) : u.mem = s.mem := by
  unfold locate at h
  split at h
  · cases h
  · next hf =>
    split at h <;> cases h
    unfold focusOn at hf
    split at hf
    · cases hf; rfl
    · split at hf <;> cases hf; rfl

theorem wf_of_runCommand (hs : s.mem.wf = true) (h : runCommand s = .next t) : t.mem.wf = true := by
  unfold runCommand at h
  split at h
  · exact (exec_confined h).wf hs
  · cases h; exact hs

/-- A codec command left running has ended at its checks, as `exec` would have ended it, or it has changed nothing yet. -/
theorem wf_of_beginStepped {i : Instr} {st : Start} (hs : s.mem.wf = true) (hended : ∀ o, st = .ended o → exec i s = o)
    (h : beginStepped s st = .next t) : t.mem.wf = true := by
  cases st with
  | ended o => exact (exec_confined ((hended o rfl).trans h)).wf hs
  | running w => cases h; exact hs

theorem wf_of_startCommand (hs : s.mem.wf = true) (h : startCommand s = .next t) : t.mem.wf = true := by
  have enc : beginStepped s (startEnc s) = .next t → t.mem.wf = true :=
    wf_of_beginStepped hs fun _ => exec_enc_of_ended (.inl rfl)
  have dec : beginStepped s (startDec s) = .next t → t.mem.wf = true :=
    wf_of_beginStepped hs fun _ => exec_dec_of_ended (.inl rfl)
  unfold startCommand at h
  split at h
  · exact enc h
  · exact enc h
  · exact dec h
  · exact dec h
  · exact wf_of_runCommand hs h

theorem wf_of_hostWrite {run : State → Host.Outcome State Fault Refusal}
    (hrun : ∀ {u t : State}, u.mem.wf = true → run u = .next t → t.mem.wf = true) {addr : Nat} {v : BitVec 64}
    (hs : s.mem.wf = true) (h : hostWrite run s addr v = .next t) : t.mem.wf = true := by
  unfold hostWrite at h
  split at h
  · cases h
  · next u k hl =>
    have hu : (writeSlot u k v).mem.wf = true := (locate_mem hl).symm ▸ hs
    split at h
    · exact hrun hu h
    · cases h; exact hu

theorem wf_of_hostStep (hs : s.mem.wf = true) {a : HostAction} (h : hostStep s a = .next t) : t.mem.wf = true := by
  cases a with
  | regWrite addr v => exact wf_of_hostWrite wf_of_runCommand hs h
  | regWriteStepped addr v => exact wf_of_hostWrite wf_of_startCommand hs h
  | tick | setAdmits | declare => cases h; exact hs
  | regRead addr =>
    simp only [hostStep, hostRead] at h
    split at h <;> cases h
    next hl => exact (locate_mem hl).symm ▸ hs
  | store addr b =>
    simp only [hostStep, hostStore] at h
    split at h <;> cases h
    · exact hs
    · exact hs
    · exact wf_write hs addr b
  | load addr =>
    simp only [hostStep, hostLoad] at h
    split at h <;> cases h <;> exact hs
  | reset b => cases h; exact wf_resetAt hs b

end canonical

/-- Settles O52: memory is written byte by byte, and each write keeps the form. -/
theorem stepKeepsMemoryCanonical : Obligations.StepKeepsMemoryCanonical := by
  intro s t hs h
  cases hw : s.inst.work with
  | some w =>
    obtain ⟨q, e⟩ | ⟨b, q, -, e⟩ := step_running hw
    · exact wf_of_advance (s := { s with queue := q }) hs (e.symm.trans h)
    · rw [e] at h
      cases h
      exact wf_resetAt (s := { s with queue := q }) hs b
  | none =>
    cases hq : s.queue with
    | nil =>
      simp only [step, hw, idleStep, hq] at h
      cases h
      exact hs
    | cons a q => exact wf_of_hostStep (s := { s with queue := q }) hs ((step_of_queue hw hq).symm.trans h)

end Sys2Proof.Machine

end

section
/-! SUPPORT. ENC on the stream it writes and DEC on the stream it finds, as whole commands: what the passes compute, lifted to
the outcome of `exec`, and the round trip through memory (O23). -/

namespace Sys2Proof.Machine

/-! ## The pure round trip -/

/-- R174: the record that packing makes of a delta carries that delta. -/
@[simp] theorem recDelta_recordOf (common d : Word) : recDelta common (recordOf common d) = d := by
  unfold recDelta recordOf classify payload
  split_ifs with hcom h8 h16
  · exact hcom.symm
  · simpa [deltaOfPayload, unle_leBytes, resLen] using sext8_of_fits8 h8
  · simpa [deltaOfPayload, unle_leBytes, resLen] using sext16_of_fits16 h16
  · exact ofNat_unle_leBytes d

/-- R113: the running sums of the deltas of a list are the list. -/
theorem sumsFrom_deltasFrom (prev : Word) (xs : List Word) : sumsFrom prev (deltasFrom prev xs) = xs := by
  induction xs generalizing prev with
  | nil => rfl
  | cons x xs ih =>
    have hx : accumulated prev (deltaOf prev x) = x := by simp [accumulated, deltaOf]
    rw [deltasFrom, sumsFrom, hx, ih]

@[simp] theorem deltas_length (xs : List Word) : (deltas xs).length = xs.length := deltasFrom_length 0#32 xs

theorem deltas_eq_nil {xs : List Word} : deltas xs = [] ↔ xs = [] := by
  rw [← List.length_eq_zero_iff, deltas_length, List.length_eq_zero_iff]

theorem streamOf_deltas (common : Word) {xs : List Word} (hne : xs ≠ []) :
    streamOf common (deltas xs) = ⟨some common, (deltas xs).map (recordOf common)⟩ := if_neg (mt deltas_eq_nil.mp hne)

/-- R145: the stream of a list of words stands for the list, whatever its common value. -/
theorem streamWords_streamOf_deltas (common : Word) {xs : List Word} (hne : xs ≠ []) :
    streamWords (streamOf common (deltas xs)) = xs := by
  have hrec : ((deltas xs).map (recordOf common)).map (recDelta common) = deltas xs := by simp [Function.comp_def]
  have hsums : sumsFrom 0#32 (deltas xs) = xs := sumsFrom_deltasFrom 0#32 xs
  simp only [streamOf_deltas common hne, streamWords, hrec, hsums]

theorem recordOf_wellFormed (common d : Word) : (recordOf common d).wellFormed = true := by
  simp [recordOf, Rec.wellFormed]

/-- R97: a stream with a header parses back from its bytes, whatever stands after them. -/
theorem parseStream_emitStream {common : Word} {rs : List Rec} (hne : rs ≠ []) (hwf : rs.all Rec.wellFormed = true)
    (rest : List Byte) :
    parseStream rs.length (emitStream ⟨some common, rs⟩ ++ rest) = .ok (⟨some common, rs⟩, rest) := by
  have hn : rs.length ≠ 0 := mt List.length_eq_zero_iff.mp hne
  have hbytes : emitStream ⟨some common, rs⟩ ++ rest =
      leBytes 4 common.toNat ++ (packTags (rs.map Rec.tag) ++ (rs.flatMap Rec.payload ++ rest)) := by
    simp [emitStream]
  have hhead : (leBytes 4 common.toNat).length = 4 := leBytes_length _ _
  have htags : (packTags (rs.map Rec.tag)).length = tagBytes rs.length := by rw [packTags_length, List.length_map]
  have hunpack : unpackTags rs.length (packTags (rs.map Rec.tag)) = rs.map Rec.tag := by
    simpa using unpackTags_packTags (rs.map Rec.tag)
  have hres : (leBytes 4 common.toNat ++ (packTags (rs.map Rec.tag) ++ (rs.flatMap Rec.payload ++ rest))).drop
      (4 + tagBytes rs.length) = rs.flatMap Rec.payload ++ rest := by
    rw [← List.drop_drop, List.drop_left' hhead, List.drop_left' htags]
  unfold parseStream
  rw [hbytes, if_neg hn, if_neg (by simp [htags]), hres, List.drop_left' hhead, List.take_left' htags, hunpack,
    takeRecs_payloads rs hwf, List.take_left' hhead, ofNat_unle_leBytes]

/-- R145: the bytes of an encoded list parse to its stream. -/
theorem parseStream_encodeList (tie : TieRule) {xs : List Word} (hne : xs ≠ []) :
    parseStream xs.length (encodeList tie xs) = .ok (streamOf (commonOf tie xs) (deltas xs), []) := by
  have h := parseStream_emitStream (common := commonOf tie xs) (rs := (deltas xs).map (recordOf (commonOf tie xs)))
    (by simpa [deltas_eq_nil] using hne) (by simp [recordOf_wellFormed]) []
  rw [encodeList, streamOf_deltas _ hne]
  simpa using h

/-- R92, R141: the length of an encoded list by its three regions. -/
theorem encodeList_length (tie : TieRule) {xs : List Word} (hne : xs ≠ []) :
    (encodeList tie xs).length = 4 + tagBytes xs.length + (residuals (commonOf tie xs) (deltas xs)).length := by
  simp [encodeList_eq tie xs hne, packTags_length, Nat.add_assoc]

/-- R141: the stream of a list is no longer than the worst case. -/
theorem encodeList_length_le (tie : TieRule) {xs : List Word} (hne : xs ≠ []) :
    (encodeList tie xs).length ≤ 4 + tagBytes xs.length + 4 * xs.length := by
  have h := residuals_length_le (commonOf tie xs) (deltas xs)
  rw [deltas_length] at h
  rw [encodeList_length tie hne]
  omega

/-- R83: memory that holds the header, the tag region and the residual region one after the other holds the encoded list. -/
theorem readBytes_encodeList {tie : TieRule} {xs : List Word} {m : Memory} {a : Nat} (hne : xs ≠ [])
    (hhead : m.readBytes a 4 = leBytes 4 (commonOf tie xs).toNat)
    (htags : m.readBytes (a + 4) (tagBytes xs.length) = packTags ((deltas xs).map (classify (commonOf tie xs))))
    (hres : m.readBytes (a + 4 + tagBytes xs.length) (residuals (commonOf tie xs) (deltas xs)).length =
      residuals (commonOf tie xs) (deltas xs)) :
    m.readBytes a (encodeList tie xs).length = encodeList tie xs := by
  rw [encodeList_length tie hne, readBytes_append, readBytes_append, ← Nat.add_assoc, hhead, htags, hres,
    encodeList_eq tie xs hne]

/-! ## ENC -/

/-- Where DST is admitted the header is written and the emission pass begins with its initial values (R136, R137). -/
theorem layout_spec {p : Platform} {m : Memory} {w : Work} {c : Word} (hc : tieChoice p.tie w.hist = c)
    (h : ∀ a, w.dst ≤ a → a < w.dst + 4 → admits p a = true) :
    ∃ w', layout p m w = .ok (m.writeBytes w.dst (leBytes 4 c.toNat), w') ∧ w'.common = c ∧ w'.prev = 0#32 ∧
      w'.tagByte = 0#8 ∧ w'.i = 0 ∧ w'.n = w.n ∧ w'.src = w.src ∧ w'.dst = w.dst ∧
      w'.resCur = w.dst + 4 + tagBytes w.n := by
  subst hc
  rw [layout, memWrite_of_admitted (by simpa using h)]
  exact ⟨_, rfl, rfl, rfl, rfl, rfl, rfl, rfl, rfl, rfl⟩

/-- A word read elsewhere is not changed by a write. -/
theorem word_writeBytes_other (m : Memory) {a base i : Nat} {bs : List Byte}
    (h : base + 4 * i + 4 ≤ a ∨ a + bs.length ≤ base + 4 * i) : (m.writeBytes a bs).word base i = m.word base i := by
  rw [Memory.word, Memory.word, readBytes_writeBytes_other m h]

/-- The two passes of ENC over an admitted list write its encoding at DST, put the cursor behind it, and change nothing else
(R130, R131). -/
theorem encPasses_spec {p : Platform} {m : Memory} {w : Work} {xs : List Word} (hm : m.wf = true) (hne : xs ≠ [])
    (hstart : w.prev = 0#32 ∧ w.hist = [] ∧ w.i = 0) (hn : w.n = xs.length)
    (hx : ∀ j (h : j < xs.length), m.word w.src j = xs[j])
    (hin : ∀ a, w.src ≤ a → a < w.src + 4 * w.n → admits p a = true)
    (hout : ∀ a, w.dst ≤ a → a < w.dst + (encodeList p.tie xs).length → admits p a = true)
    (hdis : w.src + 4 * w.n ≤ w.dst ∨ w.dst + (encodeList p.tie xs).length ≤ w.src) :
    ∃ m' w', encPasses p m w = .ok (m', w') ∧ m'.wf = true ∧ w'.dst = w.dst ∧
      w'.resCur = w.dst + (encodeList p.tie xs).length ∧
      m'.readBytes w.dst (encodeList p.tie xs).length = encodeList p.tie xs ∧
      ∀ a, a < w.dst ∨ w.dst + (encodeList p.tie xs).length ≤ a → m'.read a = m.read a := by
  obtain ⟨hprev, hhist, hi⟩ := hstart
  have hlen := encodeList_length p.tie hne
  rw [← hn] at hlen
  -- pass 1 and the header
  obtain ⟨w₁, hloop, hhist₁, hsrc₁, hdst₁, hn₁, -⟩ := histLoop_spec p m xs w
    (fun j hj => by rw [hi, Nat.zero_add]; exact hx j hj) (fun a h₁ h₂ => hin a (by omega) (by omega))
  have hcommon : tieChoice p.tie w₁.hist = commonOf p.tie xs := by rw [hhist₁, hprev, hhist]; rfl
  obtain ⟨w₂, hlay, hcom₂, hprev₂, htb₂, hi₂, hn₂, hsrc₂, hdst₂, hcur₂⟩ := layout_spec (m := m) hcommon
    fun a h₁ h₂ => hout a (by omega) (by omega)
  rw [hdst₁] at hlay
  have hheader : (leBytes 4 (commonOf p.tie xs).toNat).length = 4 := leBytes_length _ _
  -- pass 2
  have hspec := emitLoop_spec p xs (m.writeBytes w.dst (leBytes 4 (commonOf p.tie xs).toNat)) w₂ []
  rw [show deltasFrom w₂.prev xs = deltas xs by rw [hprev₂]; rfl, hcom₂, hi₂, hn₂, hn₁, hsrc₂, hsrc₁, hcur₂, hdst₂, hdst₁,
    hn₁] at hspec
  obtain ⟨m', w', hemit, hm', hcur', hdst', hres, htags, hother⟩ := hspec (wf_writeBytes hm _ _) (by omega)
    (fun _ => rfl) (fun _ => rfl) htb₂
    (fun j hj => by rw [Nat.zero_add, word_writeBytes_other m (by omega)]; exact hx j hj)
    hin (fun a h₁ h₂ => hout a h₁ (by omega)) (Nat.le_refl _) (by omega)
  have hhead : m'.readBytes w.dst 4 = leBytes 4 (commonOf p.tie xs).toNat := by
    rw [readBytes_congr fun a h₁ h₂ => hother a (by omega) (by omega)]
    simpa using readBytes_writeBytes_same hm w.dst (leBytes 4 (commonOf p.tie xs).toNat)
  rw [List.nil_append, packTags_length, List.length_map, deltas_length] at htags
  refine ⟨m', w', ?_, hm', hdst', by omega, readBytes_encodeList hne hhead htags (hn ▸ hres), fun a ha => ?_⟩
  · unfold encPasses
    rw [hn, hloop]
    simp only [hlay, hn₂, hn₁, hn]
    exact hemit
  · rw [hother a (by omega) (by omega)]
    exact read_writeBytes_other m _ _ (by omega)

theorem rangesOf_enc {i : Instr} (hi : i = .encS ∨ i = .encU) (n : Nat) : rangesOf i n = encRanges n := by
  rcases hi with rfl | rfl <;> rfl

theorem rangesOf_dec {i : Instr} (hi : i = .decS ∨ i = .decU) (n : Nat) : rangesOf i n = decRanges n := by
  rcases hi with rfl | rfl <;> rfl

/-- R267: of the disjoint ranges of a command that has elements, one ends before the other begins. -/
theorem apart_of_disjoint {s : State} {i : Instr} (hlegal : OperandsLegal i s) (hdisj : RangesDisjoint i s) :
    s.inst.src.toNat + (rangesOf i s.inst.count.toNat).inLen ≤ s.inst.dst.toNat ∨
      s.inst.dst.toNat + (rangesOf i s.inst.count.toNat).outLen ≤ s.inst.src.toNat := by
  obtain ⟨hin, hout, -⟩ := rangesOf_ordered i hlegal.1
  exact meets_false hin hout hdisj

/-- ENC of a host that has done its duties ends with success: the encoding of the words at SRC stands at DST, RESULT is its
length, and no other byte has changed (R130, R131, R138). -/
theorem exec_enc_of_runnable {s : State} {i : Instr} {xs : List Word} (hi : i = .encS ∨ i = .encU) (hm : s.mem.wf = true)
    (hxs : xs = s.mem.words s.inst.src.toNat s.inst.count.toNat)
    (hrun : Runnable i s (4 * s.inst.count.toNat) (encodeList s.plat.tie xs).length) :
    ∃ m, exec i s = .next (endOK s m (encodeList s.plat.tie xs).length) ∧ m.wf = true ∧
      m.readBytes s.inst.dst.toNat (encodeList s.plat.tie xs).length = encodeList s.plat.tie xs ∧
      ∀ a, a < s.inst.dst.toNat ∨ s.inst.dst.toNat + (encodeList s.plat.tie xs).length ≤ a → m.read a = s.mem.read a := by
  obtain ⟨hlegal, hord, hdisj, hin, hout⟩ := hrun
  have hn := hlegal.1
  have hlen : xs.length = s.inst.count.toNat := by simp [hxs, Memory.words]
  have hne : xs ≠ [] := List.ne_nil_of_length_pos (hlen ▸ hn)
  have hle := encodeList_length_le s.plat.tie hne
  rw [hlen] at hle
  have hapart := apart_of_disjoint hlegal hdisj
  simp only [rangesOf_enc hi, encRanges, maxPrecodedSize_pos hn] at hapart
  obtain ⟨m, w, he, hwf, hdst, hcur, hread, hother⟩ := encPasses_spec (p := s.plat) (w := encWork s) hm hne
    ⟨rfl, rfl, rfl⟩ hlen.symm (fun j hj => by simp [hxs, Memory.words, Work.start]) hin hout
    (by simp only [Work.start]; omega)
  refine ⟨m, ?_, hwf, hread, hother⟩
  rw [exec_enc_of_running hi (startEnc_of_ready hi hlegal hord hdisj), he, encEnd, hdst, hcur, Nat.add_sub_cancel_left]

/-! ## DEC -/

/-- What parsing the bytes DEC finds says of each byte: the header, the tag of every element in its lane, and the payloads, with
no byte after them (R83 to R91). -/
theorem parseStream_seenBytes {p : Platform} {m : Memory} {v src n len : Nat} {st : Stream} (hn : 0 < n)
    (h : parseStream n (seenBytes p m v src src len) = .ok (st, [])) :
    st.header = some (BitVec.ofNat 32 (unle (seenBytes p m v src src 4))) ∧ st.recs.length = n ∧
      st.recs.all Rec.wellFormed = true ∧
      (∀ j (hj : j < st.recs.length),
        Tag.ofCode (tagLane (seenByte p m v src (src + 4 + j / 4)) (j % 4)) = st.recs[j].tag) ∧
      len = 4 + tagBytes n + (st.recs.flatMap Rec.payload).length ∧
      seenBytes p m v src (src + 4 + tagBytes n) (st.recs.flatMap Rec.payload).length = st.recs.flatMap Rec.payload := by
  obtain ⟨hhead, hlen, hwf, htags, hlong, hpay⟩ := parseStream_ok hn h
  rw [seenBytes_length] at hlong
  rw [seenBytes_take _ _ _ _ _ _ _ (by omega)] at hhead
  rw [seenBytes_drop _ _ _ _ _ _ _ (by omega), seenBytes_take _ _ _ _ _ _ _ (by omega)] at htags
  rw [seenBytes_drop _ _ _ _ _ _ _ hlong, List.append_nil, ← Nat.add_assoc] at hpay
  have hplen : len - (4 + tagBytes n) = (st.recs.flatMap Rec.payload).length := by
    simpa using congrArg List.length hpay
  refine ⟨hhead, hlen, hwf, fun j hj => ?_, by omega, by rwa [hplen] at hpay⟩
  have hlane : j / 4 < (seenBytes p m v src (src + 4) (tagBytes n)).length := by
    rw [seenBytes_length, tagBytes]; omega
  have htag : (st.recs.map Rec.tag)[j]'(by simpa using hj) = (unpackTags n _)[j]'(by simp [unpackTags]; omega) :=
    List.getElem_of_eq htags _
  simp only [unpackTags, List.getElem_map, List.getElem_range] at htag
  rw [htag, tagAt, List.getD_eq_getElem _ _ hlane, seenBytes_getElem]

/-- Well-formed records have at most four payload bytes each (R90). -/
theorem payloads_length_le {rs : List Rec} (h : rs.all Rec.wellFormed = true) :
    (rs.flatMap Rec.payload).length ≤ 4 * rs.length := by
  induction rs with
  | nil => exact Nat.le_refl _
  | cons r rs ih =>
    simp only [List.all_cons, Bool.and_eq_true, Rec.wellFormed, decide_eq_true_eq] at h
    have hr := resLen_le r.tag
    have hrs := ih h.2
    simp only [List.flatMap_cons, List.length_append, List.length_cons, h.1]
    omega

/-- Where the header is admitted it is read and the element pass begins with its initial values (R194, R195). -/
theorem readHeader_spec {p : Platform} {m : Memory} {w : Work} (h : ∀ a, w.src ≤ a → a < w.src + 4 → admits p a = true) :
    ∃ w', readHeader p m w = .ok w' ∧ w'.common = BitVec.ofNat 32 (unle (seenBytes p m w.view w.src w.src 4)) ∧
      w'.acc = 0#32 ∧ w'.i = 0 ∧ w'.n = w.n ∧ w'.src = w.src ∧ w'.dst = w.dst ∧ w'.view = w.view ∧
      w'.resCur = w.src + 4 + tagBytes w.n := by
  rw [readHeader, streamRead_of_admitted h]
  exact ⟨_, rfl, rfl, rfl, rfl, rfl, rfl, rfl, rfl, rfl⟩

/-- The header read and the element pass of DEC, over admitted bytes that parse to a stream with nothing after it, write the
words of the stream at DST and change nothing else (R190, R191). -/
theorem decPasses_spec {p : Platform} {m : Memory} {w : Work} {st : Stream} {len : Nat} (hm : m.wf = true) (hn : 0 < w.n)
    (hparse : parseStream w.n (seenBytes p m w.view w.src w.src len) = .ok (st, []))
    (hin : ∀ a, w.src ≤ a → a < w.src + len → admits p a = true)
    (hout : ∀ a, w.dst ≤ a → a < w.dst + 4 * w.n → admits p a = true)
    (hdis : w.dst + 4 * w.n ≤ w.src ∨ w.src + len ≤ w.dst) :
    ∃ w₁ m' w', readHeader p m w = .ok w₁ ∧ decLoop p w₁.n m w₁ = .ok (m', w') ∧ m'.wf = true ∧ w'.n = w.n ∧
      m'.words w.dst w.n = streamWords st ∧
      ∀ a, a < w.dst ∨ w.dst + 4 * w.n ≤ a → m'.read a = m.read a := by
  obtain ⟨hhead, hlen, hwf, htags, hbytes, hpay⟩ := parseStream_seenBytes hn hparse
  obtain ⟨w₁, hread, hcom₁, hacc₁, hi₁, hn₁, hsrc₁, hdst₁, hview₁, hcur₁⟩ :=
    readHeader_spec (m := m) fun a h₁ h₂ => hin a h₁ (by omega)
  have hspec := decLoop_spec p st.recs m w₁
  rw [hi₁, hn₁, hsrc₁, hdst₁, hview₁, hcur₁, hacc₁, hcom₁] at hspec
  obtain ⟨m', w', hloop, hm', hn', -, hwords, hother⟩ := hspec hm (by omega) hwf
    (fun j hj => by simpa only [Nat.zero_add] using htags j hj) hpay (fun a h₁ h₂ => hin a h₁ (by omega)) hout
    (Nat.le_refl _) (by omega)
  refine ⟨w₁, m', w', hread, by rw [hn₁, ← hlen]; exact hloop, hm', hn', ?_, hother⟩
  have hsums := words_of_bytes m' w.dst (sumsFrom 0#32 (st.recs.map (recDelta _))) (by simpa using hwords)
  simpa [streamWords, hhead, hlen] using hsums

/-- DEC of a host that has done its duties, on bytes that parse to a stream with nothing after it, ends with success: the words
of the stream stand at DST, RESULT is N, and no other byte has changed (R190, R191, R197). -/
theorem exec_dec_of_runnable {s : State} {i : Instr} {st : Stream} {len : Nat} (hi : i = .decS ∨ i = .decU)
    (hm : s.mem.wf = true)
    (hparse : parseStream s.inst.count.toNat
      (seenBytes s.plat s.mem s.draws s.inst.src.toNat s.inst.src.toNat len) = .ok (st, []))
    (hrun : Runnable i s len (4 * s.inst.count.toNat)) :
    ∃ m, exec i s = .next (endDec s m s.inst.count.toNat) ∧ m.wf = true ∧
      m.words s.inst.dst.toNat s.inst.count.toNat = streamWords st ∧
      ∀ a, a < s.inst.dst.toNat ∨ s.inst.dst.toNat + 4 * s.inst.count.toNat ≤ a → m.read a = s.mem.read a := by
  obtain ⟨hlegal, hord, hdisj, hin, hout⟩ := hrun
  have hn := hlegal.1
  obtain ⟨-, hlen, hwf, -, hbytes, -⟩ := parseStream_seenBytes hn hparse
  have hle := payloads_length_le hwf
  have hapart := apart_of_disjoint hlegal hdisj
  simp only [rangesOf_dec hi, decRanges, maxPrecodedSize_pos hn] at hapart
  obtain ⟨w₁, m, w, hread, hloop, hwf', hn', hwords, hother⟩ := decPasses_spec (p := s.plat) (w := decWork s) hm hn hparse
    hin hout (by simp only [Work.start]; omega)
  refine ⟨m, ?_, hwf', hwords, hother⟩
  rw [exec_dec_of_running hi (startDec_of_ready hi hlegal hord hdisj), hread]
  simp only [hloop, decEnd, hn', Work.start]

/-! ## DEC after ENC -/

/-- RESULT has room for the length of a stream of at most NMAX elements (R58, R141). -/
theorem toNat_ofNat_encodeList_length {p : Platform} {xs : List Word} (hp : p.wellFormed = true) (hne : xs ≠ [])
    (hmax : xs.length ≤ p.nmax) : (BitVec.ofNat 64 (encodeList p.tie xs).length).toNat = (encodeList p.tie xs).length := by
  have hle := encodeList_length_le p.tie hne
  have hsize := nmax_size_lt hp
  have haw := two_pow_aw_le hp
  have htags : tagBytes xs.length ≤ tagBytes p.nmax := by unfold tagBytes; omega
  rw [BitVec.toNat_ofNat, Nat.mod_eq_of_lt (by omega)]

/-- Settles O23: the bytes DEC finds in the declared buffer are those ENC wrote, which parse to the stream of the list. -/
theorem decAfterEncRestoresList : Obligations.DecAfterEncRestoresList := by
  intro s t out hp hm henc he hdecl hdec
  obtain ⟨hn, hmax, -⟩ := henc.1
  generalize hxs : s.mem.words s.inst.src.toNat s.inst.count.toNat = xs at *
  have hlen : xs.length = s.inst.count.toNat := by simp [← hxs, Memory.words]
  have hne : xs ≠ [] := List.ne_nil_of_length_pos (hlen ▸ hn)
  obtain ⟨m, he', hm', hread, -⟩ := exec_enc_of_runnable (.inl rfl) hm hxs.symm henc
  rw [he'] at he
  cases he
  rw [endOK_result, toNat_ofNat_encodeList_length hp hne (hlen ▸ hmax)] at hdecl hdec
  rw [endOK_plat] at hdecl
  have hparse : parseStream s.inst.count.toNat (seenBytes s.plat m s.draws s.inst.dst.toNat s.inst.dst.toNat
      (encodeList s.plat.tie xs).length) = .ok (streamOf (commonOf s.plat.tie xs) (deltas xs), []) := by
    rw [seenBytes_of_declared hdecl, hread, ← hlen]
    exact parseStream_encodeList s.plat.tie hne
  obtain ⟨m', hd, -, hwords, -⟩ := exec_dec_of_runnable (.inl rfl) hm' hparse hdec
  exact ⟨_, hd, rfl, hwords.trans (streamWords_streamOf_deltas _ hne)⟩

end Sys2Proof.Machine

end

section
/-! SUPPORT. Instructions and tag regions read from their bytes: a command word from its four bytes, the tag in a lane of a tag
byte as a number (R80, R86 to R88), and the obligations on them (O1, O2, O3, O6). -/

namespace Sys2Proof.Machine

/-! ## Command words -/

/-- Settles O1: the word is compared with the six in turn, and one that differs from all of them is illegal. -/
theorem commandWordsDecodeExactly : Obligations.CommandWordsDecodeExactly := by
  refine ⟨rfl, rfl, rfl, rfl, rfl, rfl, fun w hEncS hEncU hDecS hDecU hSzp hSzw => ?_⟩
  rw [decodeCommand, if_neg hEncS, if_neg hEncU, if_neg hDecS, if_neg hDecU, if_neg hSzp, if_neg hSzw]

/-- R80: the number of a command is the word that selects it. -/
theorem decodeCommand_code {i : Instr} (h : i.bits = 32) : decodeCommand (BitVec.ofNat 32 i.code) = .ok i := by
  cases i with
  | encS | encU | decS | decU | szp | szw => rfl
  | tCom | tS8 | tS16 | tS32 => cases h

/-- R8, R80: the four bytes of a command word, least significant first, decode as the word does. -/
theorem decodeBytes_command_leBytes {v : Nat} {i : Instr} (h : decodeCommand (BitVec.ofNat 32 v) = .ok i) (rest : List Byte) :
    decodeBytes .command (leBytes 4 v ++ rest) = .ok (i, rest) := by
  have hword : BitVec.ofNat 32 (unle (leBytes 4 v)) = BitVec.ofNat 32 v := by
    rw [unle_leBytes]
    exact BitVec.eq_of_toNat_eq (by simp)
  rw [← hword] at h
  simp only [leBytes, List.cons_append, List.nil_append, decodeBytes] at h ⊢
  rw [h]

/-! ## Lanes -/

/-- R86: lane `j` of a tag byte, read as a number, is its base-4 digit `j`. -/
theorem tagLane_toNat (b : Byte) (j : Nat) : (tagLane b j).toNat = b.toNat / 4 ^ j % 4 := by
  simp [tagLane, Nat.shiftRight_eq_div_pow, Nat.pow_mul]

/-- R87, R88: the number of a tag selects its record. -/
theorem ofTag_ofCode (c : BitVec 2) :
    Instr.ofTag (Tag.ofCode c) =
      if c.toNat = 0 then .tCom else if c.toNat = 1 then .tS8 else if c.toNat = 2 then .tS16 else .tS32 := by
  revert c; decide

/-- Settles O2: the number in the lane selects the record. -/
theorem tagLaneSelectsRecord : Obligations.TagLaneSelectsRecord := by
  intro b rest j _
  rw [decodeBytes, ofTag_ofCode, tagLane_toNat]

/-- R88: the number of a record is the tag that selects it. -/
theorem ofTag_ofCode_code {i : Instr} (h : i.bits ≠ 32) : Instr.ofTag (Tag.ofCode (BitVec.ofNat 2 i.code)) = i := by
  cases i with
  | encS | encU | decS | decU | szp | szw => exact absurd rfl h
  | tCom | tS8 | tS16 | tS32 => rfl

theorem code_lt_four {i : Instr} (h : i.bits ≠ 32) : i.code < 4 := by
  cases i with
  | encS | encU | decS | decU | szp | szw => exact absurd rfl h
  | tCom | tS8 | tS16 | tS32 => decide

/-- R86: a number put into lane `j` of a tag byte is read back from that lane. -/
theorem tagLane_ofNat {c j : Nat} (hc : c < 4) (hj : j < 4) :
    tagLane (BitVec.ofNat 8 (c * 4 ^ j)) j = BitVec.ofNat 2 c := by
  have hpow : 4 * 4 ^ j ≤ 256 := by
    rw [← Nat.pow_succ']
    exact Nat.pow_le_pow_right (by decide) (Nat.succ_le_of_lt hj)
  have hbyte : c * 4 ^ j < 256 := lt_of_lt_of_le (Nat.mul_lt_mul_of_pos_right hc (by positivity)) hpow
  apply BitVec.eq_of_toNat_eq
  rw [tagLane_toNat, BitVec.toNat_ofNat, BitVec.toNat_ofNat, Nat.mod_eq_of_lt hbyte, Nat.mul_div_cancel _ (by positivity)]

/-- Settles O3: a command from the four bytes of its word, a record from the lane its tag was put into. -/
theorem instructionsDecodeBack : Obligations.InstructionsDecodeBack := by
  intro i j rest _ hj
  by_cases hbits : i.bits = 32
  · rw [Instr.place, encodeBytes, if_pos hbits, if_pos hbits]
    exact decodeBytes_command_leBytes (decodeCommand_code hbits) rest
  · rw [Instr.place, encodeBytes, if_neg hbits, if_neg hbits, List.singleton_append, decodeBytes,
      tagLane_ofNat (code_lt_four hbits) hj, ofTag_ofCode_code hbits]

/-- Settles O6: the tag of an element is a function of the number in its own lane. -/
theorem paddingLanesIgnored : Obligations.PaddingLanesIgnored := by
  intro n region region' hlanes
  refine List.map_congr_left fun i hi => ?_
  have hlane : tagLane (region.getD (i / 4) 0#8) (i % 4) = tagLane (region'.getD (i / 4) 0#8) (i % 4) := by
    apply BitVec.eq_of_toNat_eq
    rw [tagLane_toNat, tagLane_toNat, hlanes i (List.mem_range.mp hi)]
  rw [tagAt, tagAt, hlane]

end Sys2Proof.Machine

end

section
/-! SUPPORT. Streams from their bytes (O4, O5), and the U bit (O25). -/

namespace Sys2Proof.Machine

/-- R84: a stream is well-formed when it has a header exactly if it has records, and each record has its payload. -/
theorem stream_wellFormed_iff (st : Stream) :
    st.wellFormed = true ↔ (st.header.isSome = true ↔ st.recs ≠ []) ∧ st.recs.all Rec.wellFormed = true := by
  rw [Stream.wellFormed, Bool.and_eq_true, beq_iff_eq, Bool.eq_iff_iff]
  simp

/-- Settles O4: without a header there are no records and no bytes; with one, the three regions are read back in turn. -/
theorem streamParsesBack : Obligations.StreamParsesBack := by
  rintro ⟨header, recs⟩ rest hwf
  obtain ⟨hheader, hrecs⟩ := (stream_wellFormed_iff _).mp hwf
  cases header with
  | none =>
    obtain rfl : recs = [] := by simpa using hheader
    rfl
  | some common => exact parseStream_emitStream (by simpa using hheader) hrecs rest

/-- R83: what parsing leaves over is the end of the bytes parsed. -/
theorem parseStream_ok_suffix {n : Nat} {bs rest : List Byte} {st : Stream} (h : parseStream n bs = .ok (st, rest)) :
    rest <:+ bs := by
  by_cases hn : n = 0
  · subst hn
    obtain ⟨-, rfl⟩ : _ ∧ bs = rest := by simpa [parseStream] using h
    exact List.suffix_refl bs
  · obtain ⟨-, -, -, -, -, hres⟩ := parseStream_ok (Nat.pos_of_ne_zero hn) h
    calc rest <:+ st.recs.flatMap Rec.payload ++ rest := List.suffix_append _ _
      _ = bs.drop (4 + tagBytes n) := hres.symm
      _ <:+ bs := List.drop_suffix _ _

/-- Settles O5: the bytes parsed end in those left over, and the ones before them decide the stream. -/
theorem parsingStopsAtLastPayload : Obligations.ParsingStopsAtLastPayload := by
  intro n bs rest extra st h
  obtain ⟨u, rfl⟩ := parseStream_ok_suffix h
  rw [List.append_assoc]
  exact parseStream_of_prefix h

/-- Settles O25: the two arms of each pair are one command (R132, R192). -/
theorem uBitChangesNothing : Obligations.UBitChangesNothing := by
  intro s
  have henc : execEncU s = execEncS s := rfl
  have hdec : execDecU s = execDecS s := rfl
  exact ⟨henc, hdec⟩

end Sys2Proof.Machine

end

section
/-! SUPPORT. The length of an encoded list (O18): the common value is one of the deltas, whose record has no payload, and no
record has a payload exactly when every delta is the common value. -/

namespace Sys2Proof.Machine

/-! ## The common value is one of the deltas (R134, R135) -/

/-- R134: counting a word lists it, and keeps the words listed before. -/
theorem mem_words_histBump (h : List (Word × Nat)) (d v : Word) :
    v ∈ (histBump h d).map Prod.fst ↔ v = d ∨ v ∈ h.map Prod.fst := by
  fun_induction histBump h d with
  | case1 d => simp
  | case2 c h d => simp
  | case3 d u c h hne hlt => simp
  | case4 d u c h hne hle ih =>
    rw [List.map_cons, List.map_cons, List.mem_cons, List.mem_cons, ih]
    exact or_left_comm

theorem mem_words_foldl_histBump (ds : List Word) (h : List (Word × Nat)) (v : Word) :
    v ∈ (ds.foldl histBump h).map Prod.fst ↔ v ∈ ds ∨ v ∈ h.map Prod.fst := by
  induction ds generalizing h with
  | nil => simp
  | cons d ds ih =>
    rw [List.foldl_cons, ih, mem_words_histBump, List.mem_cons]
    tauto

/-- R134: the words the histogram of a list counts are those of the list. -/
theorem mem_words_histOf (ds : List Word) (v : Word) : v ∈ (histOf ds).map Prod.fst ↔ v ∈ ds := by
  simpa [histOf] using mem_words_foldl_histBump ds [] v

/-- R135: the largest count of a histogram is one of its counts. -/
theorem exists_count_eq_histTop {h : List (Word × Nat)} (hne : h ≠ []) : ∃ e ∈ h, e.2 = histTop h := by
  induction h with
  | nil => exact absurd rfl hne
  | cons e h ih =>
    have htop : histTop (e :: h) = max e.2 (histTop h) := rfl
    by_cases hmax : histTop h ≤ e.2
    · exact ⟨e, List.mem_cons_self, by rw [htop, max_eq_left hmax]⟩
    · have hh : h ≠ [] := by
        rintro rfl
        exact hmax (Nat.zero_le _)
      obtain ⟨e', hmem, heq⟩ := ih hh
      exact ⟨e', List.mem_cons_of_mem _ hmem, by rw [htop, heq, max_eq_right (Nat.le_of_not_le hmax)]⟩

theorem mem_histModes {h : List (Word × Nat)} {v : Word} :
    v ∈ histModes h ↔ ∃ e ∈ h, e.2 = histTop h ∧ e.1 = v := by
  simp [histModes, and_assoc]

theorem histModes_ne_nil {h : List (Word × Nat)} (hne : h ≠ []) : histModes h ≠ [] := by
  obtain ⟨e, hmem, htop⟩ := exists_count_eq_histTop hne
  exact List.ne_nil_of_mem (mem_histModes.mpr ⟨e, hmem, htop, rfl⟩)

theorem lowestSigned_mem {vs : List Word} (hne : vs ≠ []) : lowestSigned vs ∈ vs := by
  fun_induction lowestSigned vs with
  | case1 => exact absurd rfl hne
  | case2 v => exact List.mem_singleton_self v
  | case3 v vs _ _ => exact List.mem_cons_self
  | case4 v vs hvs _ ih => exact List.mem_cons_of_mem v (ih hvs)

/-- R135: every tie rule takes one of the modes. -/
theorem tieChoice_mem_histModes (tie : TieRule) {h : List (Word × Nat)} (hne : h ≠ []) : tieChoice tie h ∈ histModes h := by
  have hmodes := histModes_ne_nil hne
  cases tie with
  | lowest => exact lowestSigned_mem hmodes
  | other k =>
    have hlt := Nat.mod_lt (Config.tieIndex k h) (List.length_pos_of_ne_nil hmodes)
    rw [tieChoice, List.getD_eq_getElem _ _ hlt]
    exact List.getElem_mem hlt

/-- R135: the common value is one of the deltas. -/
theorem tieChoice_histOf_mem (tie : TieRule) {ds : List Word} (hne : ds ≠ []) : tieChoice tie (histOf ds) ∈ ds := by
  obtain ⟨d, hd⟩ := List.exists_mem_of_ne_nil ds hne
  have hhist : histOf ds ≠ [] := by
    intro hnil
    simpa [hnil] using (mem_words_histOf ds d).mpr hd
  obtain ⟨e, hmem, -, heq⟩ := mem_histModes.mp (tieChoice_mem_histModes tie hhist)
  rw [← heq, ← mem_words_histOf]
  exact List.mem_map_of_mem hmem

theorem commonOf_mem_deltas (tie : TieRule) {xs : List Word} (hne : xs ≠ []) : commonOf tie xs ∈ deltas xs :=
  tieChoice_histOf_mem tie (mt deltas_eq_nil.mp hne)

/-! ## The residual region -/

/-- R90, R161: a record has no payload exactly when its delta is the common value. -/
theorem resLen_classify_eq_zero {common d : Word} : resLen (classify common d) = 0 ↔ d = common := by
  unfold classify
  split_ifs with hcommon <;> simp [resLen, hcommon]

theorem residuals_length (common : Word) (ds : List Word) :
    (residuals common ds).length = (ds.map fun d => resLen (classify common d)).sum := by
  simp [residuals, List.length_flatMap]

/-- The residual region is empty exactly when every delta is the common value. -/
theorem residuals_length_eq_zero {common : Word} {ds : List Word} :
    (residuals common ds).length = 0 ↔ ∀ d ∈ ds, d = common := by
  simp [residuals_length, List.sum_eq_zero_iff, resLen_classify_eq_zero]

/-- R92: the element that has the common value as its delta has no payload, the others have at most four bytes. -/
theorem residuals_length_le_of_mem {common : Word} {ds : List Word} (hmem : common ∈ ds) :
    (residuals common ds).length ≤ 4 * (ds.length - 1) := by
  obtain ⟨before, after, rfl⟩ := List.append_of_mem hmem
  have hcommon : resLen (classify common common) = 0 := resLen_classify_eq_zero.mpr rfl
  have hsplit : (residuals common (before ++ common :: after)).length =
      (residuals common before).length + (residuals common after).length := by
    simp [residuals_length, hcommon]
  have hbefore := residuals_length_le common before
  have hafter := residuals_length_le common after
  rw [hsplit, List.length_append, List.length_cons]
  omega

/-! ## Lists with one delta -/

/-- R10: every delta of a list is `c` exactly when the list goes up by `c` from its predecessor on. -/
theorem forall_mem_deltasFrom_eq_iff (prev c : Word) (xs : List Word) :
    (∀ d ∈ deltasFrom prev xs, d = c) ↔ ∀ j (h : j < xs.length), xs[j] = prev + BitVec.ofNat 32 (j + 1) * c := by
  induction xs generalizing prev with
  | nil => simp [deltasFrom]
  | cons x xs ih =>
    have hhead : deltaOf prev x = c ↔ x = prev + c := by
      rw [deltaOf, sub_eq_iff_eq_add, add_comm]
    have hnext : ∀ j, prev + c + BitVec.ofNat 32 (j + 1) * c = prev + BitVec.ofNat 32 (j + 1 + 1) * c := by
      intro j
      rw [BitVec.ofNat_add (j + 1) 1]
      rw [BitVec.add_mul, BitVec.one_mul, add_assoc, add_comm c]
    rw [deltasFrom, List.forall_mem_cons, hhead, ih]
    constructor
    · rintro ⟨rfl, htail⟩ j hj
      cases j with
      | zero => simp
      | succ j => exact (htail j (Nat.lt_of_succ_lt_succ hj)).trans (hnext j)
    · intro hall
      obtain rfl : x = prev + c := by simpa using hall 0 (Nat.succ_pos _)
      exact ⟨rfl, fun j hj => (hall (j + 1) (Nat.succ_lt_succ hj)).trans (hnext j).symm⟩

/-- The deltas of a list are all `c` exactly when the list is c, 2c, 3c, … -/
theorem forall_mem_deltas_eq_iff (c : Word) (xs : List Word) :
    (∀ d ∈ deltas xs, d = c) ↔ ∀ j (h : j < xs.length), xs[j] = BitVec.ofNat 32 (j + 1) * c := by
  simpa [deltas] using forall_mem_deltasFrom_eq_iff 0#32 c xs

/-- The deltas are all the common value exactly when they are all equal: the common value is one of them. -/
theorem forall_mem_deltas_eq_commonOf_iff (tie : TieRule) {xs : List Word} (hne : xs ≠ []) :
    (∀ d ∈ deltas xs, d = commonOf tie xs) ↔ ∃ c : Word, ∀ j (h : j < xs.length), xs[j] = BitVec.ofNat 32 (j + 1) * c := by
  constructor
  · exact fun hall => ⟨_, (forall_mem_deltas_eq_iff _ xs).mp hall⟩
  · rintro ⟨c, hxs⟩ d hd
    have hall := (forall_mem_deltas_eq_iff c xs).mpr hxs
    exact (hall d hd).trans (hall _ (commonOf_mem_deltas tie hne)).symm

/-! ## The bounds -/

theorem encodeList_nil (tie : TieRule) : encodeList tie [] = [] := rfl

/-- Settles O18: the lengths of the three regions (R83), of which the residual region is bounded by the payloads. -/
theorem encodedLengthBounds : Obligations.EncodedLengthBounds := by
  intro tie xs
  refine ⟨?_, fun hne => ?_⟩
  · by_cases hne : xs = []
    · simp [hne, encodeList_nil]
    · rw [maxPrecodedSize_pos (List.length_pos_of_ne_nil hne)]
      exact encodeList_length_le tie hne
  · have hbound := residuals_length_le_of_mem (commonOf_mem_deltas tie hne)
    rw [deltas_length] at hbound
    rw [encodeList_length tie hne]
    refine ⟨by rw [residuals_length], Nat.add_le_add_left hbound _, ?_⟩
    rw [Nat.add_eq_left, residuals_length_eq_zero, forall_mem_deltas_eq_commonOf_iff tie hne]

end Sys2Proof.Machine

end

section
/-! SUPPORT. BitCast, the wrapping operations and the range tests (O8, O9, O10), and the two sizing commands (O20). -/

namespace Sys2Proof.Machine

/-! ## The signed range of a bit field (R7, R114) -/

/-- R7: sign extension of the low `k + 1` bits gives the word back exactly when its signed reading has `k` bits and a sign. -/
theorem signExtend_setWidth_eq_iff (d : Word) {k : Nat} (hk : k < 32) :
    (d.setWidth (k + 1)).signExtend 32 = d ↔ -2 ^ k ≤ d.toInt ∧ d.toInt < 2 ^ k := by
  have hlow : (d.setWidth (k + 1)).toInt = d.toInt.bmod (2 ^ (k + 1)) := by
    rw [BitVec.toInt_setWidth, BitVec.toInt_eq_toNat_bmod, Int.bmod_bmod_of_dvd (pow_dvd_pow 2 hk)]
  rw [← BitVec.toInt_inj, BitVec.toInt_signExtend_of_le hk, hlow, Int.bmod_eq_iff (by positivity)]
  rw [sub_self, and_iff_left (dvd_zero _)]
  push_cast [pow_succ]
  omega

theorem ushiftRight_eq_zero_iff (d : Word) (k : Nat) : d >>> k = 0#32 ↔ d.toNat < 2 ^ k := by
  rw [← BitVec.toNat_inj, BitVec.toNat_ushiftRight, Nat.shiftRight_eq_div_pow]
  exact Nat.div_eq_zero_iff_lt (Nat.two_pow_pos k)

/-- The bits from `k` up are all 1 in the greatest `2 ^ k` words. -/
theorem ushiftRight_eq_ones_iff (d : Word) {k : Nat} (hk : k < 32) :
    d >>> k = BitVec.ofNat 32 (2 ^ (32 - k) - 1) ↔ 2 ^ 32 - 2 ^ k ≤ d.toNat := by
  have hones : (2 ^ (32 - k) - 1) * 2 ^ k = 2 ^ 32 - 2 ^ k := by
    rw [Nat.sub_mul, ← pow_add, Nat.sub_add_cancel hk.le, one_mul]
  have hfit : 2 ^ (32 - k) - 1 < 2 ^ 32 :=
    (Nat.sub_one_lt (Nat.two_pow_pos _).ne').trans_le (Nat.pow_le_pow_right two_pos (Nat.sub_le 32 k))
  have hpos := Nat.two_pow_pos k
  have hlt := d.isLt
  rw [← BitVec.toNat_inj, BitVec.toNat_ushiftRight, Nat.shiftRight_eq_div_pow, BitVec.toNat_ofNat, Nat.mod_eq_of_lt hfit,
    Nat.div_eq_iff hpos, hones]
  omega

/-- R114: the bits from `k` up are all equal exactly when the signed reading has `k` bits and a sign. -/
theorem ushiftRight_eq_zero_or_ones_iff (d : Word) {k : Nat} (hk : k < 32) :
    d >>> k = 0#32 ∨ d >>> k = BitVec.ofNat 32 (2 ^ (32 - k) - 1) ↔ -2 ^ k ≤ d.toInt ∧ d.toInt < 2 ^ k := by
  have hhalf : 2 ^ k ≤ 2 ^ 31 := Nat.pow_le_pow_right two_pos (Nat.le_of_lt_succ hk)
  have hcast : ((2 ^ k : Nat) : Int) = 2 ^ k := Nat.cast_pow 2 k
  have hlt := d.isLt
  rw [ushiftRight_eq_zero_iff, ushiftRight_eq_ones_iff d hk, BitVec.toInt_eq_toNat_cond]
  split <;> omega

/-! ## The range tests (R114) -/

theorem fits8_iff {d : Word} : fits8 d = true ↔ -2 ^ 7 ≤ d.toInt ∧ d.toInt < 2 ^ 7 := by
  rw [fits8, Bool.and_eq_true, decide_eq_true_eq, decide_eq_true_eq, toSigned_eq_toInt]
  omega

theorem fits16_iff {d : Word} : fits16 d = true ↔ -2 ^ 15 ≤ d.toInt ∧ d.toInt < 2 ^ 15 := by
  rw [fits16, Bool.and_eq_true, decide_eq_true_eq, decide_eq_true_eq, toSigned_eq_toInt]
  omega

theorem ofNat_toNat_mod (d : Word) (k : Nat) : BitVec.ofNat k (d.toNat % 2 ^ k) = d.setWidth k := by
  rw [← BitVec.ofNat_toNat]
  exact BitVec.eq_of_toNat_eq (Nat.mod_mod _ _)

theorem sext8_toNat_mod (d : Word) : sext8 (d.toNat % 256) = (d.setWidth 8).signExtend 32 :=
  congrArg (BitVec.signExtend 32) (ofNat_toNat_mod d 8)

theorem sext16_toNat_mod (d : Word) : sext16 (d.toNat % 65536) = (d.setWidth 16).signExtend 32 :=
  congrArg (BitVec.signExtend 32) (ofNat_toNat_mod d 16)

/-- Settles O10: the high bits and sign extension each say that the signed reading is in the range of the test. -/
theorem rangeTestsAreSignExtension : Obligations.RangeTestsAreSignExtension := by
  intro d
  rw [sext8_toNat_mod, sext16_toNat_mod]
  refine ⟨?_, fits8_iff.trans (ushiftRight_eq_zero_or_ones_iff d (k := 7) (by decide)).symm,
    fits8_iff.trans (signExtend_setWidth_eq_iff d (k := 7) (by decide)).symm, ?_,
    fits16_iff.trans (ushiftRight_eq_zero_or_ones_iff d (k := 15) (by decide)).symm,
    fits16_iff.trans (signExtend_setWidth_eq_iff d (k := 15) (by decide)).symm, ?_⟩
  · rw [fits8_iff]
    omega
  · rw [fits16_iff]
    omega
  · rw [fits8_iff, fits16_iff]
    omega

/-! ## BitCast and the wrapping operations (R110 to R113) -/

theorem toUnsigned_toSigned (u : Word) : toUnsigned (toSigned u) = u := by
  rw [toSigned_eq_toInt, toUnsigned, BitVec.ofInt_toInt]

theorem toSigned_toUnsigned (z : Int) : toSigned (toUnsigned z) = z.bmod (2 ^ 32) := by
  rw [toSigned_eq_toInt, toUnsigned, BitVec.toInt_ofInt]

/-- Settles O8: BitCast is the two's complement reading, which is its own representative modulo 2^32. -/
theorem bitCastIsBijection : Obligations.BitCastIsBijection := by
  refine ⟨fun u => ⟨toUnsigned_toSigned u, ?_, ?_⟩, fun z hlow hhigh => ?_⟩
  · rw [toSigned_eq_toInt]
    exact BitVec.le_toInt u
  · rw [toSigned_eq_toInt]
    exact Int.le_of_lt_add_one BitVec.toInt_lt
  · rw [toSigned_toUnsigned]
    exact Int.bmod_eq_of_le hlow (Int.lt_add_one_of_le hhigh)

theorem accumulated_deltaOf (prev cur : Word) : accumulated prev (deltaOf prev cur) = cur := by
  rw [accumulated, deltaOf, add_sub_cancel]

/-- R113: the delta of two words is the wrapped difference of their signed readings. -/
theorem deltaOf_eq_toUnsigned (prev cur : Word) : deltaOf prev cur = toUnsigned (toSigned cur - toSigned prev) := by
  apply BitVec.eq_of_toInt_eq
  rw [deltaOf, BitVec.toInt_sub, toUnsigned, BitVec.toInt_ofInt, toSigned_eq_toInt, toSigned_eq_toInt]

/-- Settles O9: the two operations are subtraction and addition of words. -/
theorem wrappingDeltaRestores : Obligations.WrappingDeltaRestores := by
  intro prev cur
  refine ⟨?_, BitVec.toNat_add prev cur, deltaOf_eq_toUnsigned prev cur, accumulated_deltaOf prev cur⟩
  rw [deltaOf, BitVec.toNat_sub', ← Nat.add_sub_assoc prev.isLt.le]

/-! ## The sizing commands (R116, R117) -/

theorem endOK_endedOK (s : State) (m : Memory) {r : Nat} (hr : r < 2 ^ 64) : EndedOK s (endOK s m r) r := by
  refine ⟨?_, rfl, rfl, rfl, le_rfl, rfl, rfl, rfl, rfl, rfl, rfl, rfl, rfl, rfl, rfl⟩
  rw [endOK_result, BitVec.toNat_ofNat, Nat.mod_eq_of_lt hr]

/-- R5, R115: RESULT has room for the worst-case size of a list of at most NMAX elements. -/
theorem maxPrecodedSize_lt {p : Platform} (hp : p.wellFormed = true) {n : Nat} (hn : n ≤ p.nmax) :
    maxPrecodedSize n < 2 ^ 64 :=
  calc maxPrecodedSize n
    _ ≤ 4 + tagBytes p.nmax + 4 * p.nmax := rangesOf_hi_le .encS hn
    _ < 2 ^ p.aw := nmax_size_lt hp
    _ ≤ 2 ^ 64 := two_pow_aw_le hp

/-- R115, R116, R117: the workspace of a decompression has the worst-case size, so the two commands are one query. -/
theorem exec_sizing {i : Instr} (hi : i = .szp ∨ i = .szw) (s : State) : exec i s = sizeQuery maxPrecodedSize s := by
  rcases hi with rfl | rfl <;> rfl

/-- Settles O20: the query compares COUNT with NMAX, and ends with the size or in BAD_COUNT. -/
theorem sizingCommandsGiveSize : Obligations.SizingCommandsGiveSize := by
  intro s i hp hi
  rw [exec_sizing hi, sizeQuery]
  constructor
  · intro hn
    rw [if_neg (Nat.not_lt.mpr hn)]
    exact ⟨_, rfl, rfl, endOK_endedOK s s.mem (maxPrecodedSize_lt hp hn)⟩
  · intro hn
    rw [if_pos hn]
    exact ⟨_, rfl, rfl⟩

end Sys2Proof.Machine

end

section
/-! SUPPORT. The round trip of the pure functions (O17), alone and around a compressor (O19). -/

namespace Sys2Proof.Machine

/-- R145: decoding the encoding of a list, with its element count, gives the list back. -/
theorem decodeList_encodeList (tie : TieRule) (xs : List Word) : decodeList xs.length (encodeList tie xs) = some xs := by
  by_cases hne : xs = []
  · subst hne
    rfl
  · rw [decodeList, parseStream_encodeList tie hne]
    exact congrArg some (streamWords_streamOf_deltas _ hne)

/-- Settles O17: against the converse, a stream of one element whose header is not its delta, where `encode` puts the delta. -/
theorem decodeEncodeRoundTrip : Obligations.DecodeEncodeRoundTrip :=
  ⟨decodeList_encodeList, .lowest, 1, [0, 0, 0, 0, 1, 5], [5], by decide, by decide⟩

/-- Settles O19: the compressor gives the stream back or fails, and the stream decodes to the list. -/
theorem roundTripThroughCompressor : Obligations.RoundTripThroughCompressor := by
  rintro fc tie xs cap ⟨-, hbound, hlossless, hlength⟩
  refine ⟨fun hcap => ?_, fun hwithin hcap => ?_, hbound _, fun hmono => ?_⟩
  · rw [hlossless _ cap hcap]
    exact decodeList_encodeList tie xs
  · refine Option.eq_none_iff_forall_ne_some.mpr fun bs hbs => ?_
    have hfits := hwithin _ cap bs hbs
    rw [hlength _ cap bs hbs] at hfits
    exact Nat.not_le.mpr hcap hfits
  · exact (hbound _).trans (hmono _ _ (encodedLengthBounds tie xs).1)

end Sys2Proof.Machine

end

section
/-! SUPPORT. The histogram as a map: its counts are those of the list (O13), its modes are the words that no word outnumbers
(O14, O15), and the order of the list leaves no trace in it (O16). -/

namespace Sys2Proof.Machine

/-! ## The counts (R134) -/

/-- R35: the words of a histogram stand in rising signed order, each once. -/
def HistSorted (h : List (Word × Nat)) : Prop := (h.map Prod.fst).Pairwise fun u v => toSigned u < toSigned v

theorem histSorted_nil : HistSorted [] := List.Pairwise.nil

theorem histSorted_cons {e : Word × Nat} {h : List (Word × Nat)} :
    HistSorted (e :: h) ↔ (∀ v ∈ h.map Prod.fst, toSigned e.1 < toSigned v) ∧ HistSorted h := by
  rw [HistSorted, List.map_cons, List.pairwise_cons, HistSorted]

theorem toSigned_inj {u v : Word} : toSigned u = toSigned v ↔ u = v := by
  rw [toSigned_eq_toInt, toSigned_eq_toInt, BitVec.toInt_inj]

/-- Counting a word keeps the order. -/
theorem histSorted_histBump {h : List (Word × Nat)} (hs : HistSorted h) (d : Word) : HistSorted (histBump h d) := by
  fun_induction histBump h d with
  | case1 d => simp [HistSorted]
  | case2 c h d => exact hs
  | case3 u c h d hne hlt =>
    refine histSorted_cons.mpr ⟨fun v hv => ?_, hs⟩
    rcases List.mem_cons.mp hv with rfl | hv
    · exact hlt
    · exact hlt.trans ((histSorted_cons.mp hs).1 v hv)
  | case4 u c h d hne hle ih =>
    obtain ⟨hlow, hs⟩ := histSorted_cons.mp hs
    refine histSorted_cons.mpr ⟨fun v hv => ?_, ih hs⟩
    rcases (mem_words_histBump h d v).mp hv with rfl | hv
    · exact lt_of_le_of_ne (not_lt.mp hle) fun he => hne (toSigned_inj.mp he.symm)
    · exact hlow v hv

theorem histCount_eq_zero {h : List (Word × Nat)} {v : Word} (hv : v ∉ h.map Prod.fst) : histCount h v = 0 := by
  induction h with
  | nil => rfl
  | cons e h ih =>
    obtain ⟨hne, hv⟩ : v ≠ e.1 ∧ v ∉ h.map Prod.fst := by simpa using hv
    rw [histCount, if_neg hne, ih hv]

/-- R134: counting a word adds one to its own count and to no other. -/
theorem histCount_histBump {h : List (Word × Nat)} (hs : HistSorted h) (d v : Word) :
    histCount (histBump h d) v = histCount h v + if v = d then 1 else 0 := by
  fun_induction histBump h d with
  | case1 d => simp [histCount]
  | case2 c h d =>
    simp only [histCount]
    split_ifs <;> rfl
  | case3 u c h d hne hlt =>
    have hnew : histCount ((u, c) :: h) d = 0 := by
      refine histCount_eq_zero fun hmem => ?_
      rcases List.mem_cons.mp hmem with he | hmem
      · exact hne he
      · exact lt_asymm hlt ((histSorted_cons.mp hs).1 d hmem)
    rw [histCount]
    split_ifs with hv
    · rw [hv, hnew]
    · rfl
  | case4 u c h d hne hle ih =>
    rw [histCount, histCount, ih (histSorted_cons.mp hs).2]
    split_ifs with hu hd
    · exact absurd (hd.symm.trans hu) hne
    · rfl
    · rfl
    · rfl

theorem histSorted_histOf (ds : List Word) : HistSorted (histOf ds) :=
  List.foldlRecOn ds histBump histSorted_nil fun _ hs d _ => histSorted_histBump hs d

theorem histCount_foldl_histBump {h : List (Word × Nat)} (hs : HistSorted h) (ds : List Word) (v : Word) :
    histCount (ds.foldl histBump h) v = histCount h v + ds.count v := by
  induction ds generalizing h with
  | nil => rfl
  | cons d ds ih =>
    rw [List.foldl_cons, ih (histSorted_histBump hs d), histCount_histBump hs, List.count_cons]
    simp only [beq_iff_eq, eq_comm (a := v)]
    omega

/-- R134: the histogram of a list counts its elements. -/
@[simp] theorem histCount_histOf (ds : List Word) (v : Word) : histCount (histOf ds) v = ds.count v := by
  rw [histOf, histCount_foldl_histBump histSorted_nil, histCount, Nat.zero_add]

/-- Settles O13: each element adds one to the count of its own word. -/
theorem histogramCountsDeltas : Obligations.HistogramCountsDeltas := histCount_histOf

/-! ## The modes (R135) -/

theorem histCount_le_histTop (h : List (Word × Nat)) (v : Word) : histCount h v ≤ histTop h := by
  induction h with
  | nil => exact Nat.zero_le _
  | cons e h ih =>
    rw [histCount]
    split_ifs
    · exact le_max_left _ _
    · exact ih.trans (le_max_right _ _)

/-- In a histogram each word is listed once, with its count. -/
theorem histCount_of_mem {h : List (Word × Nat)} (hs : HistSorted h) {v : Word} {c : Nat} (hmem : (v, c) ∈ h) :
    histCount h v = c := by
  induction h with
  | nil => cases hmem
  | cons e h ih =>
    obtain ⟨hlow, hs⟩ := histSorted_cons.mp hs
    rcases List.mem_cons.mp hmem with rfl | hmem
    · exact if_pos rfl
    · have hne : v ≠ e.1 := by
        rintro rfl
        exact lt_irrefl _ (hlow _ (List.mem_map.mpr ⟨_, hmem, rfl⟩))
      rw [histCount, if_neg hne, ih hs hmem]

/-- R135: the modes of the histogram of a list are the elements that no word outnumbers. -/
theorem mem_histModes_histOf {ds : List Word} {v : Word} :
    v ∈ histModes (histOf ds) ↔ v ∈ ds ∧ ∀ u, ds.count u ≤ ds.count v := by
  have hcount : ∀ e ∈ histOf ds, ds.count e.1 = e.2 := fun e he =>
    (histCount_histOf ds e.1).symm.trans (histCount_of_mem (histSorted_histOf ds) he)
  rw [mem_histModes]
  constructor
  · rintro ⟨e, he, htop, rfl⟩
    refine ⟨(mem_words_histOf ds e.1).mp (List.mem_map_of_mem he), fun u => ?_⟩
    rw [hcount e he, htop, ← histCount_histOf]
    exact histCount_le_histTop _ u
  · rintro ⟨hv, hmost⟩
    obtain ⟨e, he, rfl⟩ := List.mem_map.mp ((mem_words_histOf ds v).mpr hv)
    obtain ⟨m, hm, htop⟩ := exists_count_eq_histTop (List.ne_nil_of_mem he)
    refine ⟨e, he, le_antisymm ?_ ?_, rfl⟩
    · rw [← hcount e he, ← histCount_histOf]
      exact histCount_le_histTop _ _
    · rw [← htop, ← hcount m hm, ← hcount e he]
      exact hmost m.1

theorem histOf_ne_nil {ds : List Word} (hne : ds ≠ []) : histOf ds ≠ [] := by
  obtain ⟨d, hd⟩ := List.exists_mem_of_ne_nil ds hne
  intro hnil
  simpa [hnil] using (mem_words_histOf ds d).mpr hd

/-- Settles O14: every tie rule takes one of the modes. -/
theorem commonValueIsMode : Obligations.CommonValueIsMode :=
  fun tie _ hne => mem_histModes_histOf.mp (tieChoice_mem_histModes tie (histOf_ne_nil hne))

theorem lowestSigned_le {vs : List Word} {v : Word} (hv : v ∈ vs) : toSigned (lowestSigned vs) ≤ toSigned v := by
  fun_induction lowestSigned vs with
  | case1 => cases hv
  | case2 u => exact (congrArg toSigned (List.mem_singleton.mp hv)).ge
  | case3 u vs _ hle ih =>
    rcases List.mem_cons.mp hv with rfl | hv
    · exact le_rfl
    · exact hle.trans (ih hv)
  | case4 u vs _ hlt ih =>
    rcases List.mem_cons.mp hv with rfl | hv
    · exact (not_le.mp hlt).le
    · exact ih hv

/-- Settles O15: LOWEST takes the smallest of the modes. -/
theorem lowestTakesSmallestMode : Obligations.LowestTakesSmallestMode := by
  intro ds hne
  obtain ⟨hmem, hmost⟩ := commonValueIsMode .lowest ds hne
  exact ⟨hmem, hmost, fun v hv hv' => lowestSigned_le (mem_histModes_histOf.mpr ⟨hv, hv'⟩)⟩

/-! ## The order of the elements (R135) -/

section comparisons
variable {d v : Word} (c : Nat) (h : List (Word × Nat))

theorem histBump_same : histBump ((v, c) :: h) v = (v, c + 1) :: h := if_pos rfl

theorem histBump_below (hlt : toSigned d < toSigned v) : histBump ((v, c) :: h) d = (d, 1) :: (v, c) :: h := by
  rw [histBump, if_neg (fun he => hlt.ne (congrArg toSigned he)), if_pos hlt]

theorem histBump_above (hlt : toSigned v < toSigned d) : histBump ((v, c) :: h) d = (v, c) :: histBump h d := by
  rw [histBump, if_neg (fun he => hlt.ne' (congrArg toSigned he)), if_neg hlt.asymm]

end comparisons

theorem histBump_histBump_of_lt (h : List (Word × Nat)) {a b : Word} (hab : toSigned a < toSigned b) :
    histBump (histBump h a) b = histBump (histBump h b) a := by
  induction h with
  | nil => exact (histBump_above 1 [] hab).trans (histBump_below 1 [] hab).symm
  | cons e h ih =>
    obtain ⟨v, c⟩ := e
    rcases lt_trichotomy (toSigned a) (toSigned v) with hav | hav | hav
    · rw [histBump_below c h hav, histBump_above 1 _ hab]
      rcases lt_trichotomy (toSigned b) (toSigned v) with hbv | hbv | hbv
      · rw [histBump_below c h hbv, histBump_below 1 _ hab]
      · rw [toSigned_inj.mp hbv, histBump_same, histBump_below _ h hav]
      · rw [histBump_above c h hbv, histBump_below c _ hav]
    · rw [← toSigned_inj.mp hav, histBump_same, histBump_above _ h hab, histBump_above c h hab, histBump_same]
    · rw [histBump_above c h hav, histBump_above c h (hav.trans hab), histBump_above c _ (hav.trans hab),
        histBump_above c _ hav, ih]

/-- Two words counted in either order leave the same list. -/
theorem histBump_right_comm (h : List (Word × Nat)) (a b : Word) :
    histBump (histBump h a) b = histBump (histBump h b) a := by
  rcases lt_trichotomy (toSigned a) (toSigned b) with hab | hab | hab
  · exact histBump_histBump_of_lt h hab
  · rw [toSigned_inj.mp hab]
  · exact (histBump_histBump_of_lt h hab).symm

/-- Settles O16: the lists are the same up to order, and counting does not depend on it. -/
theorem commonValueIgnoresOrder : Obligations.CommonValueIgnoresOrder := by
  intro tie ds ds' hcount
  have hperm : ds.Perm ds' := List.perm_iff_count.mpr hcount
  have hhist : histOf ds = histOf ds' := hperm.foldl_eq' (fun a _ b _ h => histBump_right_comm h a b) []
  rw [hhist]

end Sys2Proof.Machine

end

section
/-! SUPPORT. ENC and DEC at their checks (O24), and ENC of a host that has done its duties (O21). -/

namespace Sys2Proof.Machine

/-- R240: the checks of ENC and DEC, in their order, and that operands which fail none of them are legal. -/
theorem exec_codec_checks (s : State) {i : Instr} (hi : isCodec i = true) :
    (s.plat.nmax < s.inst.count.toNat ∧ exec i s = .next (endFault s .badCount)) ∨
    (s.inst.count.toNat = 0 ∧ exec i s = .next (endOK s s.mem 0)) ∨
    (0 < s.inst.count.toNat ∧ s.inst.count.toNat ≤ s.plat.nmax ∧ exec i s = .next (endFault s .badRange)) ∨
    OperandsLegal i s := by
  rcases exec_codec_cases s i hi with h | h | ⟨hn, hmax, -, e⟩ | ⟨hl, -⟩ | ⟨hl, -⟩ | ⟨hl, -⟩
  · exact .inl h
  · exact .inr (.inl h)
  · exact .inr (.inr (.inl ⟨hn, hmax, e⟩))
  · exact .inr (.inr (.inr hl))
  · exact .inr (.inr (.inr hl))
  · exact .inr (.inr (.inr hl))

/-- Settles O24: the premises of the three clauses exclude each other and legal operands. -/
theorem codecChecksInOrder : Obligations.CodecChecksInOrder := by
  intro s i hi
  rcases exec_codec_checks s hi with ⟨hmax, e⟩ | ⟨hn, e⟩ | ⟨hn, hmax, e⟩ | ⟨hn, hmax, hsrc, hdst⟩
  · exact ⟨fun _ => ⟨_, e, rfl⟩, fun _ => by omega, fun _ _ => by omega⟩
  · exact ⟨fun _ => by omega, fun _ => ⟨_, e, rfl, endOK_endedOK s s.mem (Nat.two_pow_pos 64)⟩, fun _ _ => by omega⟩
  · exact ⟨fun _ => by omega, fun _ => by omega, fun _ _ _ => ⟨_, e, rfl⟩⟩
  · exact ⟨fun _ => by omega, fun _ => by omega, fun _ _ _ => by omega⟩

/-- R58, R141: RESULT has room for the length of the stream of at most NMAX words. -/
theorem encodeList_length_lt {p : Platform} (hp : p.wellFormed = true) {xs : List Word} (hmax : xs.length ≤ p.nmax) :
    (encodeList p.tie xs).length < 2 ^ 64 :=
  (encodedLengthBounds p.tie xs).1.trans_lt (maxPrecodedSize_lt hp hmax)

/-- Settles O21: ENC writes the encoding at DST and nothing else, and RESULT has room for its length. -/
theorem encWritesEncodedStream : Obligations.EncWritesEncodedStream := by
  rintro s i xs _ hi hp hm hxs rfl hrun
  obtain ⟨m, he, -, hread, hother⟩ := exec_enc_of_runnable hi hm hxs hrun
  have hlen : xs.length = s.inst.count.toNat := by simp [hxs, Memory.words]
  have hmax : xs.length ≤ s.plat.nmax := hlen ▸ hrun.1.2.1
  exact ⟨_, he, endOK_endedOK s m (encodeList_length_lt hp hmax), hread, fun a ha => hother a (within_false_iff.mp ha)⟩

end Sys2Proof.Machine

end

section
/-! SUPPORT. The element records at a refused byte (O33), and the step that runs them (O51). -/

namespace Sys2Proof.Machine

/-! ## Refused bytes of an element -/

/-- A record that has been executed had its payload and its output word admitted. -/
theorem decRecord_admitted {t : Tag} {p : Platform} {m m' : Memory} {w w' : Work}
    (h : decRecord (unpackOf t) p m w = .ok (m', w')) :
    allAdmitted p w.resCur (resLen t) ∧ allAdmitted p (w.dst + 4 * w.i) 4 := by
  unfold decRecord at h
  split at h
  · cases h
  · next hu =>
    obtain ⟨rfl, hpay⟩ := unpackOf_ok hu
    obtain ⟨-, -, hout⟩ := accumulate_ok h
    exact ⟨hpay, hout⟩

/-- A record that has been packed had its payload admitted and, where a group ends, the tag byte. -/
theorem emitRecord_admitted {t : Tag} {p : Platform} {m m' : Memory} {w w' : Work}
    (h : emitRecord (packOf t) p m w = .ok (m', w')) :
    allAdmitted p w.resCur (resLen t) ∧ (w.endsGroup → admits p (w.dst + 4 + w.i / 4) = true) := by
  unfold emitRecord at h
  split at h
  · cases h
  · next hp =>
    obtain ⟨-, rfl, hpay⟩ := packOf_ok hp
    refine ⟨hpay, fun hg => ?_⟩
    obtain ⟨-, -, -, htag⟩ | ⟨hng, -⟩ := flushTag_ok h
    · exact htag
    · exact absurd hg hng

theorem not_allAdmitted {p : Platform} {base len : Nat} (h : someByteRefused p base len) : ¬ allAdmitted p base len := by
  obtain ⟨a, hlo, hhi, ha⟩ := h
  intro hall
  rw [hall a hlo hhi] at ha
  cases ha

/-- R236, R237: the fault entry at a refused address. -/
theorem endAccessFault_ended (s : State) {touched : Nat → Bool} {a : Nat} (ht : touched a = true)
    (ha : admits s.plat a = false) (out len : Nat) : EndedAccessFault s (endAccessFault s a out len) touched :=
  ⟨rfl, rfl, rfl, rfl, ⟨rfl, rfl, rfl, rfl, rfl, rfl, rfl, rfl, rfl⟩, a, ht, ha, rfl⟩

/-- R237: an element with a refused access ends its command in ACCESS_FAULT, with only the output range unspecified. -/
theorem afterRecord_refused {s : State} {w : Work} {x : Except Nat (Memory × Work)} {touched : Nat → Bool}
    (hno : ∀ m w', x ≠ .ok (m, w')) (herr : ∀ a, x = .error a → touched a = true ∧ admits s.plat a = false) :
    EndedAccessFault s (afterRecord s w x) touched ∧
      ∀ c, within w.dst w.outLen c = false → (afterRecord s w x).mem.read c = s.mem.read c := by
  cases x with
  | ok y => exact absurd rfl (hno y.1 y.2)
  | error a =>
    obtain ⟨ht, ha⟩ := herr a rfl
    exact ⟨endAccessFault_ended s ht ha _ _, fun c hc => read_havoc_other _ _ _ _ (within_false_iff.mp hc)⟩

theorem exec_ofTag_dec (t : Tag) {s : State} {w : Work} (hw : s.inst.work = some w) (hi : w.i < w.n) (hp : w.pass = .dec) :
    exec (Instr.ofTag t) s = .next (afterRecord s w (decRecord (unpackOf t) s.plat s.mem w)) := by
  simp only [exec_ofTag, execRecord, hw, hi, if_true, hp]

theorem exec_ofTag_emit (t : Tag) {s : State} {w : Work} (hw : s.inst.work = some w) (hi : w.i < w.n) (hp : w.pass = .emit) :
    exec (Instr.ofTag t) s = .next (afterRecord s w (emitRecord (packOf t) s.plat s.mem w)) := by
  simp only [exec_ofTag, execRecord, hw, hi, if_true, hp]

/-- R171 to R173, R201: a record in the decode pass with a refused byte of its payload or of its output word. -/
theorem exec_dec_refused (t : Tag) {s : State} {w : Work} (hw : s.inst.work = some w) (hi : w.i < w.n) (hp : w.pass = .dec)
    (h : someByteRefused s.plat w.resCur (resLen t) ∨ someByteRefused s.plat (w.dst + 4 * w.i) 4) :
    ∃ u, exec (Instr.ofTag t) s = .next u ∧
      (EndedAccessFault s u fun a => within w.resCur (resLen t) a || within (w.dst + 4 * w.i) 4 a) ∧
      ∀ c, within w.dst (4 * w.n) c = false → u.mem.read c = s.mem.read c := by
  have hout : w.outLen = 4 * w.n := by rw [Work.outLen, hp]
  rw [← hout]
  refine ⟨_, exec_ofTag_dec t hw hi hp, afterRecord_refused (fun m w' he => ?_) fun a he => ?_⟩
  · obtain ⟨hpay, hword⟩ := decRecord_admitted he
    exact h.elim (not_allAdmitted · hpay) (not_allAdmitted · hword)
  · obtain ⟨hplace, ha⟩ := decRecord_error he
    rw [Bool.or_eq_true, within_true_iff, within_true_iff]
    exact ⟨hplace, ha⟩

/-- R146, R165 to R168: a record in the emission pass with a refused byte of its payload or a refused tag byte. -/
theorem exec_emit_refused (t : Tag) {s : State} {w : Work} (hw : s.inst.work = some w) (hi : w.i < w.n) (hp : w.pass = .emit)
    (h : someByteRefused s.plat w.resCur (resLen t) ∨ w.endsGroup ∧ admits s.plat (w.dst + 4 + w.i / 4) = false) :
    ∃ u, exec (Instr.ofTag t) s = .next u ∧
      (EndedAccessFault s u fun a => within w.resCur (resLen t) a || within (w.dst + 4 + w.i / 4) 1 a) ∧
      ∀ c, within w.dst (maxPrecodedSize w.n) c = false → u.mem.read c = s.mem.read c := by
  have hout : w.outLen = maxPrecodedSize w.n := by rw [Work.outLen, hp]
  rw [← hout]
  refine ⟨_, exec_ofTag_emit t hw hi hp, afterRecord_refused (fun m w' he => ?_) fun a he => ?_⟩
  · obtain ⟨hpay, htag⟩ := emitRecord_admitted he
    refine h.elim (not_allAdmitted · hpay) fun ⟨hg, hr⟩ => ?_
    rw [htag hg] at hr
    cases hr
  · obtain ⟨hplace, ha⟩ := emitRecord_error he
    rw [Bool.or_eq_true, within_true_iff, within_true_iff]
    exact ⟨hplace.imp_right fun e => by omega, ha⟩

/-- Settles O33: the record of a tag, in either pass. -/
theorem refusedPayloadEndsCommand : Obligations.RefusedPayloadEndsCommand := by
  intro s w i t hit hw hi
  obtain rfl : i = Instr.ofTag t := by
    simp only [List.mem_cons, Prod.mk.injEq, List.not_mem_nil, or_false] at hit
    rcases hit with ⟨rfl, rfl⟩ | ⟨rfl, rfl⟩ | ⟨rfl, rfl⟩ | ⟨rfl, rfl⟩ <;> rfl
  exact ⟨fun hp => exec_dec_refused t hw hi hp, fun hp => exec_emit_refused t hw hi hp⟩

/-! ## The step of an element (R137, R196) -/

/-- With no action of the host pending, a step of a running command is a part of it (log 11). -/
theorem step_eq_advance {s : State} {w : Work} (hw : s.inst.work = some w) (hq : s.queue = []) : step s = advance s w := by
  simp only [step, hw, runningStep, hq]

/-- R169: the record that the decoder reads from one byte is that of the tag in the lane. -/
theorem decodeBytes_lane {j : Nat} {b : Byte} {i : Instr} {rest : List Byte}
    (h : decodeBytes (.lane j) [b] = .ok (i, rest)) : i = Instr.ofTag (Tag.ofCode (tagLane b j)) := by
  cases h
  rfl

/-- R137, R161: an admitted element gives its delta and the class of the delta. -/
theorem fetchDelta_of_admitted {p : Platform} {m : Memory} {w : Work} (h : allAdmitted p (w.src + 4 * w.i) 4) :
    fetchDelta p m w = .ok { w with
      delta := deltaOf w.prev (m.word w.src w.i)
      prev := m.word w.src w.i
      tag := classify w.common (deltaOf w.prev (m.word w.src w.i)) } := by
  rw [fetchDelta, readInput_of_admitted h]

/-- Settles O51: the part fetches the tag or the delta, and runs the record of the tag or of the class. -/
theorem elementStepRunsRecord : Obligations.ElementStepRunsRecord := by
  intro s w hw hq hi
  rw [step_eq_advance hw hq]
  refine ⟨fun hp hadm i rest hdec => ?_, fun hp hadm => ?_⟩
  · refine ⟨_, decodeBytes_lane hdec, ?_⟩
    rw [decodeBytes_lane hdec]
    simp only [advance, hp, hi, if_true, fetchTag_of_admitted (hadm _ le_rfl (Nat.lt_succ_self _)), runElement]
  · simp only [advance, hp, hi, if_true, fetchDelta_of_admitted hadm, runElement, deltaOf]

end Sys2Proof.Machine

end

section
/-! SUPPORT. Classification (O11, O12) and the four element records when their accesses are admitted: executed in the decode
pass (O28 to O31) and packed in the emission pass (O32). -/

namespace Sys2Proof.Machine

/-! ## Classification (R161, R174) -/

/-- Settles O11: the arms of `classify` in their order, with the range tests read as ranges (O10). -/
theorem classifyTakesNarrowest : Obligations.ClassifyTakesNarrowest := by
  intro common d
  obtain ⟨h8, -, -, h16, -, -, hsub⟩ := rangeTestsAreSignExtension d
  rw [← h8, ← h16]
  unfold classify
  split_ifs with hcom hfits8 hfits16
  · simp [hcom]
  · simp [hcom, hfits8, hsub hfits8]
  · simp [hcom, hfits8, hfits16]
  · simp [hcom, mt hsub hfits16, hfits16]

/-- Settles O12: `recordOf` is the record of classification and payload, and it carries its delta. -/
theorem packingLosesNothing : Obligations.PackingLosesNothing := recDelta_recordOf

/-! ## Payload bytes (R8, R162) -/

/-- R8: the first of several bytes is the least significant. -/
theorem ofNat_unle_cons (n : Nat) (b : Byte) (bs : List Byte) :
    BitVec.ofNat (n + 8) (unle (b :: bs)) = BitVec.ofNat n (unle bs) ++ b := by
  apply BitVec.eq_of_toNat_eq
  have hhigh : (b.toNat + 256 * unle bs) / 256 = unle bs := by omega
  rw [BitVec.toNat_append, ← Nat.shiftLeft_add_eq_or_of_lt b.isLt, Nat.shiftLeft_eq, BitVec.toNat_ofNat,
    BitVec.toNat_ofNat, unle, Nat.pow_add', Nat.mod_mul, hhigh]
  omega

/-- R162: a payload is the low bytes of the delta. -/
theorem payload_eq_take (t : Tag) (d : Word) : payload t d = (leBytes 4 d.toNat).take (resLen t) := by cases t <;> rfl

theorem ofNat_unle_singleton (b : Byte) : BitVec.ofNat 8 (unle [b]) = b := by simp [unle]

theorem sext8_unle (b : Byte) : sext8 (unle [b]) = b.signExtend 32 := by rw [sext8, ofNat_unle_singleton]

theorem sext16_unle (lo hi : Byte) : sext16 (unle [lo, hi]) = (hi ++ lo).signExtend 32 := by
  rw [sext16, ofNat_unle_cons 8, ofNat_unle_singleton]

theorem ofNat_unle_four (a b c d : Byte) : BitVec.ofNat 32 (unle [a, b, c, d]) = d ++ c ++ b ++ a := by
  rw [ofNat_unle_cons 24, ofNat_unle_cons 16, ofNat_unle_cons 8, ofNat_unle_singleton]

/-! ## The decode pass (R170 to R173, R196) -/

/-- R170 to R173, R196, R201: a record in the decode pass, its accesses admitted or a byte of its payload refused. -/
theorem exec_dec_record (t : Tag) {s : State} {w : Work} {d : Word} (hw : s.inst.work = some w) (hp : w.pass = .dec)
    (hi : w.i < w.n)
    (hd : deltaOfPayload w.common (unle (seenBytes s.plat s.mem w.view w.src w.resCur (resLen t))) t = d) :
    (allAdmitted s.plat w.resCur (resLen t) → allAdmitted s.plat (w.dst + 4 * w.i) 4 →
      exec (Instr.ofTag t) s = .next { s with
        mem := s.mem.writeBytes (w.dst + 4 * w.i) (leBytes 4 (w.acc + d).toNat)
        inst := { s.inst with work := some { w with
          tag := t, delta := d, resCur := w.resCur + resLen t, acc := w.acc + d, i := w.i + 1 } } }) ∧
    (someByteRefused s.plat w.resCur (resLen t) →
      ∃ u, exec (Instr.ofTag t) s = .next u ∧
        EndedAccessFault s u fun a => within w.resCur (resLen t) a || within (w.dst + 4 * w.i) 4 a) := by
  refine ⟨fun hpay hout => ?_, fun hr => ?_⟩
  · rw [exec_ofTag_dec t hw hi hp, decRecord, unpackOf_of_admitted hpay, hd]
    simp only [accumulate_of_admitted (w := { w with tag := t, delta := d, resCur := w.resCur + resLen t }) hout]
    rfl
  · obtain ⟨u, he, hended, -⟩ := exec_dec_refused t hw hi hp (.inl hr)
    exact ⟨u, he, hended⟩

/-- Settles O28: T.COM has no payload byte to be admitted, and its delta is the common value. -/
theorem comRecordAddsCommonValue : Obligations.ComRecordAddsCommonValue := by
  intro s w hw hp hi
  exact (exec_dec_record .com hw hp hi rfl).1 fun _ hlo hhi => absurd hhi hlo.not_gt

/-- Settles O29: the payload is one byte. -/
theorem s8RecordAddsSignedByte : Obligations.S8RecordAddsSignedByte := by
  rintro s w d hw hp hi rfl
  exact exec_dec_record .s8 hw hp hi (sext8_unle _)

/-- Settles O30: the payload is two bytes. -/
theorem s16RecordAddsSignedHalf : Obligations.S16RecordAddsSignedHalf := by
  rintro s w d hw hp hi rfl
  exact exec_dec_record .s16 hw hp hi (sext16_unle _ _)

/-- Settles O31: the payload is four bytes. -/
theorem s32RecordAddsWord : Obligations.S32RecordAddsWord := by
  rintro s w d hw hp hi rfl
  exact exec_dec_record .s32 hw hp hi (ofNat_unle_four _ _ _ _)

/-! ## The emission pass (R163 to R168) -/

/-- R88: the four records are those that the four tags select. -/
theorem record_eq_ofTag :
    ∀ r ∈ [(Instr.tCom, Tag.com), (.tS8, .s8), (.tS16, .s16), (.tS32, .s32)], r.1 = Instr.ofTag r.2 := by
  decide

/-- R163: inserting a tag adds its number at the lane's power of 4. -/
theorem insertTag_eq (b : Byte) (t : Tag) (j : Nat) :
    insertTag b t j = b ||| BitVec.ofNat 8 (t.code.toNat * 4 ^ j) := by
  have hshift : t.code.setWidth 8 <<< (2 * j) = BitVec.ofNat 8 (t.code.toNat * 4 ^ j) := by
    apply BitVec.eq_of_toNat_eq
    rw [BitVec.toNat_shiftLeft, Nat.shiftLeft_eq, Nat.pow_mul, BitVec.toNat_ofNat,
      BitVec.toNat_setWidth_of_le (by decide)]
  rw [insertTag, hshift]

/-- R168: the end of an element whose tag byte is admitted where its group ends. -/
theorem flushTag_of_admitted {p : Platform} {m : Memory} {w : Work}
    (h : w.endsGroup → admits p (w.dst + 4 + w.i / 4) = true) :
    flushTag p m w =
      .ok (if w.endsGroup then m.writeBytes (w.dst + 4 + w.i / 4) [w.tagByte] else m,
           { w with tagByte := if w.endsGroup then 0#8 else w.tagByte, i := w.i + 1 }) := by
  unfold flushTag
  by_cases hg : w.endsGroup
  · have hwrite : memWrite p m (w.dst + 4 + w.i / 4) [w.tagByte] = .ok (m.writeBytes (w.dst + 4 + w.i / 4) [w.tagByte]) :=
      memWrite_of_admitted fun a hlo hhi => by
        rw [show a = w.dst + 4 + w.i / 4 from Nat.le_antisymm (Nat.le_of_lt_succ hhi) hlo]
        exact h hg
    simp only [if_pos hg, hwrite]
  · simp only [if_neg hg]

/-- Settles O32: the record of a tag packs its payload, and then ends its element. -/
theorem recordsPackTagAndPayload : Obligations.RecordsPackTagAndPayload := by
  intro s w i t hit hw hp hi hpay htag
  obtain rfl : i = Instr.ofTag t := record_eq_ofTag _ hit
  rw [exec_ofTag_emit t hw hi hp, emitRecord, packOf_of_admitted hpay, ← payload_eq_take, ← insertTag_eq]
  simp only [flushTag_of_admitted (w := { w.addTag t with resCur := w.resCur + resLen t }) htag]
  rfl

end Sys2Proof.Machine

end

section
/-! SUPPORT. The decoder on any bytes that are long enough (O7), and DEC on the stream it finds (O22). -/

namespace Sys2Proof.Machine

/-! ## Any bytes decode (R200) -/

/-- R90, R91: a record is there for each tag when four bytes are there for each. -/
theorem takeRecs_of_length {ts : List Tag} {res : List Byte} (h : 4 * ts.length ≤ res.length) :
    ∃ rs rest, takeRecs ts res = some (rs, rest) := by
  induction ts generalizing res with
  | nil => exact ⟨[], res, rfl⟩
  | cons t ts ih =>
    have hlen := resLen_le t
    rw [List.length_cons] at h
    obtain ⟨rs, rest, hrs⟩ := ih (res := res.drop (resLen t)) (by rw [List.length_drop]; omega)
    refine ⟨⟨t, res.take (resLen t)⟩ :: rs, rest, ?_⟩
    rw [takeRecs, takeRec, if_pos (by omega)]
    simp only [hrs]

/-- R200: every byte sequence of the worst-case size has a stream of `n` elements at its head. -/
theorem parseStream_of_length {n : Nat} {bs : List Byte} (hn : 0 < n) (h : 4 + tagBytes n + 4 * n ≤ bs.length) :
    ∃ st rest, parseStream n bs = .ok (st, rest) := by
  obtain ⟨rs, rest, hrs⟩ := takeRecs_of_length (ts := unpackTags n ((bs.drop 4).take (tagBytes n)))
    (res := bs.drop (4 + tagBytes n)) (by simp only [unpackTags, List.length_map, List.length_range, List.length_drop]; omega)
  refine ⟨⟨some (BitVec.ofNat 32 (unle (bs.take 4))), rs⟩, rest, ?_⟩
  rw [parseStream, if_neg hn.ne', if_neg (by omega)]
  simp only [hrs]

/-- R190: a stream stands for one word per element. -/
theorem streamWords_length_of_parseStream {n : Nat} {bs rest : List Byte} {st : Stream} (hn : 0 < n)
    (h : parseStream n bs = .ok (st, rest)) : (streamWords st).length = n := by
  obtain ⟨hhead, hlen, -⟩ := parseStream_ok hn h
  simp only [streamWords, hhead, sumsFrom_length, List.length_map, hlen]

/-- Settles O7: no payload is longer than four bytes, so the bytes hold as many as their tags dictate. -/
theorem decoderIsTotal : Obligations.DecoderIsTotal := by
  intro n bs hn hlong
  obtain ⟨st, rest, hparse⟩ := parseStream_of_length hn hlong
  refine ⟨streamWords st, ?_, streamWords_length_of_parseStream hn hparse⟩
  rw [decodeList, hparse]

/-! ## DEC on the stream it finds (R190, R191, R197) -/

/-- R97: of the bytes DEC finds, those before what parsing leaves over decide the stream, whatever stands after them. -/
theorem parseStream_seenBytes_append {p : Platform} {m : Memory} {v src n size : Nat} {st : Stream} {rest : List Byte}
    (h : parseStream n (seenBytes p m v src src size) = .ok (st, rest)) (extra : List Byte) :
    parseStream n (seenBytes p m v src src (size - rest.length) ++ extra) = .ok (st, extra) := by
  obtain ⟨u, hu⟩ := parseStream_ok_suffix h
  have hlen : u.length + rest.length = size := by simpa using congrArg List.length hu
  have htake : seenBytes p m v src src (size - rest.length) = u := by
    rw [← seenBytes_take _ _ _ _ _ size _ (Nat.sub_le _ _), ← hu, List.take_left' (by omega)]
  rw [← hu] at h
  rw [htake]
  exact parseStream_of_prefix h

/-- 93 U1: where the bytes of the stream DEC finds are declared, memory holds that stream. -/
theorem parseStream_readBytes_of_declared {p : Platform} {m : Memory} {v src n size : Nat} {st : Stream} {rest : List Byte}
    (h : parseStream n (seenBytes p m v src src size) = .ok (st, rest)) (hdecl : allDeclared p src (size - rest.length)) :
    parseStream n (m.readBytes src size) = .ok (st, m.readBytes (src + (size - rest.length)) rest.length) := by
  have hle : rest.length ≤ size := by simpa using (parseStream_ok_suffix h).length_le
  have hsplit : m.readBytes src size =
      seenBytes p m v src src (size - rest.length) ++ m.readBytes (src + (size - rest.length)) rest.length := by
    rw [seenBytes_of_declared hdecl, ← readBytes_append, Nat.sub_add_cancel hle]
  rw [hsplit]
  exact parseStream_seenBytes_append h _

theorem endDec_endedOK (s : State) (m : Memory) {n : Nat} (hn : n < 2 ^ 64) : EndedOK s (endDec s m n) n := by
  obtain ⟨hresult, hstatus, hfaddr, hwork, hdraws, hlog, hside⟩ := endOK_endedOK { s with draws := s.draws + 1 } m hn
  exact ⟨hresult, hstatus, hfaddr, hwork, Nat.le_of_succ_le hdraws, hlog, hside⟩

/-- Settles O22: DEC runs as on the bytes of the stream alone, which are those of memory where they are declared. -/
theorem decWritesDecodedWords : Obligations.DecWritesDecodedWords := by
  intro s i st rest hi _ hm hparse hrun
  have hstream := parseStream_seenBytes_append hparse []
  rw [List.append_nil] at hstream
  obtain ⟨m, he, -, hwords, hother⟩ := exec_dec_of_runnable hi hm hstream hrun
  refine ⟨⟨_, he, endDec_endedOK s m s.inst.count.isLt, hwords, fun a ha => hother a (within_false_iff.mp ha)⟩,
    fun hdecl => ⟨_, readBytes_length _ _ _, parseStream_readBytes_of_declared hparse hdecl⟩⟩

end Sys2Proof.Machine

end

section
/-! SUPPORT. The host software around a lawful compressor (O60): ENC and DEC as the host issues them, the workspace a stream is
decoded from, and the operations assembled from both. -/

namespace Sys2Proof.Machine

/-! ## The operands of an issued command -/

/-- R80: the signed and the unsigned command word of a pass each decode to their instruction. -/
theorem decodeCommand_of_mem {word wordS wordU : Word} {i iS iU : Instr} (hS : decodeCommand wordS = .ok iS)
    (hU : decodeCommand wordU = .ok iU) (h : (word, i) ∈ [(wordS, iS), (wordU, iU)]) :
    decodeCommand word = .ok i ∧ (i = iS ∨ i = iU) := by
  simp only [List.mem_cons, Prod.mk.injEq, List.not_mem_nil, or_false] at h
  rcases h with ⟨rfl, rfl⟩ | ⟨rfl, rfl⟩
  · exact ⟨hS, .inl rfl⟩
  · exact ⟨hU, .inr rfl⟩

/-- R5: a count that passes the check of R234 fits COUNT. -/
theorem lt_two_pow_aw_of_le_nmax {p : Platform} (hp : p.wellFormed = true) {n : Nat} (hn : n ≤ p.nmax) : n < 2 ^ p.aw := by
  have := nmax_size_lt hp
  omega

/-- R21: a register holds a value below 2^AW as it is. -/
theorem toNat_ofNat_of_lt_aw {p : Platform} (hp : p.wellFormed = true) {v : Nat} (hv : v < 2 ^ p.aw) :
    (BitVec.ofNat 64 v).toNat = v := by
  rw [BitVec.toNat_ofNat, Nat.mod_eq_of_lt (hv.trans_le (two_pow_aw_le hp))]

/-- The duties of the host do not speak of the bytes of memory or of the declared streams. -/
theorem runnable_withMem_declaring {i : Instr} {s : State} (m : Memory) (rs : List Region) (word : Word)
    (src dst n inLen outLen : Nat) :
    Runnable i ((State.declaring { s with mem := m } rs).withOperands word src dst n) inLen outLen ↔
      Runnable i (s.withOperands word src dst n) inLen outLen := Iff.rfl

/-- 93 U1: a buffer declared alone is the one of the stream at its base. -/
theorem allDeclared_declaring_single (s : State) (base len : Nat) : allDeclared (s.declaring [⟨base, len⟩]).plat base len := by
  intro a h₁ h₂
  rw [declared_single (r := ⟨base, len⟩) rfl (by simp [Region.has]; omega)]
  simp [Region.has, h₁, h₂]

/-! ## ENC and DEC as the host issues them -/

section issued
variable {s : State} {word : Word} {i : Instr} {src dst n : Nat} {xs : List Word}
  (hidle : Idle s) (hp : s.plat.wellFormed = true) (hm : s.mem.wf = true) (hw : decodeCommand word = .ok i)
  (hn : n ≤ s.plat.nmax) (hsrc : src < 2 ^ s.plat.aw) (hdst : dst < 2 ^ s.plat.aw)
include hidle hp hm hw hn hsrc hdst

/-- ENC, issued, leaves the encoding of the words at `src` at `dst`, its length in RESULT, and every other byte as it was; the
encoding of no words is empty (R133, R138). -/
theorem issue_enc (hi : i = .encS ∨ i = .encU) (hxs : xs = s.mem.words src n)
    (hrun : n = 0 ∨ Runnable i (s.withOperands word src dst n) (4 * n) (encodeList s.plat.tie xs).length) :
    ∃ t, issue word src dst n s = .next t ∧ t.mem.wf = true ∧ t.inst.result.toNat = (encodeList s.plat.tie xs).length ∧
      t.mem.readBytes dst (encodeList s.plat.tie xs).length = encodeList s.plat.tie xs ∧
      ∀ a, within dst (encodeList s.plat.tie xs).length a = false → t.mem.read a = s.mem.read a := by
  have hlt := lt_two_pow_aw_of_le_nmax hp hn
  have hcount : (s.withOperands word src dst n).inst.count.toNat = n := toNat_ofNat_of_lt_aw hp hlt
  rw [issue_eq hidle hp hsrc hdst hlt hw]
  rcases hrun with rfl | hrun
  · have hcodec : isCodec i = true := by rcases hi with rfl | rfl <;> rfl
    obtain ⟨t, he, hmem, hresult, -⟩ := (codecChecksInOrder _ i hcodec).2.1 hcount
    subst hxs
    exact ⟨t, he, by rwa [hmem], hresult, rfl, fun a _ => by rw [hmem]; rfl⟩
  · have hS : (s.withOperands word src dst n).inst.src.toNat = src := toNat_ofNat_of_lt_aw hp hsrc
    have hD : (s.withOperands word src dst n).inst.dst.toNat = dst := toNat_ofNat_of_lt_aw hp hdst
    obtain ⟨m, he, hwf, hread, hother⟩ := exec_enc_of_runnable (s := s.withOperands word src dst n) (xs := xs) hi hm
      (by rw [hS, hcount]; exact hxs) (by rw [hcount]; exact hrun)
    rw [hD] at hread hother
    have hlen : xs.length ≤ s.plat.nmax := by simpa [hxs, Memory.words] using hn
    exact ⟨_, he, hwf, Nat.mod_eq_of_lt (encodeList_length_lt hp hlen), hread,
      fun a ha => hother a (within_false_iff.mp ha)⟩

/-- DEC, issued on a declared buffer that holds one stream, leaves the words of the stream at `dst`, N in RESULT, and every
other byte as it was (R190, R197). -/
theorem issue_dec {st : Stream} {len : Nat} (hi : i = .decS ∨ i = .decU) (hdecl : allDeclared s.plat src len)
    (hparse : parseStream n (s.mem.readBytes src len) = .ok (st, []))
    (hrun : Runnable i (s.withOperands word src dst n) len (4 * n)) :
    ∃ t, issue word src dst n s = .next t ∧ Idle t ∧ t.plat = s.plat ∧ t.inst.result.toNat = n ∧
      t.mem.words dst n = streamWords st ∧
      ∀ a, within dst (4 * n) a = false → t.mem.read a = s.mem.read a := by
  have hlt := lt_two_pow_aw_of_le_nmax hp hn
  have hcount : (s.withOperands word src dst n).inst.count.toNat = n := toNat_ofNat_of_lt_aw hp hlt
  have hS : (s.withOperands word src dst n).inst.src.toNat = src := toNat_ofNat_of_lt_aw hp hsrc
  have hD : (s.withOperands word src dst n).inst.dst.toNat = dst := toNat_ofNat_of_lt_aw hp hdst
  rw [issue_eq hidle hp hsrc hdst hlt hw]
  obtain ⟨m, he, -, hwords, hother⟩ := exec_dec_of_runnable (s := s.withOperands word src dst n) (st := st) (len := len) hi hm
    (by rw [hcount, hS, withOperands_plat, seenBytes_of_declared hdecl]; exact hparse) (by rw [hcount]; exact hrun)
  rw [hD, hcount] at hwords hother
  rw [hcount] at he
  exact ⟨_, he, rfl, rfl, toNat_ofNat_of_lt_aw hp hlt, hwords, fun a ha => hother a (within_false_iff.mp ha)⟩

/-- R218 (4), (5): the decoder, run on a workspace that holds the encoding of a list, gives the list back, and the declaration
of the host's streams is as before (log 20). -/
theorem decodeWorkspace_encodeList {tie : TieRule} (hi : i = .decS ∨ i = .decU) (hlen : xs.length = n) (hne : xs ≠ [])
    (hread : s.mem.readBytes src (encodeList tie xs).length = encodeList tie xs)
    (hrun : Runnable i (s.withOperands word src dst n) (encodeList tie xs).length (4 * n)) :
    ∃ t, decodeWorkspace word src (encodeList tie xs).length dst n s = .next (t, n) ∧ t.mem.words dst n = xs ∧
      t.plat = s.plat ∧ ∀ a, within dst (4 * n) a = false → t.mem.read a = s.mem.read a := by
  have hparse : parseStream n (s.mem.readBytes src (encodeList tie xs).length) =
      .ok (streamOf (commonOf tie xs) (deltas xs), []) := by
    rw [hread, ← hlen]
    exact parseStream_encodeList tie hne
  obtain ⟨u, he, hidle', hplat, hresult, hwords, hother⟩ :=
    issue_dec (s := s.declaring [⟨src, (encodeList tie xs).length⟩]) hidle hp hm hw hn hsrc hdst hi
      (allDeclared_declaring_single s src _) hparse ((runnable_withMem_declaring s.mem _ word src dst n _ _).mpr hrun)
  refine ⟨u.declaring s.plat.streams, ?_, hwords.trans (streamWords_streamOf_deltas _ hne), ?_, hother⟩
  · simp only [decodeWorkspace, perform_declare hidle, perform_declare hidle', andThen, he, declaring_inst, hresult]
  · simp only [State.declaring, hplat]

end issued

/-! ## The operations of the wrapper -/

/-- R216: what the operation leaves once ENC has ended. -/
theorem compressToBuffer_of_issue {fc : FastCompressor} {s t : State} {word : Word} {list n out scratch : Nat}
    (h : issue word list scratch n s = .next t) {bs : List Byte}
    (hbs : t.mem.readBytes scratch t.inst.result.toNat = bs) :
    compressToBuffer word fc list n out scratch s =
      .next ({ t with mem := t.mem.writeBytes out (fc.compress bs) }, (fc.compress bs).length) := by
  simp only [compressToBuffer, h, andThen, hbs]

section decompressed
variable {fc : FastCompressor} {s : State} {src size n alloc ws cap : Nat} {given : Option (Nat × Nat)}
  (hws : workspaceOf given alloc n = (ws, cap)) (word : Word) (out : Nat)
include hws

/-- R220: a decompressor that gives no bytes ends the operation. -/
theorem decompressFromBuffer_of_empty (h : fc.decompress (s.mem.readBytes src size) cap = some []) :
    decompressFromBuffer word fc src size out n given alloc s = .next (s, 0) := by
  simp only [decompressFromBuffer, hws, h]

/-- R218 (3), (4): the decoder runs on the bytes the decompressor gives. -/
theorem decompressFromBuffer_of_nonempty {bs : List Byte} (hne : bs ≠ [])
    (h : fc.decompress (s.mem.readBytes src size) cap = some bs) :
    decompressFromBuffer word fc src size out n given alloc s =
      decodeWorkspace word ws bs.length out n { s with mem := s.mem.writeBytes ws bs } := by
  cases bs with
  | nil => exact absurd rfl hne
  | cons b bs => simp only [decompressFromBuffer, hws, h]

end decompressed

/-- Settles O60: the scratch holds what ENC wrote (`issue_enc`); the decompressor gives that stream back, and DEC runs on it
where the workspace is declared (`decodeWorkspace_encodeList`), or, for the empty list, not at all. -/
theorem compressorWrapperRoundTrip : Obligations.CompressorWrapperRoundTrip := by
  rintro fc s xs n out ⟨-, -, hlossless, -⟩ hidle hp hm hn hout
  obtain ⟨hencS, hencU, hdecS, hdecU, -⟩ := commandWordsDecodeExactly
  refine ⟨fun word i list scratch hword hlist hscratch hxs hrun => ?_,
    fun word i tie src size ws cap alloc given hword hlen hws hsrc hspace hcap hrun => ?_⟩
  · obtain ⟨hw, hi⟩ := decodeCommand_of_mem hencS hencU hword
    obtain ⟨t, he, hwf, hresult, hread, hother⟩ := issue_enc hidle hp hm hw hn hlist hscratch hi hxs hrun
    refine ⟨_, compressToBuffer_of_issue he (by rw [hresult, hread]), readBytes_writeBytes_same hwf _ _,
      fun a hin hout => ?_⟩
    exact (read_writeBytes_other _ _ _ (within_false_iff.mp hout)).trans (hother a hin)
  · obtain ⟨hw, hi⟩ := decodeCommand_of_mem hdecS hdecU hword
    have hgiven : fc.decompress (s.mem.readBytes src size) cap = some (encodeList tie xs) := by
      rw [hsrc]
      exact hlossless _ cap hcap
    rcases Nat.eq_zero_or_pos n with rfl | hpos
    · obtain rfl := List.length_eq_zero_iff.mp hlen
      exact ⟨s, decompressFromBuffer_of_empty hspace word out hgiven, rfl, rfl, fun _ _ _ => rfl⟩
    · have hne : xs ≠ [] := List.ne_nil_of_length_pos (hlen ▸ hpos)
      have hbytes : encodeList tie xs ≠ [] := List.ne_nil_of_length_pos (by rw [encodeList_length tie hne]; omega)
      obtain ⟨t, he, hwords, hplat, hother⟩ :=
        decodeWorkspace_encodeList (s := { s with mem := s.mem.writeBytes ws (encodeList tie xs) }) hidle hp
          (wf_writeBytes hm _ _) hw hn hws hout hi hlen hne (readBytes_writeBytes_same hm _ _)
          ((runnable_withMem_declaring _ s.plat.streams word ws out n _ _).mpr
            (hrun.resolve_left hpos.ne'))
      exact ⟨t, (decompressFromBuffer_of_nonempty hspace word out hbytes hgiven).trans he, hwords, hplat,
        fun a hin hout => (hother a hout).trans (read_writeBytes_other _ _ _ (within_false_iff.mp hin))⟩

end Sys2Proof.Machine

end

section
/-! SUPPORT. A fault between commands changes the registers it writes and nothing else of the instance in focus (O50). -/

namespace Sys2Proof.Machine

/-- Between commands there is no running command for the fault entry to end (R236). -/
theorem endFault_of_idle {s : State} (hidle : Idle s) (e : Err) :
    endFault s e = { s with
      inst := { s.inst with result := 0#64, status := statusWord e.code }
      faultLog := e :: s.faultLog } := by
  have hwork : s.inst.work = none := hidle
  simp only [endFault, hwork]
  rfl

/-- Settles O50: the write to CMD stores the word, which does not decode, and the fault entry finds no running command. -/
theorem illegalWordFaults : Obligations.IllegalWordFaults := by
  intro s q v e hidle hq hd
  rw [step_commandWrite hidle (.inl rfl) hq, runCommand_of_illegal hd, endFault_of_idle]
  · rfl
  · exact hidle

end Sys2Proof.Machine

end

section
/-! SUPPORT. A step whose next action is a reset, whether or not a command runs (O43, O44). -/

namespace Sys2Proof.Machine

/-- No action waits for a running command when it is a reset: the step takes it off the queue and does it (R260, R262). -/
theorem step_reset {s : State} {b : Nat} {q : List HostAction} (hq : s.queue = .reset b :: q) :
    step s = .next (resetAt { s with queue := q } b) := by
  cases hw : s.inst.work with
  | none => exact step_of_queue hw hq
  | some w => simp only [step, hw, runningStep, hq, resetAt]

theorem resetAt_focus {s : State} {b : Nat} (h : s.inst.base = b) : resetAt s b = resetFocused s := if_pos h

theorem resetAt_other {s : State} {b : Nat} (h : s.inst.base ≠ b) : resetAt s b = resetOther s b := if_neg h

/-- R261: with no command running only the registers change. -/
theorem resetFocused_of_idle {s : State} (h : Idle s) : resetFocused s = { s with inst := s.inst.cleared } := by
  have hw : s.inst.work = none := h
  simp only [resetFocused, hw]

/-- R262: the output range of the command that is cut off takes unspecified values. -/
theorem resetFocused_of_running {s : State} {w : Work} (hw : s.inst.work = some w) :
    resetFocused s = { s with
      inst := s.inst.cleared, mem := s.mem.havoc w.dst w.outLen s.draws, draws := s.draws + w.outLen } := by
  simp only [resetFocused, hw]

/-- Another instance is cleared at its own address, which is the one the reset names. -/
theorem resetOther_eq_atReset (s : State) (b : Nat) : resetOther s b =
    { s with others := s.others.map fun x => if x.base = b then Inst.atReset b else x } := by
  have hx : ∀ x : Inst, (if x.base = b then x.cleared else x) = if x.base = b then Inst.atReset b else x := fun x => by
    split
    · next h => rw [Inst.cleared, h]
    · rfl
  simp only [resetOther, hx]

/-- Settles O44: of memory the reset touches only the output range, with unspecified bytes. -/
theorem resetCutsCommandOff : Obligations.ResetCutsCommandOff := by
  intro s w q hw hq
  refine ⟨_, step_reset hq, ?_⟩
  rw [resetAt_focus (s := { s with queue := q }) rfl, resetFocused_of_running (s := { s with queue := q }) hw]
  exact ⟨rfl, rfl, rfl, rfl, rfl, (Confined.havoc True s.mem w.dst w.outLen s.draws).frame trivial⟩

/-- Settles O43: the reset of the instance in focus finds no command running, and that of another one does not look for one. -/
theorem resetBetweenCommands : Obligations.ResetBetweenCommands := by
  intro s q b _ hq
  rw [step_reset hq]
  constructor
  · rintro hidle rfl
    rw [resetAt_focus (s := { s with queue := q }) rfl, resetFocused_of_idle (s := { s with queue := q }) hidle]
    rfl
  · intro hb
    rw [resetAt_other (s := { s with queue := q }) hb.symm, resetOther_eq_atReset]
    rfl

end Sys2Proof.Machine

end

section
/-! SUPPORT. ENC and DEC whose ranges overlap (O27). -/

namespace Sys2Proof.Machine

/-- R5: RESULT has room for every value a codec command of at most NMAX elements returns. -/
theorem rangesOf_hi_lt {p : Platform} (hp : p.wellFormed = true) (i : Instr) {n : Nat} (hn : n ≤ p.nmax) :
    (rangesOf i n).hi < 2 ^ 64 :=
  calc (rangesOf i n).hi
    _ ≤ 4 + tagBytes p.nmax + 4 * p.nmax := rangesOf_hi_le i hn
    _ < 2 ^ p.aw := nmax_size_lt hp
    _ ≤ 2 ^ 64 := two_pow_aw_le hp

/-- Of the checks only the one for overlapping ranges ends a command with legal operands and ordinary ranges (R240). -/
theorem exec_codec_of_overlap {i : Instr} {s : State} (hi : isCodec i = true) (hl : OperandsLegal i s)
    (ho : RangesOrdinary i s) (hd : ¬ RangesDisjoint i s) :
    exec i s = .next (overlapEnd s (rangesOf i s.inst.count.toNat)) := by
  obtain ⟨hn, hmax, -⟩ := id hl
  rcases exec_codec_cases s i hi with ⟨h, -⟩ | ⟨h, -⟩ | ⟨-, -, h, -⟩ | ⟨-, h, -⟩ | ⟨-, -, -, e⟩ | ⟨-, -, h, -⟩
  · exact absurd hmax (Nat.not_le.mpr h)
  · exact absurd h hn.ne'
  · exact absurd hl h
  · exact absurd ho h
  · exact e
  · exact absurd h hd

/-- Settles O27: the frame is that of every codec command; the free RESULT is drawn within its bounds, which its register can
hold. -/
theorem overlapStaysInOutputRange : Obligations.OverlapStaysInOutputRange := by
  intro s i hi hp hl ho hd
  have e := exec_codec_of_overlap hi hl ho hd
  have hend := exec_codec_commandEnd hi e
  refine ⟨_, e, hend.hostSideKept, hend.work_eq_none, ?_, (exec_codec_codecEnd hi e).confined.frame trivial⟩
  obtain ⟨hn, hmax, -⟩ := hl
  obtain ⟨hin, hout, hsi, hso, hlo⟩ := rangesOf_ordered i hn
  rcases overlapEnd_cases s _ hin hout hsi hso hlo with ⟨a, -, -, h⟩ | ⟨res, hlow, hhigh, h⟩
  · rw [h]
    exact .inr ⟨rfl, rfl⟩
  · have hres : (BitVec.ofNat 64 res).toNat = res := by
      rw [BitVec.toNat_ofNat, Nat.mod_eq_of_lt (hhigh.trans_lt (rangesOf_hi_lt hp i hmax))]
    rw [h, endOK_result, hres]
    exact .inl ⟨rfl, hlow, hhigh, rfl⟩

end Sys2Proof.Machine

end
